-- ==== Sys2Proof/Word.lean ====
section
/-! DEFINITION. The words of the block: the widths the spec gives (00_scope.md R6, 30_encoding.md R70, R75, R76)
and the shape in which a sparse address space is held. -/

namespace Sys2Proof

/-- One byte: the operand of INGEST (R72) and one element of OUT (R54). -/
abbrev Byte := BitVec 8

/-- A command word, `CMD_W` = 16 bits (R70). -/
abbrev CmdWord := BitVec 16

/-- A symbol value, `SYM_W` = 9 bits (R75). -/
abbrev Symbol := BitVec 9

/-- One stored element of the TABLE space, 64 bits (R76). -/
abbrev EntryWord := BitVec 64

/-- A sparse address space: the listed addresses with what they hold, in rising order of address. An address that is
not listed holds a free value (OUT, which is a total map, 20_memory.md R56, assumption 4) or the marker `NONE` (a tree
node's slots, 40_tree_builder.md R102). With `α := Byte` an entry is a `Host.Cell`. -/
abbrev Memory (α : Type) := List (Nat × α)

end Sys2Proof
end

