-- ==== Sys2Proof/Config.lean ====
section
/-! DEFINITION. The implementation parameters (00_scope.md R6), the elements of the TABLE and TREE spaces, and the
values the spec leaves open: constants without a body, so that nothing can be proved about which value they are. -/

namespace Sys2Proof

/-- An entry of the Code Table: the triple `(symbol, code, length)` of 30_encoding.md R75, with the field widths of R76. -/
structure TableEntry where
  symbol : Symbol
  /-- right-justified: bit `length - 1` is the first bit in the stream (20_memory.md R51) -/
  code   : BitVec 32
  length : BitVec 6
  deriving DecidableEq, Repr

/-- The 256 child slots of an internal node: the occupied ones, each with its child's node index. A slot that is not
listed is `NONE` (30_encoding.md R82, R83). -/
abbrev Slots := Memory Nat

/-- A Decode Tree node (30_encoding.md R82). A terminal's bit count is 1..8, so it is held less one: the header field
`bits` of R83 is `bitsLessOne + 1`. -/
inductive Node where
  | internal (slots : Slots)
  | terminal (symbol : Symbol) (bitsLessOne : Fin 8)
  deriving DecidableEq, Repr

/-- The TREE space: the nodes BUILD has allocated, in order of node index (30_encoding.md R84). The spec gives `NODE_W`,
the width of a node index, no value: here an index is a natural number and the list has no bound (DESIGN CHOICE,
assumption 19). -/
abbrev Tree := List Node

/-- The named checks of a Code Table (30_encoding.md R77). -/
inductive TableCheck where
  | wNonempty
  | wLen
  | wCode
  | wSym
  | wEos
  | wByte
  deriving DecidableEq, Repr

/-- The static parameters of a block (00_scope.md R6, 10_state.md R30): no command writes them. `NENG` is the length
of `cap0`, which holds one initial capacity for each engine. -/
structure Parameters where
  table  : List TableEntry
  eosSym : Symbol
  cap0   : List Nat
  deriving DecidableEq, Repr

/-- `NENG`, the number of engines (00_scope.md R6). R6 asks for `NENG >= 1`: the type allows 0 (DESIGN CHOICE, assumption
22). -/
def Parameters.neng (p : Parameters) : Nat := p.cap0.length

namespace Config

/-- Names one draw of free values of an engine: the hardware reset it comes after, the engine, and how many draws that
engine made since. Two draws with different keys are unrelated. -/
structure FreeKey where
  epoch  : Nat
  engine : Nat
  draw   : Nat
  deriving DecidableEq, Repr

/-- `TABLE` of a block as it is delivered: OPEN (00_scope.md R6, 91_not_in_source.md N1). Assumption 2. -/
opaque table : List TableEntry

/-- `CAP0` of engine 0 of a block as it is delivered: OPEN (00_scope.md R6). Assumption 2. -/
opaque cap0 : Nat

/-- `EOS_SYM`, by the default of 00_scope.md R6. -/
def eosSym : Symbol := 256#9

/-- The parameters of a block as it is delivered; `NENG` is 1, the default of 00_scope.md R6. -/
def delivered : Parameters := { table := table, eosSym := eosSym, cap0 := [cap0] }

/-- `node` where the spec leaves it unspecified (60_exceptions.md R183, 70_reset_and_hazards.md R210). Assumption 4. -/
opaque freeNode : FreeKey → Nat

/-- `acc` where the spec leaves it unspecified (R183, R210). Assumption 4. -/
opaque freeAcc : FreeKey → BitVec 16

/-- `valid_bits` where the spec leaves it unspecified (R183, R210). Assumption 4. -/
opaque freeValidBits : FreeKey → BitVec 4

/-- `sym_bits` where the spec leaves it unspecified (R183, R210). Assumption 4. -/
opaque freeSymBits : FreeKey → BitVec 6

/-- `out_len` where the spec leaves it unspecified (R183, R210). Assumption 4. -/
opaque freeOutLen : FreeKey → Nat

/-- `out_cap` where the spec leaves it unspecified (R183, R210). Assumption 4. -/
opaque freeOutCap : FreeKey → Nat

/-- The byte `OUT[i]` that no append has written since the draw: "any value" (20_memory.md R56, 41_engine_ingest.md R121,
93_implementation_defined.md U13). Assumption 4. -/
opaque freeOutByte : FreeKey → Nat → Byte

/-- The TREE space where the spec leaves it unspecified: after a hardware reset (`failed = false`, R210) and after a
failed BUILD (`failed = true`, R184). Assumption 4. -/
opaque freeTree (epoch : Nat) (failed : Bool) : Tree

end Config

end Sys2Proof
end

