-- ==== Sys2Proof/Machine/CodeTable.lean ====
section
/-! DEFINITION. The well-formedness checks of a Code Table (30_encoding.md R77), the precondition of BUILD. -/

namespace Sys2Proof.Machine

/-- `W_nonempty`: `NSYM >= 1`. -/
def tableNonempty (table : List TableEntry) : Bool := !table.isEmpty

/-- `W_len`: every `length` is in 1..32. -/
def tableLengthsOk (table : List TableEntry) : Bool :=
  table.all fun x => decide (1 ≤ x.length.toNat) && decide (x.length.toNat ≤ 32)

/-- `W_code`: every `code < 2^length`. -/
def tableCodesOk (table : List TableEntry) : Bool :=
  table.all fun x => decide (x.code.toNat < 2 ^ x.length.toNat)

/-- `W_sym`: the `symbol` values are pairwise distinct. -/
def tableSymbolsOk (table : List TableEntry) : Bool :=
  decide (table.map TableEntry.symbol).Nodup

/-- `W_eos`: exactly one entry has `symbol = EOS_SYM`. -/
def tableEosOk (table : List TableEntry) (eos : Symbol) : Bool :=
  table.countP (fun x => x.symbol == eos) == 1

/-- `W_byte`: every other entry has `symbol <= 255`. -/
def tableBytesOk (table : List TableEntry) (eos : Symbol) : Bool :=
  table.all fun x => x.symbol == eos || decide (x.symbol.toNat ≤ 255)

/-- The first check of R77 that the table fails, or `none` where the table is well-formed. -/
def failedTableCheck (p : Parameters) : Option TableCheck :=
  if tableNonempty p.table = false then some .wNonempty
  else if tableLengthsOk p.table = false then some .wLen
  else if tableCodesOk p.table = false then some .wCode
  else if tableSymbolsOk p.table = false then some .wSym
  else if tableEosOk p.table p.eosSym = false then some .wEos
  else if tableBytesOk p.table p.eosSym = false then some .wByte
  else none

end Sys2Proof.Machine
end

