-- ==== Sys2Proof/Syntax.lean ====
section
/-! DEFINITION. The commands of the block, one constructor for each row of spec/opcode_table.json, and the ports they
are presented on (30_encoding.md R70, R71). -/

namespace Sys2Proof

/-- A command (30_encoding.md R71). The operand of INGEST is 8 unsigned bits (R72); no other command has one. -/
inductive Instr where
  | build
  | reset
  | ingest (b : Byte)
  | finish
  deriving DecidableEq, Repr

/-- The port a command word is presented on: it alone chooses the agent (R71; engines by number, 60_exceptions.md
R193). -/
inductive Port where
  | builder
  | engine (e : Nat)
  deriving DecidableEq, Repr

/-- The mnemonic of a command, as spec/opcode_table.json spells it. -/
def Instr.mnemonic : Instr → String
  | .build => "BUILD"
  | .reset => "RESET"
  | .ingest _ => "INGEST"
  | .finish => "FINISH"

end Sys2Proof
end

