-- ==== Sys2Proof/WellFormed.lean ====
section
/-! DEFINITION. Well-formed commands, and the legal configurations of a block (30_encoding.md R77, 41_engine_ingest.md
R127, 00_scope.md R6). -/

namespace Sys2Proof

/-- A command is well-formed when its operand is in the range of 30_encoding.md R72. The operand's type carries the
range, so every command is. -/
def Instr.wellFormed : Instr → Bool
  | .build => true
  | .reset => true
  | .ingest b => decide (b.toNat ≤ 255)
  | .finish => true

/-- The Code Table is well-formed (R77). -/
def Parameters.tableWellFormed (p : Parameters) : Bool := (Machine.failedTableCheck p).isNone

/-- `CAP0 >= 1` for every engine: 0 is not a legal configuration (R127). -/
def Parameters.capacitiesLegal (p : Parameters) : Bool := p.cap0.all fun c => decide (1 ≤ c)

/-- `NENG >= 1` (R6). The machine does not test it: what it does with `NENG = 0` is assumption 22. -/
def Parameters.hasEngine (p : Parameters) : Bool := decide (1 ≤ p.neng)

/-- What the Host must provide before anything else (70_reset_and_hazards.md R212, step 1). -/
def Parameters.wellFormed (p : Parameters) : Bool :=
  p.tableWellFormed && p.capacitiesLegal && p.hasEngine

end Sys2Proof
end

