-- ==== Sys2Proof/Decode.lean ====
section
/-! DEFINITION. The command words (30_encoding.md R70 to R73): the decoder, total on 16-bit words and rejecting by
name; the encoder; the port an assembler line without an agent goes to and the line's text (R85); and the stored word of
a Code Table entry (R76). -/

namespace Sys2Proof

/-- Why a word is illegal (30_encoding.md R73). -/
inductive DecodeError where
  /-- `op` is outside 0x01..0x04 -/
  | unknownOpcode (op : Byte)
  /-- `arg` is not 0 in a command that has no operand -/
  | nonzeroArgument (op arg : Byte)
  deriving DecidableEq, Repr

/-- `op = cmd[15:8]` (R70). -/
def opField (w : CmdWord) : Byte := w.extractLsb' 8 8

/-- `arg = cmd[7:0]` (R70). -/
def argField (w : CmdWord) : Byte := w.extractLsb' 0 8

/-- A command without an operand: its `arg` must be 0 (R73). -/
def decodeBare (i : Instr) (op arg : Byte) : Except DecodeError Instr :=
  if arg = 0#8 then .ok i else .error (.nonzeroArgument op arg)

/-- The command of a word, or the reason the word is illegal (R71, R72, R73). -/
def decode (w : CmdWord) : Except DecodeError Instr :=
  if opField w = 0x01#8 then decodeBare .build (opField w) (argField w)
  else if opField w = 0x02#8 then decodeBare .reset (opField w) (argField w)
  else if opField w = 0x03#8 then .ok (.ingest (argField w))
  else if opField w = 0x04#8 then decodeBare .finish (opField w) (argField w)
  else .error (.unknownOpcode (opField w))

/-- The word of a command: `op` in bits 15:8, the operand byte in bits 7:0 (R70, R71). -/
def encode : Instr → CmdWord
  | .build => 0x01#8 ++ 0x00#8
  | .reset => 0x02#8 ++ 0x00#8
  | .ingest b => 0x03#8 ++ b
  | .finish => 0x04#8 ++ 0x00#8

/-- The decoder on a word numbered as spec/opcode_table.json numbers it. A command is one 16-bit word (R70), so a longer
one is none. -/
def decodeTableWord (nbits w : Nat) : Option Instr :=
  if w % 2 ^ nbits < 2 ^ 16 then
    match decode (BitVec.ofNat 16 (w % 2 ^ nbits)) with
    | .ok i => some i
    | .error _ => none
  else none

/-- The port of an assembler line that names no agent: the Builder for BUILD, engine 0 otherwise (R85). -/
def Instr.defaultPort : Instr → Port
  | .build => .builder
  | .reset => .engine 0
  | .ingest _ => .engine 0
  | .finish => .engine 0

/-- The port a word is presented on where none is named (R85); an illegal word goes to engine 0, as a line with no
BUILD mnemonic does. -/
def wordPort (w : CmdWord) : Port :=
  match decode w with
  | .ok i => i.defaultPort
  | .error _ => .engine 0

/-- One hexadecimal digit, upper case. -/
def hexDigit (n : Nat) : Char := if n < 10 then Char.ofNat (48 + n) else Char.ofNat (55 + n)

/-- A byte as the assembler writes it, `0x5C` (R85, 00_scope.md R9). -/
def hexByte (b : Byte) : String :=
  String.ofList ['0', 'x', hexDigit (b.toNat / 16), hexDigit (b.toNat % 16)]

/-- The operand part of an assembler line (R85). -/
def Instr.operandText : Instr → String
  | .build => ""
  | .reset => ""
  | .ingest b => " " ++ hexByte b
  | .finish => ""

/-- The agent part of an assembler line: `B:` or `E0:` (R85). -/
def Port.text : Port → String
  | .builder => "B:"
  | .engine e => "E" ++ Nat.repr e ++ ":"

/-- An assembler line with its agent written out (R85). -/
def asmLine (p : Port) (i : Instr) : String := p.text ++ " " ++ i.mnemonic ++ i.operandText

/-- The stored word of a Code Table entry: `e[31:0]` = code, `e[37:32]` = length, `e[46:38]` = symbol, `e[63:47]` = 0
(R76). -/
def packEntry (x : TableEntry) : EntryWord := 0#17 ++ x.symbol ++ x.length ++ x.code

/-- The entry a stored word holds; a word whose bits 63:47 are not 0 holds none (R76). -/
def unpackEntry (w : EntryWord) : Option TableEntry :=
  if w.extractLsb' 47 17 = 0#17 then
    some { symbol := w.extractLsb' 38 9, code := w.extractLsb' 0 32, length := w.extractLsb' 32 6 }
  else none

end Sys2Proof
end

