-- ==== Sys2Proof/Machine/State.lean ====
section
/-! DEFINITION. The state of the block (10_state.md), the responses and refusals a command ends in (30_encoding.md R74,
60_exceptions.md R180), and the state after hardware reset (R33, 70_reset_and_hazards.md R210). Plain data throughout. -/

namespace Sys2Proof.Machine

/-- `status` of an engine (10_state.md R27). -/
inductive EngineStatus where
  | idle
  | active
  | done
  | faulted
  deriving DecidableEq, Repr

/-- The faults an engine command raises (60_exceptions.md R180); `PREFIX_CODE_VIOLATION` is the Builder's and never
stands in an engine's `fault` (10_state.md R28). -/
inductive EngineFault where
  | eosDecoded
  | invalidPadding
  | emptySlot
  deriving DecidableEq, Repr

/-- `tree_state` of the Builder (10_state.md R29). -/
inductive TreeState where
  | unbuilt
  | built
  | buildFailed
  deriving DecidableEq, Repr

/-- The response codes (30_encoding.md R74). -/
inductive Response where
  | ok
  | eosDecoded
  | invalidPadding
  | prefixCodeViolation
  | emptySlot
  | sequenceRefused
  | illegalCommand
  deriving DecidableEq, Repr

/-- What the Host does to the block next: present a word on a port (30_encoding.md R70), or assert the hardware reset
(70_reset_and_hazards.md R210), under which it may provide other static parameters (R212 step 1, assumption 3). How, for
how long and when the reset is asserted is not specified (R211): that it is one event, taken whole between two commands,
is the model's choice (DESIGN CHOICE, assumption 21). -/
inductive HostEvent where
  | command (port : Port) (word : CmdWord)
  | hardwareReset (newParams : Option Parameters)
  deriving DecidableEq, Repr

/-- The state of one Decode Engine: the eight registers of 10_state.md R20 and its OUT space (R31). `fault` is `none`
where the register holds code 0 (R28). The spec gives `NODE_W`, the width of `node`, no value: `node` is a natural number
(DESIGN CHOICE, assumption 19). `out` lists the bytes written since OUT was last left unspecified; `Engine.outByte` is
the whole of OUT. `freeKey` is the model's own: it names the engine's last draw of unspecified values (assumption 4). -/
structure Engine where
  node      : Nat
  acc       : BitVec 16
  validBits : BitVec 4
  symBits   : BitVec 6
  outLen    : Nat
  outCap    : Nat
  status    : EngineStatus
  fault     : Option EngineFault
  out       : Memory Byte
  freeKey   : Config.FreeKey
  deriving DecidableEq, Repr

/-- The state of the block. `params` are its static parameters and `treeState`, `tree`, `engines` its registers and
memories (10_state.md R20, R29, R31). The other fields are the model's own: `pending` holds what the Host does next,
oldest first; `port` is the port of the command being executed; `response` is the last response with its port (R74);
`refusalSeen` marks a run that holds a refused command (60_exceptions.md R186); `freeEpoch` counts hardware resets
(assumption 4). -/
structure State where
  params      : Parameters
  treeState   : TreeState
  tree        : Tree
  engines     : List Engine
  pending     : List HostEvent
  port        : Port
  response    : Option (Port × Response)
  refusalSeen : Bool
  freeEpoch   : Nat
  deriving DecidableEq, Repr

/-- The machine stops. The spec's own faults are no stops: they are responses, and a next state (R183, R184). -/
inductive Fault where
  /-- A TREE element that does not exist was read or written: node `n` is not allocated, or it is a terminal, which owns
  no slot (30_encoding.md R83). Raised by the TREE accesses of BUILD, INGEST and FINISH. Safe: 40_tree_builder.md R107,
  R108 say that it cannot happen, and no state that meets the invariant `Safety.Inv` raises it. -/
  | treeElement (n : Nat)
  deriving DecidableEq, Repr

/-- The model gives the run no meaning. -/
inductive Refusal where
  /-- Raised by exec's arm of a command that has no meaning yet. Safe. No command is left. -/
  | notModelled (mnemonic : String)
  /-- Raised by BUILD on a Code Table that fails a check of 30_encoding.md R77: "a table that fails one of these checks
  is refused by the model (it is a configuration the spec does not define)". Safe. -/
  | illFormedTable (check : TableCheck)
  /-- Raised by RESET of an engine whose `CAP0` is 0: "`CAP0 = 0` is not a legal configuration" (41_engine_ingest.md
  R127, 93_implementation_defined.md U3). Safe. -/
  | zeroCapacity (e : Nat)
  /-- Raised by a word presented on the port of an engine that the configuration does not have: engines are numbered
  `0 <= e < NENG` (60_exceptions.md R193). Safe. -/
  | noSuchEngine (e : Nat)
  deriving DecidableEq, Repr

/-- The outcome of a command or of a step. -/
abbrev Result := Host.Outcome State Fault Refusal

/-- Engine `e` of the block as it is delivered: `status` and `fault` as hardware reset leaves them (R210). The other
registers have no reset value in the spec and hold 0 (assumption 1); no byte of OUT is written. -/
def Engine.reset (e : Nat) : Engine :=
  { node := 0, acc := 0#16, validBits := 0#4, symBits := 0#6, outLen := 0, outCap := 0,
    status := .idle, fault := none, out := [],
    freeKey := { epoch := 0, engine := e, draw := 0 } }

/-- The block with the parameters `p` right after power-up (10_state.md R33, 70_reset_and_hazards.md R210). -/
def State.resetWith (p : Parameters) : State :=
  { params := p, treeState := .unbuilt, tree := [], engines := (List.range p.neng).map Engine.reset,
    pending := [], port := .builder, response := none, refusalSeen := false, freeEpoch := 0 }

/-- The machine right after reset. -/
def State.reset : State := State.resetWith Config.delivered

end Sys2Proof.Machine
end

