-- ==== Sys2Proof/Machine/Memory.lean ====
section
/-! DEFINITION. Reading and writing one element of a sparse address space (20_memory.md R54), and its canonical form. -/

namespace Sys2Proof.Machine

/-- What the address `a` holds, or `none` where it is not listed. -/
def Memory.read {α : Type} : Memory α → Nat → Option α
  | [], _ => none
  | (k, v) :: rest, a => if k = a then some v else Memory.read rest a

/-- Store `v` at the address `a`, keeping the addresses in rising order. -/
def Memory.write {α : Type} : Memory α → Nat → α → Memory α
  | [], a, v => [(a, v)]
  | (k, w) :: rest, a, v =>
    if a < k then (a, v) :: (k, w) :: rest
    else if a = k then (a, v) :: rest
    else (k, w) :: Memory.write rest a v

/-- The canonical form: addresses strictly rising. An unlisted slot is `NONE`, which no entry equals; an unlisted OUT byte
is a free value, which nothing can compare with a byte, so OUT lists exactly the bytes written (assumption 4). -/
def Memory.wf {α : Type} : Memory α → Bool
  | [] => true
  | [_] => true
  | (a, _) :: (b, w) :: rest => decide (a < b) && Memory.wf ((b, w) :: rest)

/-- The canonical form of the TREE space: every internal node's slots are in canonical form. -/
def Tree.wf (t : Sys2Proof.Tree) : Bool :=
  t.all fun x =>
    match x with
    | .internal slots => Memory.wf slots
    | .terminal _ _ => true

end Sys2Proof.Machine
end

