-- ==== Sys2Proof/Machine/Operands.lean ====
section
/-! DEFINITION. The operands of the commands' memory accesses: the TREE slot an access addresses (20_memory.md R55,
40_tree_builder.md R103, R104), the TREE reads and writes themselves (R54), and the output byte of a symbol
(41_engine_ingest.md R128). -/

namespace Sys2Proof.Machine

/-- The low 8 bits of a value, `& 0xFF`. -/
def lowByte (n : Nat) : Byte := BitVec.ofNat 8 n

/-- The slot INGEST looks up: `(acc >> (valid_bits - 8)) & 0xFF`, the top 8 valid bits (R55). -/
def ingestSlot (en : Engine) : Byte := lowByte (en.acc.toNat >>> (en.validBits.toNat - 8))

/-- The slot FINISH looks up: `(acc << (8 - valid_bits)) & 0xFF`, the remaining bits left-justified and filled with
zeros (R55, 42_engine_finish.md R142). -/
def finishSlot (en : Engine) : Byte := lowByte (en.acc.toNat <<< (8 - en.validBits.toNat))

/-- The slot of a full-byte step of BUILD: `(code >> rem) & 0xFF`, `rem` being the bits that remain after it (R103). -/
def descentSlot (code : BitVec 32) (rem : Nat) : Byte := lowByte (code.toNat >>> rem)

/-- The first slot of a terminal's fan-out: `(code << (8 - rem)) & 0xFF` (R103). -/
def fanOutFirst (code : BitVec 32) (rem : Nat) : Byte := lowByte (code.toNat <<< (8 - rem))

/-- The slots of a terminal's fan-out, `first .. first + 2^(8-rem) - 1` (R103, R104). -/
def fanOutSlots (code : BitVec 32) (rem : Nat) : List Byte :=
  (List.range (1 <<< (8 - rem))).map fun i => lowByte ((fanOutFirst code rem).toNat + i)

/-- The output byte of a symbol, `symbol[7:0]` (R128). -/
def outputByte (sym : Symbol) : Byte := sym.extractLsb' 0 8

/-- The two kinds of tree node (30_encoding.md R82). -/
inductive NodeKind where
  | internal
  | terminal
  deriving DecidableEq, Repr

/-- A node header (30_encoding.md R83). -/
structure NodeHeader where
  kind   : NodeKind
  symbol : Symbol
  bits   : BitVec 4
  deriving DecidableEq, Repr

/-- `bits` of a terminal: 1..8. -/
def terminalBits (bitsLessOne : Fin 8) : BitVec 4 := BitVec.ofNat 4 (bitsLessOne.val + 1)

/-- The header of a node: an internal node's `symbol` is 0 and its `bits` 8 (30_encoding.md R83). -/
def Node.header : Node → NodeHeader
  | .internal _ => { kind := .internal, symbol := 0#9, bits := 8#4 }
  | .terminal sym k => { kind := .terminal, symbol := sym, bits := terminalBits k }

/-- A slot of an internal node, `{present, child}`: `present = 0` encodes `NONE` and then `child` is 0 (R83). -/
structure SlotField where
  present : Bool
  child   : Nat
  deriving DecidableEq, Repr

/-- The slot field that a slot's content is stored as (30_encoding.md R83). -/
def slotField : Option Nat → SlotField
  | none => { present := false, child := 0 }
  | some c => { present := true, child := c }

/-- Read the header of node `n` (20_memory.md R54): `TREE.kind`, `TREE.symbol`, `TREE.bits` (00_scope.md R8). -/
def Tree.header (t : Tree) (n : Nat) : Except Fault NodeHeader :=
  match t[n]? with
  | some x => .ok (Node.header x)
  | none => .error (.treeElement n)

/-- Read the slot `(n, s)`: `TREE.child(n, s)`, `none` for `NONE` (00_scope.md R8, 20_memory.md R54). -/
def Tree.child (t : Tree) (n : Nat) (s : Byte) : Except Fault (Option Nat) :=
  match t[n]? with
  | some (.internal slots) => .ok (Memory.read slots s.toNat)
  | some (.terminal _ _) => .error (.treeElement n)
  | none => .error (.treeElement n)

/-- Write the slot `(n, s)` (20_memory.md R54). -/
def Tree.writeChild (t : Tree) (n : Nat) (s : Byte) (c : Nat) : Except Fault Tree :=
  match t[n]? with
  | some (.internal slots) => .ok (t.set n (.internal (Memory.write slots s.toNat c)))
  | some (.terminal _ _) => .error (.treeElement n)
  | none => .error (.treeElement n)

/-- What one lookup of an engine reaches: slot `(n, s)` is `NONE`, or it holds the child `c` with that header. -/
inductive Lookup where
  | empty
  | node (c : Nat) (h : NodeHeader)
  deriving DecidableEq, Repr

/-- One lookup: the slot, then the header of the child it holds (41_engine_ingest.md R123, 42_engine_finish.md R141). -/
def Tree.lookup (t : Tree) (n : Nat) (s : Byte) : Except Fault Lookup :=
  match Tree.child t n s with
  | .error f => .error f
  | .ok none => .ok .empty
  | .ok (some c) =>
    match Tree.header t c with
    | .error f => .error f
    | .ok h => .ok (.node c h)

end Sys2Proof.Machine
end

