-- ==== Sys2Proof/Machine/Flags.lean ====
section
/-! DEFINITION. The flags of the block and their encodings (10_state.md R26 to R30, 30_encoding.md R74), the acceptance
tests that read them (60_exceptions.md R187) and the Padding Validator (42_engine_finish.md R143). -/

namespace Sys2Proof.Machine

/-- `status` as its register holds it (10_state.md R27). -/
def EngineStatus.code : EngineStatus → BitVec 2
  | .idle => 0#2
  | .active => 1#2
  | .done => 2#2
  | .faulted => 3#2

/-- `tree_state` as its register holds it (10_state.md R29). -/
def TreeState.code : TreeState → BitVec 2
  | .unbuilt => 0#2
  | .built => 1#2
  | .buildFailed => 2#2

/-- A response code (30_encoding.md R74). -/
def Response.code : Response → BitVec 4
  | .ok => 0x0#4
  | .eosDecoded => 0x1#4
  | .invalidPadding => 0x2#4
  | .prefixCodeViolation => 0x3#4
  | .emptySlot => 0x4#4
  | .sequenceRefused => 0xE#4
  | .illegalCommand => 0xF#4

/-- The response of a command that raises the fault: the fault's own code (60_exceptions.md R183). -/
def EngineFault.response : EngineFault → Response
  | .eosDecoded => .eosDecoded
  | .invalidPadding => .invalidPadding
  | .emptySlot => .emptySlot

/-- `fault` as its register holds it: 0, or the fault's code (10_state.md R28, 60_exceptions.md R180). -/
def faultCode : Option EngineFault → BitVec 4
  | none => 0#4
  | some k => Response.code (EngineFault.response k)

/-- The port `TSTAT[1:0]` (10_state.md R30). -/
def State.tstat (s : State) : BitVec 2 := s.treeState.code

/-- The port `ESTAT[5:0]` of an engine: `fault` in bits 5:2, `status` in bits 1:0 (10_state.md R30). -/
def Engine.estat (en : Engine) : BitVec 6 := faultCode en.fault ++ en.status.code

/-- BUILD is accepted in `UNBUILT` only (60_exceptions.md R187). -/
def acceptsBuild (ts : TreeState) : Bool := ts == .unbuilt

/-- RESET is accepted when the tree is built, in any status (R187). -/
def acceptsReset (ts : TreeState) (_ : EngineStatus) : Bool := ts == .built

/-- INGEST is accepted when the tree is built and the engine `ACTIVE` (R187). -/
def acceptsIngest (ts : TreeState) (st : EngineStatus) : Bool := ts == .built && st == .active

/-- FINISH is accepted when the tree is built and the engine `ACTIVE` (R187). -/
def acceptsFinish (ts : TreeState) (st : EngineStatus) : Bool := ts == .built && st == .active

/-- The Padding Validator (42_engine_finish.md R143): at most 7 bits since the last symbol, and the low `sym_bits` bits
of `acc` all 1. -/
def paddingValid (en : Engine) : Bool :=
  decide (en.symBits.toNat ≤ 7) &&
    decide (en.acc.toNat &&& (1 <<< en.symBits.toNat - 1) = 1 <<< en.symBits.toNat - 1)

end Sys2Proof.Machine
end

