-- ==== Sys2Proof/Machine/Ops.lean ====
section
/-! DEFINITION. The operations the commands share: taking a Host event, responding, refusing (60_exceptions.md R186),
raising a fault (R183, R184), which is this block's exception entry, the hardware reset (70_reset_and_hazards.md R210),
appending to OUT (41_engine_ingest.md R126), and what the Host reads (10_state.md R30, 20_memory.md R62). -/

namespace Sys2Proof.Machine

/-- Replace engine `e`. -/
def State.setEngine (s : State) (e : Nat) (en : Engine) : State :=
  { s with engines := s.engines.set e en }

/-- `CAP0` of engine `e` (10_state.md R30). -/
def State.cap0 (s : State) (e : Nat) : Nat := s.params.cap0.getD e 0

/-- Take the oldest Host event off, leaving `rest`. -/
def State.dropEvent (s : State) (rest : List HostEvent) : State := { s with pending := rest }

/-- Take a word off the Host's queue: the command runs on the port it was presented on (30_encoding.md R71). -/
def State.present (s : State) (p : Port) (rest : List HostEvent) : State :=
  { s with pending := rest, port := p }

/-- End the command with a response on its port (30_encoding.md R74). -/
def State.respond (s : State) (r : Response) : State := { s with response := some (s.port, r) }

/-- Refuse the command: respond, change nothing of the block, and mark the run (60_exceptions.md R186). -/
def State.refuse (s : State) (r : Response) : State :=
  { s with response := some (s.port, r), refusalSeen := true }

/-- Refuse the word with `ILLEGAL_COMMAND` (30_encoding.md R73). A port that the configuration does not have answers
nothing (60_exceptions.md R193). -/
def State.rejectIllegal (s : State) : Result :=
  match s.port with
  | .builder => .next (s.refuse .illegalCommand)
  | .engine e =>
    if e < s.engines.length then .next (s.refuse .illegalCommand) else .refused (.noSuchEngine e)

/-- A Builder command: it belongs on the Builder's port (30_encoding.md R73) and runs where `accepts` allows it
(60_exceptions.md R187). -/
def State.onBuilder (s : State) (accepts : TreeState → Bool) (run : Result) : Result :=
  match s.port with
  | .engine _ => s.rejectIllegal
  | .builder => if accepts s.treeState then run else .next (s.refuse .sequenceRefused)

/-- An engine command: it belongs on an engine's port (R73) and runs on that engine where `accepts` allows it (R187). -/
def State.onEngine (s : State) (accepts : TreeState → EngineStatus → Bool)
    (run : Nat → Engine → Result) : Result :=
  match s.port with
  | .builder => s.rejectIllegal
  | .engine e =>
    match s.engines[e]? with
    | none => .refused (.noSuchEngine e)
    | some en => if accepts s.treeState en.status then run e en else .next (s.refuse .sequenceRefused)

/-- The key of an engine's next draw of free values (assumption 4). -/
def nextDraw (key : Config.FreeKey) : Config.FreeKey := { key with draw := key.draw + 1 }

/-- An engine whose registers other than `status` and `fault` are unspecified, and so is every byte of OUT: the free
values of one draw (assumption 4). -/
def Engine.unspecified (key : Config.FreeKey) (st : EngineStatus) (f : Option EngineFault) : Engine :=
  { node := Config.freeNode key, acc := Config.freeAcc key, validBits := Config.freeValidBits key,
    symBits := Config.freeSymBits key, outLen := Config.freeOutLen key, outCap := Config.freeOutCap key,
    status := st, fault := f, out := [], freeKey := key }

/-- Fault entry of an engine command (60_exceptions.md R183): `status <- FAULTED`, `fault <- k`, the response is `k`,
the engine's other registers and its OUT become unspecified, and nothing else changes. -/
def State.raiseEngineFault (s : State) (e : Nat) (en : Engine) (k : EngineFault) : State :=
  (s.setEngine e (Engine.unspecified (nextDraw en.freeKey) .faulted (some k))).respond k.response

/-- Fault entry of BUILD (60_exceptions.md R184): `tree_state <- BUILD_FAILED`, the response is 0x3, TREE becomes
unspecified, and no engine changes. -/
def State.raisePrefixCodeViolation (s : State) : State :=
  ({ s with treeState := .buildFailed, tree := Config.freeTree s.freeEpoch true } : State).respond
    .prefixCodeViolation

/-- Hardware reset (70_reset_and_hazards.md R210, R211): `tree_state <- UNBUILT` and, in every engine, `status <- IDLE`
and `fault <- 0`; every other register, TREE and OUT become unspecified; the static parameters stay, unless the Host
provides others under the reset (R212 step 1, assumption 3). That those may have another `NENG` is the model's choice:
R212 does not list it (DESIGN CHOICE, assumption 20). So is that `NENG = 0`, outside the range of 00_scope.md R6, is
taken and leaves a block of the Builder alone (DESIGN CHOICE, assumption 22). How long the reset is asserted is open
(R211, assumption 21). -/
def State.hardwareReset (s : State) (newParams : Option Parameters) : State :=
  { s with
    params := newParams.getD s.params
    treeState := .unbuilt
    tree := Config.freeTree (s.freeEpoch + 1) false
    engines := (List.range (newParams.getD s.params).neng).map fun e =>
      Engine.unspecified { epoch := s.freeEpoch + 1, engine := e, draw := 0 } .idle none
    response := none
    freeEpoch := s.freeEpoch + 1 }

/-- `append(v)` (41_engine_ingest.md R126): grow by `CAP0` where the capacity is reached, write at `out_len`, count. -/
def Engine.append (cap0 : Nat) (v : Byte) (en : Engine) : Engine :=
  { en with
    outCap := if en.outLen = en.outCap then en.outCap + cap0 else en.outCap
    out := Memory.write en.out en.outLen v
    outLen := en.outLen + 1 }

/-- A symbol is complete: append its byte, `node <- 0`, `sym_bits <- valid_bits` (41_engine_ingest.md R123,
42_engine_finish.md R141). -/
def Engine.emit (cap0 : Nat) (sym : Symbol) (en : Engine) : Engine :=
  { en.append cap0 (outputByte sym) with node := 0, symBits := en.validBits.setWidth 6 }

/-- `valid_bits <- valid_bits - bits`. -/
def Engine.consume (bits : BitVec 4) (en : Engine) : Engine := { en with validBits := en.validBits - bits }

/-- How a loop of an engine command ends: normally, with a fault of the spec, or on a TREE element that does not
exist. -/
inductive Walk where
  | ok (en : Engine)
  | raise (k : EngineFault)
  | stop (f : Fault)
  deriving DecidableEq, Repr

/-- What an index of OUT reads as that no append has written since OUT was last left unspecified: any value
(93_implementation_defined.md U13, assumption 4). -/
def Engine.unwrittenByte (en : Engine) (i : Nat) : Byte := Config.freeOutByte en.freeKey i

/-- The byte `OUT[i]`: OUT is a total map from naturals to bytes (20_memory.md R56). -/
def Engine.outByte (en : Engine) (i : Nat) : Byte := (Memory.read en.out i).getD (en.unwrittenByte i)

/-- The bytes `OUT[0 .. n-1]`. -/
def Engine.outBytes (en : Engine) (n : Nat) : List Byte := (List.range n).map en.outByte

/-- The decode result the Host reads from engine `e`: `OUT[0 .. out_len-1]`, in `DONE` only (20_memory.md R62). `none`
where the spec gives what it reads no value. -/
def State.hostOutput (s : State) (e : Nat) : Option (List Byte) :=
  match s.engines[e]? with
  | some en => if en.status = .done then some (en.outBytes en.outLen) else none
  | none => none

/-- The byte `OUT[i]` as the Host reads it from engine `e` in `DONE`, at every index (20_memory.md R56, R62): at or beyond
`out_len` it is a free value (41_engine_ingest.md R121). `none` in a status other than `DONE`, where what is read is
unspecified. -/
def State.hostOutByte (s : State) (e i : Nat) : Option Byte :=
  match s.engines[e]? with
  | some en => if en.status = .done then some (en.outByte i) else none
  | none => none

/-- The port `OUT_LEN` of engine `e` (10_state.md R30); `none` where its value is unspecified (20_memory.md R62). -/
def State.hostOutLen (s : State) (e : Nat) : Option Nat :=
  match s.engines[e]? with
  | some en => if en.status = .done then some en.outLen else none
  | none => none

/-- The port `OUT_CAP` of engine `e` (10_state.md R30); `none` where its value is unspecified: before the first RESET
and after a fault (60_exceptions.md R183). -/
def State.hostOutCap (s : State) (e : Nat) : Option Nat :=
  match s.engines[e]? with
  | some en => if en.status = .active ∨ en.status = .done then some en.outCap else none
  | none => none

/-- The port `ESTAT[5:0]` of engine `e` (10_state.md R30). -/
def State.hostEstat (s : State) (e : Nat) : Option (BitVec 6) := (s.engines[e]?).map Engine.estat

end Sys2Proof.Machine
end

