-- ==== Sys2Proof/Machine/Builder.lean ====
section
/-! DEFINITION. BUILD, the Tree Builder (40_tree_builder.md R100 to R106). -/

namespace Sys2Proof.Machine

/-- Why an insertion ends: the fault of R106, or a TREE element that does not exist. -/
inductive BuildStop where
  | violation
  | stop (f : Fault)
  deriving DecidableEq, Repr

/-- `new_internal()`: the next index, with 256 `NONE` slots (R103, 30_encoding.md R84). -/
def Tree.newInternal (t : Tree) : Tree × Nat := (t ++ [.internal []], t.length)

/-- `new_terminal(sym, rem)`: the next index, with `bits = rem`, 1..8 (R103). -/
def Tree.newTerminal (t : Tree) (sym : Symbol) (rem : Nat) : Tree × Nat :=
  (t ++ [.terminal sym (Fin.ofNat 8 (rem - 1))], t.length)

/-- The full-byte steps of one entry (R103): while `rem > 8`, go down one slot, making an internal node where it is
empty; a terminal met on the way is a violation. The first argument bounds the steps; `rem` falls by 8 in each, so
`rem` is enough. Answers the tree, the node reached and the bits that remain. -/
def descend (code : BitVec 32) : Nat → Nat → Tree → Nat → Except BuildStop (Tree × Nat × Nat)
  | 0, rem, t, cur => .ok (t, cur, rem)
  | steps + 1, rem, t, cur =>
    if 8 < rem then
      match Tree.child t cur (descentSlot code (rem - 8)) with
      | .error f => .error (.stop f)
      | .ok none =>
        match Tree.writeChild (Tree.newInternal t).1 cur (descentSlot code (rem - 8)) (Tree.newInternal t).2 with
        | .error f => .error (.stop f)
        | .ok t' => descend code steps (rem - 8) t' (Tree.newInternal t).2
      | .ok (some c) =>
        match Tree.header t c with
        | .error f => .error (.stop f)
        | .ok h => if h.kind = .terminal then .error .violation else descend code steps (rem - 8) t c
    else .ok (t, cur, rem)

/-- The test of the final step: every slot of the fan-out must be empty (R103, R105 test (b)). -/
def checkEmpty (t : Tree) (cur : Nat) : List Byte → Except BuildStop Unit
  | [] => .ok ()
  | s :: rest =>
    match Tree.child t cur s with
    | .error f => .error (.stop f)
    | .ok (some _) => .error .violation
    | .ok none => checkEmpty t cur rest

/-- The writes of the final step: every slot of the fan-out takes the one terminal (R103, R104). -/
def writeSlots (cur c : Nat) : List Byte → Tree → Except BuildStop Tree
  | [], t => .ok t
  | s :: rest, t =>
    match Tree.writeChild t cur s c with
    | .error f => .error (.stop f)
    | .ok t' => writeSlots cur c rest t'

/-- The final step of one entry, `rem` in 1..8 (R103). -/
def placeTerminal (x : TableEntry) (t : Tree) (cur rem : Nat) : Except BuildStop Tree :=
  match checkEmpty t cur (fanOutSlots x.code rem) with
  | .error b => .error b
  | .ok () => writeSlots cur (Tree.newTerminal t x.symbol rem).2 (fanOutSlots x.code rem) (Tree.newTerminal t x.symbol rem).1

/-- Insert one entry, from the root (R103, R104). -/
def insertEntry (x : TableEntry) (t : Tree) : Except BuildStop Tree :=
  match descend x.code x.length.toNat x.length.toNat t 0 with
  | .error b => .error b
  | .ok (t', cur, rem) => placeTerminal x t' cur rem

/-- Insert the entries in table order, ending at the first that fails (R103, R106). -/
def insertAll : List TableEntry → Tree → Except BuildStop Tree
  | [], t => .ok t
  | x :: rest, t =>
    match insertEntry x t with
    | .error b => .error b
    | .ok t' => insertAll rest t'

/-- The Decode Tree of a table, from "one internal root" (R102, R103). -/
def buildTree (table : List TableEntry) : Except BuildStop Tree :=
  insertAll table (Tree.newInternal []).1

/-- BUILD succeeds: the tree is written and, last, `tree_state <- BUILT`; the response is `OK` (R100). -/
def State.finishBuild (s : State) (t : Tree) : State :=
  ({ s with tree := t, treeState := .built } : State).respond .ok

/-- `BUILD` (R100 to R106). A table that is not well-formed is refused by the model (30_encoding.md R77). -/
def execBuild (s : State) : Result :=
  s.onBuilder acceptsBuild <|
    match failedTableCheck s.params with
    | some check => .refused (.illFormedTable check)
    | none =>
      match buildTree s.params.table with
      | .ok t => .next (s.finishBuild t)
      | .error .violation => .next s.raisePrefixCodeViolation
      | .error (.stop f) => .fault f

end Sys2Proof.Machine
end

