-- ==== Sys2Proof/Machine/Engine.lean ====
section
/-! DEFINITION. RESET and INGEST of a Decode Engine (41_engine_ingest.md R120 to R130). -/

namespace Sys2Proof.Machine

/-- The registers RESET leaves (R120). Every OUT byte is unspecified afterwards: a new draw of free
values (R121). -/
def Engine.restart (cap0 : Nat) (en : Engine) : Engine :=
  { node := 0, acc := 0#16, validBits := 0#4, symBits := 0#6, outLen := 0, outCap := cap0,
    status := .active, fault := none, out := [], freeKey := nextDraw en.freeKey }

/-- `RESET` (R120 to R122), which is also the only way out of `FAULTED` and `DONE` (60_exceptions.md R190). An engine
with `CAP0 = 0` is no legal configuration (R127). -/
def execReset (s : State) : Result :=
  s.onEngine acceptsReset fun e en =>
    if s.cap0 e = 0 then .refused (.zeroCapacity e)
    else .next ((s.setEngine e (en.restart (s.cap0 e))).respond .ok)

/-- Step 1 of INGEST: `acc <- ((acc << 8) | b) mod 2^16`, and 8 more bits in both counters (R123). -/
def Engine.shiftIn (b : Byte) (en : Engine) : Engine :=
  { en with
    acc := (en.acc <<< 8) ||| b.setWidth 16
    validBits := en.validBits + 8#4
    symBits := en.symBits + 8#6 }

/-- Steps 2 and 3 of INGEST (R123): lookups while `valid_bits >= 8`. The first argument bounds the passes: 8 are enough
(R130). -/
def ingestLoop (t : Tree) (eos : Symbol) (cap0 : Nat) : Nat → Engine → Walk
  | 0, en => .ok en
  | passes + 1, en =>
    if 8 ≤ en.validBits.toNat then
      match Tree.lookup t en.node (ingestSlot en) with
      | .error f => .stop f
      | .ok .empty => .raise .emptySlot
      | .ok (.node c h) =>
        match h.kind with
        | .terminal =>
          if h.symbol = eos then .raise .eosDecoded
          else ingestLoop t eos cap0 passes ((en.consume h.bits).emit cap0 h.symbol)
        | .internal => ingestLoop t eos cap0 passes { en.consume h.bits with node := c }
    else .ok en

/-- `INGEST b` (R123 to R130). -/
def execIngest (b : Byte) (s : State) : Result :=
  s.onEngine acceptsIngest fun e en =>
    match ingestLoop s.tree s.params.eosSym (s.cap0 e) 8 (en.shiftIn b) with
    | .ok en' => .next ((s.setEngine e en').respond .ok)
    | .raise k => .next (s.raiseEngineFault e en k)
    | .stop f => .fault f

end Sys2Proof.Machine
end

