-- ==== Sys2Proof/Machine/Finish.lean ====
section
/-! DEFINITION. FINISH of a Decode Engine, with the Padding Validator (42_engine_finish.md R140 to R147). -/

namespace Sys2Proof.Machine

/-- Step 1 of FINISH (R141): complete symbols while one fits in the remaining bits. An empty slot, an internal node and
a terminal that does not fit end the loop with `node` unmoved (R142). The first argument bounds the passes: each takes
at least one bit, so `valid_bits` is enough. -/
def finishLoop (t : Tree) (eos : Symbol) (cap0 : Nat) : Nat → Engine → Walk
  | 0, en => .ok en
  | passes + 1, en =>
    if 0 < en.validBits.toNat then
      match Tree.lookup t en.node (finishSlot en) with
      | .error f => .stop f
      | .ok .empty => .ok en
      | .ok (.node _ h) =>
        if h.kind = .terminal ∧ h.bits.toNat ≤ en.validBits.toNat then
          if h.symbol = eos then .raise .eosDecoded
          else finishLoop t eos cap0 passes ((en.consume h.bits).emit cap0 h.symbol)
        else .ok en
    else .ok en

/-- `status <- DONE` (R141 step 3). -/
def Engine.complete (en : Engine) : Engine := { en with status := .done }

/-- `FINISH` (R140 to R147): the loop, then the Padding Validator (R143). -/
def execFinish (s : State) : Result :=
  s.onEngine acceptsFinish fun e en =>
    match finishLoop s.tree s.params.eosSym (s.cap0 e) en.validBits.toNat en with
    | .ok en' =>
      if paddingValid en' then .next ((s.setEngine e en'.complete).respond .ok)
      else .next (s.raiseEngineFault e en .invalidPadding)
    | .raise k => .next (s.raiseEngineFault e en k)
    | .stop f => .fault f

end Sys2Proof.Machine
end

