-- ==== Sys2Proof/Machine/Dispatch.lean ====
section
/-! DEFINITION. The meaning of each command, one arm for each. -/

namespace Sys2Proof.Machine

def exec (i : Instr) (s : State) : Host.Outcome State Fault Refusal :=
  match i with
  | .build => Sys2Proof.Machine.execBuild s
  | .reset => Sys2Proof.Machine.execReset s
  | .ingest b => Sys2Proof.Machine.execIngest b s
  | .finish => Sys2Proof.Machine.execFinish s

end Sys2Proof.Machine
end

