-- ==== Sys2Proof/Machine/Step.lean ====
section
/-! DEFINITION. One step of the block: it takes the Host's oldest event (10_state.md R21, 20_memory.md R58). The block
fetches nothing itself; a command reaches it on a port. -/

namespace Sys2Proof.Machine

/-- One step. A command word runs on its port, an illegal word is refused (30_encoding.md R73), a hardware reset resets,
as one whole step between two commands (R211 leaves its form and length open: DESIGN CHOICE, assumption 21).
With no event the block waits for the Host and nothing changes (60_exceptions.md R191, assumption 6). -/
def step (s : State) : Host.Outcome State Fault Refusal :=
  match s.pending with
  | [] => .next s
  | .hardwareReset newParams :: rest => .next ((s.dropEvent rest).hardwareReset newParams)
  | .command p w :: rest =>
    match decode w with
    | .ok i => exec i (s.present p rest)
    | .error _ => (s.present p rest).rejectIllegal

/-- `s` with the word presented next, on the port its assembler line goes to (30_encoding.md R85). -/
def State.withFetchWord (s : State) (nbits w : Nat) : State :=
  { s with
    pending := .command (wordPort (BitVec.ofNat 16 (w % 2 ^ nbits))) (BitVec.ofNat 16 (w % 2 ^ nbits)) :: s.pending }

end Sys2Proof.Machine
end

