-- ==== Sys2Proof/Machine/DecodeSequence.lean ====
section
/-! DEFINITION. The pseudo-command `DECODE` (30_encoding.md R86, 43_decode_sequence.md R161): a procedure of the Host,
made of command words and their responses. -/

namespace Sys2Proof.Machine

/-- The Host presents one command on a port and the block runs it. -/
def issue (p : Port) (i : Instr) (s : State) : Result :=
  step { s with pending := .command p (encode i) :: s.pending }

/-- The response the Host has last received (30_encoding.md R74). -/
def State.lastResponse (s : State) : Option Response := s.response.map Prod.snd

/-- Present the commands in order, ending after the first whose response is not `OK` (R86). -/
def issueAll (p : Port) : List Instr → State → Result
  | [], s => .next s
  | i :: rest, s =>
    match issue p i s with
    | .next t => if t.lastResponse = some .ok then issueAll p rest t else .next t
    | .fault f => .fault f
    | .refused r => .refused r

/-- The commands `DECODE n, b_0 .. b_(n-1)` stands for (R86). -/
def decodeCommands (bytes : List Byte) : List Instr :=
  [.reset] ++ bytes.map .ingest ++ [.finish]

/-- `DECODE` of the bytes on engine `e` (R161). -/
def decodeLiteral (e : Nat) (bytes : List Byte) (s : State) : Result :=
  issueAll (.engine e) (decodeCommands bytes) s

/-- What `DECODE` answers: the decoded bytes, or the response it ended at (R161). -/
inductive DecodeResult where
  | output (bytes : List Byte)
  | failed (r : Response)
  deriving DecidableEq, Repr

/-- The answer of `DECODE` on engine `e`, read from the state it ends in; `none` in a state that no DECODE ends in. -/
def State.decodeResult (s : State) (e : Nat) : Option DecodeResult :=
  match s.lastResponse with
  | some .ok => (s.hostOutput e).map .output
  | some r => some (.failed r)
  | none => none

end Sys2Proof.Machine
end

