-- ==== Sys2Proof/Machine/Reference.lean ====
section
/-! DEFINITION. The spec's description of codes and of a whole decode that uses no tree: prefix-freeness
(40_tree_builder.md R105), the properties of a table (30_encoding.md R78), the encoding of a symbol sequence (R81), and the
reference semantics of `DECODE` (43_decode_sequence.md R164). Claims compare the machine with it; the machine does not
use it. -/

namespace Sys2Proof.Machine

/-- The bits of a code, in stream order (20_memory.md R51). -/
def codeBits (x : TableEntry) : List Bool :=
  (List.range x.length.toNat).map fun i => x.code.getLsbD (x.length.toNat - 1 - i)

/-- The bits of a byte, in stream order: bit 7 first (20_memory.md R50). -/
def byteBits (b : Byte) : List Bool := (List.range 8).map fun i => b.getLsbD (7 - i)

/-- The compressed bit stream of a byte sequence (20_memory.md R50). -/
def streamBits (bytes : List Byte) : List Bool := bytes.flatMap byteBits

/-- The table is prefix-free: no entry's code is a prefix of another entry's code, equal codes included (40_tree_builder.md
R105). -/
def prefixFree (table : List TableEntry) : Prop :=
  table.Pairwise fun x y => ¬ codeBits x <+: codeBits y ∧ ¬ codeBits y <+: codeBits x

/-- `P_eos_ones`: the EOS code is all 1 bits (30_encoding.md R78). -/
def eosAllOnes (p : Parameters) : Prop :=
  ∀ x ∈ p.table, x.symbol = p.eosSym → ∀ b ∈ codeBits x, b = true

/-- `P_eos_long`: the EOS `length` is at least 8 (R78). -/
def eosLong (p : Parameters) : Prop := ∀ x ∈ p.table, x.symbol = p.eosSym → 8 ≤ x.length.toNat

/-- `P_complete`: the sum over the entries of `2^-length` is 1, here times `2^32` (R78). -/
def codeComplete (table : List TableEntry) : Prop :=
  (table.map fun x => 2 ^ (32 - x.length.toNat)).sum = 2 ^ 32

/-- The number of padding bits that fill the last byte of `n` code bits: `(-n) mod 8` (R81). -/
def padCount (n : Nat) : Nat := (8 - n % 8) % 8

/-- The byte whose bits, in stream order, are the first 8 of a bit string. -/
def byteOfBits (bits : List Bool) : Byte :=
  BitVec.ofNat 8 ((bits.take 8).foldl (fun n b => 2 * n + b.toNat) 0)

/-- A bit string cut into bytes, most significant bit first (R81). The first argument is the number of bytes. -/
def cutBytes : Nat → List Bool → List Byte
  | 0, _ => []
  | n + 1, bits => byteOfBits bits :: cutBytes n (bits.drop 8)

/-- `encode(s_1 .. s_k)`: the codes in order, then one-bits to the next byte boundary (R81). -/
def encodeSymbols (entries : List TableEntry) : List Byte :=
  let bits := entries.flatMap codeBits
  cutBytes ((bits.length + padCount bits.length) / 8) (bits ++ List.replicate (padCount bits.length) true)

/-- The entry whose code begins the bit string (R164: "at most one exists, the table being prefix-free"). -/
def entryAt (table : List TableEntry) (bits : List Bool) : Option TableEntry :=
  table.find? fun x => (codeBits x).isPrefixOf bits

/-- Some code begins with the bit string. -/
def beginsCode (table : List TableEntry) (bits : List Bool) : Bool :=
  table.any fun x => bits.isPrefixOf (codeBits x)

/-- How many of the first `n` bits still begin a code: the largest such number. -/
def agreement (table : List TableEntry) (bits : List Bool) : Nat → Nat
  | 0 => 0
  | n + 1 => if beginsCode table (bits.take (n + 1)) then n + 1 else agreement table bits n

/-- The padding rule on the remaining bits: at most 7, all 1 (42_engine_finish.md R143). -/
def paddingBits (bits : List Bool) : Bool := decide (bits.length ≤ 7) && bits.all id

/-- The outcome when no further code is complete and `bits` remain (R164). Where they begin no code, the tree is left in
the lookup that holds the first bit past their agreement with the codes; INGEST performs that lookup when all its 8 bits
are there. -/
def judgeRemainder (table : List TableEntry) (bits : List Bool) (out : List Byte) : DecodeResult :=
  if beginsCode table bits = false ∧ bits ≠ [] ∧
      8 * (agreement table bits bits.length / 8) + 8 ≤ bits.length then .failed .emptySlot
  else if paddingBits bits then .output out
  else .failed .invalidPadding

/-- The reference semantics of `DECODE` on a bit string (R164). The first argument bounds the symbols: each takes at
least one bit. -/
def referenceBits (p : Parameters) : Nat → List Bool → List Byte → DecodeResult
  | 0, bits, out => judgeRemainder p.table bits out
  | n + 1, bits, out =>
    match entryAt p.table bits with
    | none => judgeRemainder p.table bits out
    | some x =>
      if x.symbol = p.eosSym then .failed .eosDecoded
      else referenceBits p n (bits.drop x.length.toNat) (out ++ [outputByte x.symbol])

/-- The reference semantics of `DECODE` on bytes (R164). -/
def referenceDecode (p : Parameters) (bytes : List Byte) : DecodeResult :=
  referenceBits p (8 * bytes.length) (streamBits bytes) []

end Sys2Proof.Machine
end

