-- ==== Sys2Proof/Safety.lean ====
section
/-! DEFINITION. What the claims are stated in: the invariant of the block (10_state.md R21 to R28), one pass of each
loop of the engine written out register by register (41_engine_ingest.md R123, 42_engine_finish.md R141), fault entry
(60_exceptions.md R183), and walking the tree by a path of bytes (40_tree_builder.md R107). -/

namespace Sys2Proof.Safety

open Sys2Proof.Machine

/-- A run that holds no refused command: the spec gives no guarantee about any other (60_exceptions.md R186). -/
def withinSpec (s : State) : Prop := s.refusalSeen = false

/-- The configuration has the port. -/
def portExists (s : State) : Port → Prop
  | .builder => True
  | .engine e => e < s.engines.length

/-- Node `n` is internal. -/
def isInternal (t : Tree) (n : Nat) : Prop := ∃ slots, t[n]? = some (.internal slots)

/-- Node `n` is internal and `d` levels below the root (10_state.md R22, R25). -/
def atDepth (t : Tree) : Nat → Nat → Prop
  | 0, n => n = 0 ∧ isInternal t n
  | d + 1, n => isInternal t n ∧ ∃ m s, atDepth t d m ∧ Tree.child t m s = .ok (some n)

/-- The internal node that a path of slots leads to from node `n`. -/
def walkFrom (t : Tree) : Nat → List Byte → Option Nat
  | n, [] =>
    match t[n]? with
    | some (.internal _) => some n
    | _ => none
  | n, s :: path =>
    match Tree.child t n s with
    | .ok (some c) => walkFrom t c path
    | _ => none

/-- The internal node that a path of slots leads to from the root. -/
def walk (t : Tree) (path : List Byte) : Option Nat := walkFrom t 0 path

/-- `CAP0 * max(1, ceil(n / CAP0))` (41_engine_ingest.md R127). -/
def grownCapacity (cap0 n : Nat) : Nat := cap0 * max 1 ((n + cap0 - 1) / cap0)

/-- The output buffer: `CAP0 >= 1`, the capacity follows the growth law, and OUT holds the bytes below `out_len` and no
other (41_engine_ingest.md R127, 20_memory.md R55). -/
structure BufferOk (cap0 : Nat) (en : Engine) : Prop where
  capacityLegal : 1 ≤ cap0
  capacityLaw : en.outCap = grownCapacity cap0 en.outLen
  listed : ∀ i, (Memory.read en.out i).isSome = true ↔ i < en.outLen

/-- An engine with a decode in flight, between commands: `valid_bits <= 7` (10_state.md R24), `node` is internal at a
depth of at most 3 (R21, R22), and `sym_bits = valid_bits + 8 * depth(node)` (R25). -/
structure LiveOk (t : Tree) (cap0 : Nat) (en : Engine) : Prop where
  buffer : BufferOk cap0 en
  validBits : en.validBits.toNat ≤ 7
  cursor : ∃ d, d ≤ 3 ∧ atDepth t d en.node ∧ en.symBits.toNat = en.validBits.toNat + 8 * d

/-- What holds of engine `e` between commands. `ownKey` says that no other engine and no earlier hardware reset shares its
draws of free values (the model's own, assumption 4). -/
structure EngineOk (s : State) (e : Nat) (en : Engine) : Prop where
  outCanonical : Memory.wf en.out = true
  ownKey : en.freeKey.epoch = s.freeEpoch ∧ en.freeKey.engine = e
  faultIffFaulted : en.fault = none ↔ en.status ≠ .faulted
  idleUnlessBuilt : s.treeState ≠ .built → en.status = .idle
  live : en.status = .active → LiveOk s.tree (s.cap0 e) en
  result : en.status = .done → BufferOk (s.cap0 e) en

/-- The invariant of the block between commands: `NENG` engines, a built tree is the tree BUILD makes of a well-formed
table, and every engine is as `EngineOk` says. -/
structure Inv (s : State) : Prop where
  engineCount : s.engines.length = s.params.neng
  treeIsBuilt : s.treeState = .built →
    s.params.tableWellFormed = true ∧ buildTree s.params.table = .ok s.tree
  engineOk : ∀ e en, s.engines[e]? = some en → EngineOk s e en

/-- What 30_encoding.md R77 asks of a table, check by check. -/
structure TableOk (p : Parameters) : Prop where
  wLen : ∀ x ∈ p.table, 1 ≤ x.length.toNat ∧ x.length.toNat ≤ 32
  wCode : ∀ x ∈ p.table, x.code.toNat < 2 ^ x.length.toNat
  wSym : ∀ (i j : Nat) (x y : TableEntry), p.table[i]? = some x → p.table[j]? = some y → x.symbol = y.symbol → i = j
  wEos : ∃ x ∈ p.table, x.symbol = p.eosSym
  wByte : ∀ x ∈ p.table, x.symbol ≠ p.eosSym → x.symbol.toNat ≤ 255
  wNonempty : 1 ≤ p.table.length

/-- The engine after step 1 of INGEST (41_engine_ingest.md R123). -/
def ingested (b : Byte) (en : Engine) : Engine :=
  { en with
    acc := BitVec.ofNat 16 (en.acc.toNat * 256 + b.toNat)
    validBits := BitVec.ofNat 4 (en.validBits.toNat + 8)
    symBits := BitVec.ofNat 6 (en.symBits.toNat + 8) }

/-- The engine after it completed a symbol whose terminal has `bits` bits (R123, R126, R128). -/
def symbolCompleted (cap0 : Nat) (sym : Symbol) (bits : Nat) (en : Engine) : Engine :=
  { en with
    node := 0
    validBits := BitVec.ofNat 4 (en.validBits.toNat - bits)
    symBits := BitVec.ofNat 6 (en.validBits.toNat - bits)
    outCap := if en.outLen = en.outCap then en.outCap + cap0 else en.outCap
    out := Memory.write en.out en.outLen (BitVec.ofNat 8 sym.toNat)
    outLen := en.outLen + 1 }

/-- What the slot that INGEST looks up holds: the top 8 of the valid bits name it (20_memory.md R55). `none` is an empty
slot. -/
def ingestChild (t : Tree) (en : Engine) (child : Option Nat) : Prop :=
  ∃ slots, t[en.node]? = some (.internal slots) ∧
    Memory.read slots (en.acc.toNat / 2 ^ (en.validBits.toNat - 8) % 256) = child

/-- What the slot that FINISH looks up holds: the remaining bits, left-justified, name it (20_memory.md R55). -/
def finishChild (t : Tree) (en : Engine) (child : Option Nat) : Prop :=
  ∃ slots, t[en.node]? = some (.internal slots) ∧
    Memory.read slots (en.acc.toNat * 2 ^ (8 - en.validBits.toNat) % 256) = child

/-- One pass of INGEST's loop that ends neither the loop nor the command (R123). -/
inductive IngestPass (t : Tree) (eos : Symbol) (cap0 : Nat) : Engine → Engine → Prop where
  | symbol (en : Engine) (c : Nat) (sym : Symbol) (k : Fin 8) :
      8 ≤ en.validBits.toNat → ingestChild t en (some c) → t[c]? = some (.terminal sym k) → sym ≠ eos →
      IngestPass t eos cap0 en (symbolCompleted cap0 sym (k.val + 1) en)
  | descend (en : Engine) (c : Nat) :
      8 ≤ en.validBits.toNat → ingestChild t en (some c) → isInternal t c →
      IngestPass t eos cap0 en
        { en with node := c, validBits := BitVec.ofNat 4 (en.validBits.toNat - 8) }

/-- Any number of passes of INGEST's loop. -/
def IngestPasses (t : Tree) (eos : Symbol) (cap0 : Nat) : Engine → Engine → Prop :=
  Relation.ReflTransGen (IngestPass t eos cap0)

/-- One pass of FINISH's loop that completes a symbol (42_engine_finish.md R141). -/
inductive FinishPass (t : Tree) (eos : Symbol) (cap0 : Nat) : Engine → Engine → Prop where
  | symbol (en : Engine) (c : Nat) (sym : Symbol) (k : Fin 8) :
      finishChild t en (some c) → t[c]? = some (.terminal sym k) → k.val + 1 ≤ en.validBits.toNat → sym ≠ eos →
      FinishPass t eos cap0 en (symbolCompleted cap0 sym (k.val + 1) en)

/-- Any number of passes of FINISH's loop. -/
def FinishPasses (t : Tree) (eos : Symbol) (cap0 : Nat) : Engine → Engine → Prop :=
  Relation.ReflTransGen (FinishPass t eos cap0)

/-- FINISH's loop ends here (R141, R142): no bit remains, or the lookup finds an empty slot, an internal node or a
terminal that needs more bits than remain. -/
def finishStops (t : Tree) (en : Engine) : Prop :=
  en.validBits.toNat = 0 ∨ finishChild t en none ∨
    (∃ c, finishChild t en (some c) ∧ isInternal t c) ∨
    (∃ c sym k, finishChild t en (some c) ∧ t[c]? = some (.terminal sym k) ∧ en.validBits.toNat < k.val + 1)

/-- The slot FINISH would look up if it filled the remaining bits on the right with the low bits of `fill` in place of
zeros (42_engine_finish.md R142 a). -/
def filledSlot (fill : Nat) (en : Engine) : Byte :=
  BitVec.ofNat 8 (en.acc.toNat * 2 ^ (8 - en.validBits.toNat) + fill % 2 ^ (8 - en.validBits.toNat))

/-- Step 1 of FINISH (R141) with fill bits of any choice, which may differ from lookup to lookup. -/
def finishLoopFilled (fill : Engine → Nat) (t : Tree) (eos : Symbol) (cap0 : Nat) : Nat → Engine → Walk
  | 0, en => .ok en
  | passes + 1, en =>
    if en.validBits.toNat = 0 then .ok en
    else
      match Tree.lookup t en.node (filledSlot (fill en) en) with
      | .error f => .stop f
      | .ok .empty => .ok en
      | .ok (.node _ h) =>
        if h.kind = .terminal ∧ h.bits.toNat ≤ en.validBits.toNat then
          if h.symbol = eos then .raise .eosDecoded
          else finishLoopFilled fill t eos cap0 passes (symbolCompleted cap0 h.symbol h.bits.toNat en)
        else .ok en

/-- Engine `e` of `s` is `en` and the command is presented on its port. -/
def addressed (s : State) (e : Nat) (en : Engine) : Prop := s.port = .engine e ∧ s.engines[e]? = some en

/-- The command has set engine `e` to `en` and answered `r`, and has changed nothing else. -/
def answered (s : State) (e : Nat) (en : Engine) (r : Response) : State :=
  { s with engines := s.engines.set e en, response := some (.engine e, r) }

/-- Fault entry (60_exceptions.md R183): `t` is `s` with engine `e` `FAULTED` with the fault's code, its other registers
and OUT being whatever they are, and the fault's code answered. -/
def faultEntered (s : State) (e : Nat) (k : EngineFault) (r : Response) (t : State) : Prop :=
  ∃ en, en.status = .faulted ∧ en.fault = some k ∧ t = answered s e en r

/-- FINISH of engine `en`, at `e`, with fill bits of any choice (R141, R142 a): completed, or the fault its loop or the
padding rule raises. -/
def finishFilled (fill : Engine → Nat) (s : State) (e : Nat) (en : Engine) : Result :=
  match finishLoopFilled fill s.tree s.params.eosSym (s.cap0 e) en.validBits.toNat en with
  | .ok en' =>
    if paddingValid en' then .next (answered s e { en' with status := .done } .ok)
    else .next (s.raiseEngineFault e en .invalidPadding)
  | .raise k => .next (s.raiseEngineFault e en k)
  | .stop f => .fault f

/-- A refused command: only the response and the mark of the run change (60_exceptions.md R186). The mark is the form the
model gives to "gives the run no meaning and marks it" (93_implementation_defined.md U15, U16; assumption 5). -/
def refusedWith (s : State) (r : Response) : State :=
  { s with response := some (s.port, r), refusalSeen := true }

end Sys2Proof.Safety
end

