-- ==== Sys2Proof/Certificates/Slice0/Obligations.lean ====
section
/-! DEFINITION. The statements for the provers, in the order of OBLIGATIONS.json. -/

open Sys2Proof Sys2Proof.Machine Sys2Proof.Safety

/-! ## Encodings -/

/-- Words written out bit by bit from the encodings of 30_encoding.md R71, and three of the illegal words of
95_test_vectors.md section 6. -/
def Obligations.WrittenWordsDecode : Prop :=
  decode 0b0000000100000000#16 = .ok .build ∧
  decode 0b0000001000000000#16 = .ok .reset ∧
  decode 0b0000001101011100#16 = .ok (.ingest 0x5C#8) ∧
  decode 0b0000001111111111#16 = .ok (.ingest 0xFF#8) ∧
  decode 0b0000010000000000#16 = .ok .finish ∧
  decode 0x0000#16 = .error (.unknownOpcode 0x00#8) ∧
  decode 0x0500#16 = .error (.unknownOpcode 0x05#8) ∧
  decode 0x0201#16 = .error (.nonzeroArgument 0x02#8 0x01#8)

/-- Decoding and encoding agree on every command with every operand, and the legal words are exactly those of
30_encoding.md R71 (`op = w / 256`, `arg = w % 256`). -/
def Obligations.DecodeAndEncodeAgree : Prop :=
  (∀ i : Instr, i.wellFormed = true → decode (encode i) = .ok i) ∧
  (∀ (w : CmdWord) (i : Instr), decode w = .ok i → encode i = w) ∧
  (∀ w : CmdWord, (∃ i, decode w = .ok i) ↔
    w.toNat / 256 = 3 ∨ ((w.toNat / 256 = 1 ∨ w.toNat / 256 = 2 ∨ w.toNat / 256 = 4) ∧ w.toNat % 256 = 0))

/-- The stored word of a Code Table entry (30_encoding.md R76), and that no other word holds the entry. -/
def Obligations.TableEntryWordLayout : Prop :=
  ∀ x : TableEntry,
    (packEntry x).toNat = x.code.toNat + x.length.toNat * 2 ^ 32 + x.symbol.toNat * 2 ^ 38 ∧
    unpackEntry (packEntry x) = some x ∧
    ∀ w, unpackEntry w = some x → packEntry x = w

/-- The codes of the status, fault, tree-state and response values, and the fields of the ports TSTAT and ESTAT
(10_state.md R27 to R30, 30_encoding.md R74). -/
def Obligations.StatusPortEncodings : Prop :=
  (∀ s : State, (s.tstat = 0#2 ↔ s.treeState = .unbuilt) ∧ (s.tstat = 1#2 ↔ s.treeState = .built) ∧
    (s.tstat = 2#2 ↔ s.treeState = .buildFailed)) ∧
  (∀ en : Engine,
    (en.estat.toNat % 4 = 0 ↔ en.status = .idle) ∧ (en.estat.toNat % 4 = 1 ↔ en.status = .active) ∧
    (en.estat.toNat % 4 = 2 ↔ en.status = .done) ∧ (en.estat.toNat % 4 = 3 ↔ en.status = .faulted) ∧
    (en.estat.toNat / 4 = 0 ↔ en.fault = none) ∧ (en.estat.toNat / 4 = 1 ↔ en.fault = some .eosDecoded) ∧
    (en.estat.toNat / 4 = 2 ↔ en.fault = some .invalidPadding) ∧
    (en.estat.toNat / 4 = 4 ↔ en.fault = some .emptySlot)) ∧
  Response.code .ok = 0x0#4 ∧ Response.code .eosDecoded = 0x1#4 ∧ Response.code .invalidPadding = 0x2#4 ∧
  Response.code .prefixCodeViolation = 0x3#4 ∧ Response.code .emptySlot = 0x4#4 ∧
  Response.code .sequenceRefused = 0xE#4 ∧ Response.code .illegalCommand = 0xF#4

/-! ## Steps, resets and refusals -/

/-- A step runs the decoded command on the port it was presented on. -/
def Obligations.StepRunsPresentedCommand : Prop :=
  ∀ (s : State) (p : Port) (w : CmdWord) (rest : List HostEvent) (i : Instr),
    s.pending = .command p w :: rest → decode w = .ok i →
    step s = exec i { s with pending := rest, port := p }

/-- The block as it is delivered: the values hardware reset gives (10_state.md R33). One engine and
`EOS_SYM` 256 are the defaults of 00_scope.md R6, taken by the model's choice (assumption 2); that nothing is pending is the
model's too (assumption 10). -/
def Obligations.PowerUpState : Prop :=
  State.reset.treeState = .unbuilt ∧ State.reset.engines.length = 1 ∧
  (∀ en ∈ State.reset.engines, en.status = .idle ∧ en.fault = none) ∧
  State.reset.params.eosSym = 256#9 ∧ State.reset.params.neng = 1 ∧ State.reset.pending = []

/-- Hardware reset (70_reset_and_hazards.md R210): the Builder `UNBUILT`, every one of the `NENG` engines `IDLE` with
`fault` 0. The static parameters stay; where the Host provides others under the reset they are those (the model's
reading of R212, assumption 3), and `NENG` is then theirs too (the model's choice, assumption 20). -/
def Obligations.HardwareResetEvent : Prop :=
  ∀ (s : State) (q : Option Parameters) (rest : List HostEvent), s.pending = .hardwareReset q :: rest →
    ∃ t, step s = .next t ∧ t.treeState = .unbuilt ∧ t.engines.length = t.params.neng ∧
      (∀ en ∈ t.engines, en.status = .idle ∧ en.fault = none) ∧
      (q = none → t.params = s.params) ∧ (∀ r, q = some r → t.params = r) ∧ t.pending = rest

/-- Illegal words, and words on the wrong agent's port, are refused with `ILLEGAL_COMMAND` and change nothing; no other
word is (30_encoding.md R73). -/
def Obligations.IllegalCommandsRefused : Prop :=
  ∀ (s : State) (p : Port) (w : CmdWord) (rest : List HostEvent),
    s.pending = .command p w :: rest → portExists s p →
    let op := w.toNat / 256
    let arg := w.toNat % 256
    let illegal := (op ≠ 1 ∧ op ≠ 2 ∧ op ≠ 3 ∧ op ≠ 4) ∨ ((op = 1 ∨ op = 2 ∨ op = 4) ∧ arg ≠ 0) ∨
      (op = 1 ∧ p ≠ .builder) ∨ ((op = 2 ∨ op = 3 ∨ op = 4) ∧ p = .builder)
    (illegal → step s = .next (refusedWith { s with pending := rest, port := p } .illegalCommand)) ∧
    (¬ illegal → ∀ t, step s = .next t → t.response ≠ some (p, .illegalCommand))

/-- A word on the port of an engine that the configuration does not have is refused by the model (60_exceptions.md R193
numbers the engines `0 <= e < NENG`). The refusal is the model's choice, assumption 7. -/
def Obligations.AbsentEngineRefused : Prop :=
  ∀ (s : State) (e : Nat) (w : CmdWord) (rest : List HostEvent),
    s.pending = .command (.engine e) w :: rest → s.engines.length ≤ e →
    step s = .refused (.noSuchEngine e)

/-- The acceptance table (60_exceptions.md R187). -/
def Obligations.AcceptanceTable : Prop :=
  ∀ s : State,
    (s.port = .builder →
      (s.treeState ≠ .unbuilt → exec .build s = .next (refusedWith s .sequenceRefused)) ∧
      (s.treeState = .unbuilt → ∀ t, exec .build s = .next t → t.response ≠ some (.builder, .sequenceRefused))) ∧
    (∀ e en, addressed s e en →
      (s.treeState ≠ .built → exec .reset s = .next (refusedWith s .sequenceRefused)) ∧
      (s.treeState = .built → ∀ t, exec .reset s = .next t → t.response ≠ some (.engine e, .sequenceRefused)) ∧
      ∀ i, (i = .finish ∨ ∃ b, i = .ingest b) →
        (¬ (s.treeState = .built ∧ en.status = .active) →
          exec i s = .next (refusedWith s .sequenceRefused)) ∧
        (s.treeState = .built → en.status = .active →
          ∀ t, exec i s = .next t → t.response ≠ some (.engine e, .sequenceRefused)))

/-- A refused command changes no state of the block (60_exceptions.md R186): only the response, the mark of the run, the
Host's queue and the port latch of the model differ. -/
def Obligations.RefusedCommandChangesNothing : Prop :=
  ∀ (s t : State) (p : Port) (w : CmdWord) (rest : List HostEvent) (r : Response),
    s.pending = .command p w :: rest → step s = .next t → t.response = some (p, r) →
    r = .sequenceRefused ∨ r = .illegalCommand →
    t = refusedWith { s with pending := rest, port := p } r

/-- The responses each command can give (the rows of spec/opcode_table.json; 30_encoding.md R74): on the wrong agent's
port `ILLEGAL_COMMAND`, on its own agent's port one of its row's. -/
def Obligations.ResponsesOfEachCommand : Prop :=
  ∀ (s t : State),
    (exec .build s = .next t → ∃ r, t.response = some (s.port, r) ∧
      ((s.port ≠ .builder ∧ r = .illegalCommand) ∨
       (s.port = .builder ∧ (r = .ok ∨ r = .prefixCodeViolation ∨ r = .sequenceRefused)))) ∧
    (exec .reset s = .next t → ∃ r, t.response = some (s.port, r) ∧
      ((s.port = .builder ∧ r = .illegalCommand) ∨ (s.port ≠ .builder ∧ (r = .ok ∨ r = .sequenceRefused)))) ∧
    (∀ b, exec (.ingest b) s = .next t → ∃ r, t.response = some (s.port, r) ∧
      ((s.port = .builder ∧ r = .illegalCommand) ∨
       (s.port ≠ .builder ∧ (r = .ok ∨ r = .eosDecoded ∨ r = .emptySlot ∨ r = .sequenceRefused)))) ∧
    (exec .finish s = .next t → ∃ r, t.response = some (s.port, r) ∧
      ((s.port = .builder ∧ r = .illegalCommand) ∨
       (s.port ≠ .builder ∧ (r = .ok ∨ r = .eosDecoded ∨ r = .invalidPadding ∨ r = .sequenceRefused))))

/-! ## BUILD -/

/-- BUILD has a meaning exactly for the tables that pass every check of 30_encoding.md R77. -/
def Obligations.IllFormedTableRefused : Prop :=
  ∀ s : State, s.port = .builder → s.treeState = .unbuilt →
    ((∃ c, exec .build s = .refused (.illFormedTable c)) ↔ ¬ TableOk s.params)

/-- BUILD of a well-formed table succeeds exactly when the table is prefix-free, whatever the order of its entries
(40_tree_builder.md R105); otherwise it enters the fault of R106 as 60_exceptions.md R184 says. Either way nothing but
TREE, `tree_state` and the response changes. -/
def Obligations.BuildSucceedsIffPrefixFree : Prop :=
  ∀ s : State, s.port = .builder → s.treeState = .unbuilt → s.params.tableWellFormed = true →
    (prefixFree s.params.table → ∃ tree, exec .build s =
      .next { s with tree := tree, treeState := .built, response := some (.builder, .ok) }) ∧
    (¬ prefixFree s.params.table → ∃ tree, exec .build s =
      .next { s with tree := tree, treeState := .buildFailed, response := some (.builder, .prefixCodeViolation) })

/-- The tree BUILD makes of a well-formed table holds the table's codes and nothing else (40_tree_builder.md R107, with
the depth bound of 10_state.md R22): the root is internal; internal nodes lie at depths 0 to 3; each entry has one
terminal, in every slot that its last bits begin; every other occupied slot leads to an internal node on the way to a
longer code. -/
def Obligations.TreeHoldsExactlyTheCodes : Prop :=
  ∀ (p : Parameters) (t : Sys2Proof.Tree), p.tableWellFormed = true → buildTree p.table = .ok t →
    walk t [] = some 0 ∧
    (∀ path n, walk t path = some n → path.length ≤ 3) ∧
    (∀ x ∈ p.table, ∃ path n c k, walk t path = some n ∧ path.length = (x.length.toNat - 1) / 8 ∧
      streamBits path <+: codeBits x ∧ t[c]? = some (.terminal x.symbol k) ∧
      k.val + 1 = x.length.toNat - 8 * path.length ∧
      ∀ s : Byte, codeBits x <+: streamBits (path ++ [s]) → Tree.child t n s = .ok (some c)) ∧
    (∀ path n s c, walk t path = some n → Tree.child t n s = .ok (some c) →
      (∃ x ∈ p.table, (∃ k, t[c]? = some (.terminal x.symbol k)) ∧
        path.length = (x.length.toNat - 1) / 8 ∧ codeBits x <+: streamBits (path ++ [s])) ∨
      (isInternal t c ∧ ∃ x ∈ p.table, 8 * (path.length + 1) < x.length.toNat ∧
        streamBits (path ++ [s]) <+: codeBits x))

/-- The size of the tree (40_tree_builder.md R109): one terminal for each entry, and at most `(len-1) div 8` internal
nodes for each, beside the root. -/
def Obligations.BuiltTreeSize : Prop :=
  ∀ (p : Parameters) (t : Sys2Proof.Tree), p.tableWellFormed = true → buildTree p.table = .ok t →
    t.countP (fun n => (Node.header n).kind == .terminal) = p.table.length ∧
    t.countP (fun n => (Node.header n).kind == .internal) ≤
      1 + (p.table.map fun x => (x.length.toNat - 1) / 8).sum ∧
    t.length ≤ 1 + 4 * p.table.length

/-- The frame of BUILD (40_tree_builder.md R100): it changes no engine, no byte of any OUT, and no static parameter. -/
def Obligations.BuildFrame : Prop :=
  ∀ s t : State, exec .build s = .next t →
    t.engines = s.engines ∧ t.params = s.params ∧ t.pending = s.pending ∧ t.port = s.port ∧
    t.freeEpoch = s.freeEpoch ∧ (∀ e a, t.hostOutByte e a = s.hostOutByte e a)

/-! ## RESET -/

/-- RESET (41_engine_ingest.md R120): the eight registers it leaves in the engine of its port, and nothing else changed;
OUT is unspecified afterwards (R121), so it is any. Where the tree is not built it is refused (R122). -/
def Obligations.ResetStartsDecode : Prop :=
  ∀ (s : State) (e : Nat) (en : Engine), addressed s e en →
    (s.treeState = .built → s.cap0 e ≠ 0 → ∃ out key, exec .reset s = .next (answered s e
      { node := 0, acc := 0#16, validBits := 0#4, symBits := 0#6, outLen := 0, outCap := s.cap0 e,
        status := .active, fault := none, out := out, freeKey := key } .ok)) ∧
    (s.treeState ≠ .built → exec .reset s = .next (refusedWith s .sequenceRefused))

/-- `CAP0 = 0` is not a legal configuration (41_engine_ingest.md R127): the model refuses the run at RESET (the place is
the model's choice, assumption 8). -/
def Obligations.ZeroCapacityRefused : Prop :=
  ∀ (s : State) (e : Nat) (en : Engine), addressed s e en → s.treeState = .built → s.cap0 e = 0 →
    exec .reset s = .refused (.zeroCapacity e)

/-! ## INGEST -/

/-- INGEST completes (41_engine_ingest.md R123): where its passes lead to an engine with fewer than 8 valid bits, that
engine is what it leaves, the response is `OK` and nothing else changes. -/
def Obligations.IngestCompletes : Prop :=
  ∀ (s : State) (e : Nat) (en en' : Engine) (b : Byte),
    addressed s e en → s.treeState = .built → en.status = .active →
    IngestPasses s.tree s.params.eosSym (s.cap0 e) (ingested b en) en' → en'.validBits.toNat < 8 →
    exec (.ingest b) s = .next (answered s e en' .ok)

/-- INGEST raises `EMPTY_SLOT` where its passes lead to a lookup of an empty slot (41_engine_ingest.md R129). -/
def Obligations.IngestRaisesEmptySlot : Prop :=
  ∀ (s : State) (e : Nat) (en en' : Engine) (b : Byte),
    addressed s e en → s.treeState = .built → en.status = .active →
    IngestPasses s.tree s.params.eosSym (s.cap0 e) (ingested b en) en' → 8 ≤ en'.validBits.toNat →
    ingestChild s.tree en' none →
    ∃ t, exec (.ingest b) s = .next t ∧ faultEntered s e .emptySlot .emptySlot t

/-- INGEST raises `EOS_DECODED` where its passes lead to a lookup of the EOS symbol's terminal (41_engine_ingest.md
R125). -/
def Obligations.IngestRaisesEosDecoded : Prop :=
  ∀ (s : State) (e : Nat) (en en' : Engine) (b : Byte) (c : Nat) (k : Fin 8),
    addressed s e en → s.treeState = .built → en.status = .active →
    IngestPasses s.tree s.params.eosSym (s.cap0 e) (ingested b en) en' → 8 ≤ en'.validBits.toNat →
    ingestChild s.tree en' (some c) → s.tree[c]? = some (.terminal s.params.eosSym k) →
    ∃ t, exec (.ingest b) s = .next t ∧ faultEntered s e .eosDecoded .eosDecoded t

/-- The frame of a completed INGEST: of the block only the engine of its port changes; that engine keeps `status` and
`fault`, its `acc` takes the byte in, its output grows by at most 8 bytes (41_engine_ingest.md R130), and every byte of
OUT outside those appended reads as before. -/
def Obligations.IngestFrame : Prop :=
  ∀ (s t : State) (e : Nat) (en : Engine) (b : Byte), addressed s e en →
    exec (.ingest b) s = .next t → t.response = some (.engine e, .ok) →
    ∃ en', t = answered s e en' .ok ∧ en'.status = en.status ∧ en'.fault = en.fault ∧
      en'.acc.toNat = (en.acc.toNat * 256 + b.toNat) % 65536 ∧
      en.outLen ≤ en'.outLen ∧ en'.outLen ≤ en.outLen + 8 ∧
      ∀ a, a < en.outLen ∨ en'.outLen ≤ a →
        Memory.read en'.out a = Memory.read en.out a ∧ en'.outByte a = en.outByte a

/-! ## FINISH -/

/-- FINISH completes (42_engine_finish.md R141): where its passes lead to an engine at which the loop stops, with at most
7 bits since the last symbol and all of them 1, that engine becomes `DONE`, the response is `OK` and nothing else
changes. -/
def Obligations.FinishCompletes : Prop :=
  ∀ (s : State) (e : Nat) (en en' : Engine),
    addressed s e en → s.treeState = .built → en.status = .active →
    FinishPasses s.tree s.params.eosSym (s.cap0 e) en en' → finishStops s.tree en' →
    en'.symBits.toNat ≤ 7 → (∀ i, i < en'.symBits.toNat → en'.acc.getLsbD i = true) →
    exec .finish s = .next (answered s e { en' with status := .done } .ok)

/-- The Padding Validator (42_engine_finish.md R143): more than 7 bits since the last symbol, or one of them 0, raises
`INVALID_PADDING`. -/
def Obligations.FinishRaisesInvalidPadding : Prop :=
  ∀ (s : State) (e : Nat) (en en' : Engine),
    addressed s e en → s.treeState = .built → en.status = .active →
    FinishPasses s.tree s.params.eosSym (s.cap0 e) en en' → finishStops s.tree en' →
    7 < en'.symBits.toNat ∨ (∃ i, i < en'.symBits.toNat ∧ en'.acc.getLsbD i = false) →
    ∃ t, exec .finish s = .next t ∧ faultEntered s e .invalidPadding .invalidPadding t

/-- FINISH raises `EOS_DECODED` where its passes lead to a lookup of the EOS symbol's terminal that fits in the
remaining bits, whatever the padding (42_engine_finish.md R145). -/
def Obligations.FinishRaisesEosDecoded : Prop :=
  ∀ (s : State) (e : Nat) (en en' : Engine) (c : Nat) (k : Fin 8),
    addressed s e en → s.treeState = .built → en.status = .active →
    FinishPasses s.tree s.params.eosSym (s.cap0 e) en en' →
    finishChild s.tree en' (some c) → s.tree[c]? = some (.terminal s.params.eosSym k) →
    k.val + 1 ≤ en'.validBits.toNat →
    ∃ t, exec .finish s = .next t ∧ faultEntered s e .eosDecoded .eosDecoded t

/-- The frame of a completed FINISH: of the block only the engine of its port changes; that engine keeps `acc` and
`fault` and becomes `DONE`, its output grows by at most one byte for each bit it held (42_engine_finish.md R146), and
every byte of OUT outside those appended reads as before. -/
def Obligations.FinishFrame : Prop :=
  ∀ (s t : State) (e : Nat) (en : Engine), addressed s e en →
    exec .finish s = .next t → t.response = some (.engine e, .ok) →
    ∃ en', t = answered s e en' .ok ∧ en'.status = .done ∧ en'.fault = en.fault ∧ en'.acc = en.acc ∧
      en.outLen ≤ en'.outLen ∧ en'.outLen ≤ en.outLen + en.validBits.toNat ∧
      ∀ a, a < en.outLen ∨ en'.outLen ≤ a →
        Memory.read en'.out a = Memory.read en.out a ∧ en'.outByte a = en.outByte a

/-- A terminal of the built tree that fits in `v` bits stands in every slot that begins with those bits
(40_tree_builder.md R104, R107, 42_engine_finish.md R142 a). -/
def Obligations.FittingTerminalStandsInEverySlot : Prop :=
  ∀ (p : Parameters) (t : Sys2Proof.Tree) (path : List Byte) (n c v : Nat) (s s' : Byte) (sym : Symbol) (k : Fin 8),
    p.tableWellFormed = true → buildTree p.table = .ok t → walk t path = some n →
    1 ≤ v → v ≤ 7 → s.toNat / 2 ^ (8 - v) = s'.toNat / 2 ^ (8 - v) →
    Tree.child t n s = .ok (some c) → t[c]? = some (.terminal sym k) → k.val + 1 ≤ v →
    Tree.child t n s' = .ok (some c)

/-- The bits FINISH fills in on the right cannot be observed (42_engine_finish.md R142 a): FINISH answers what it would
answer with any other fill bits, chosen anew at each lookup. -/
def Obligations.FinishFillUnobservable : Prop :=
  ∀ (fill : Engine → Nat) (s : State) (e : Nat) (en : Engine),
    Inv s → addressed s e en → s.treeState = .built → en.status = .active →
    exec .finish s = finishFilled fill s e en

/-! ## Faults -/

/-- Fault entry of an engine command (60_exceptions.md R183): whichever command answers a fault's code has set `status`
and `fault` of its engine and changed nothing outside that engine. -/
def Obligations.FaultEntry : Prop :=
  ∀ (s t : State) (e : Nat) (i : Instr) (k : EngineFault),
    exec i s = .next t → s.port = .engine e → t.response = some (.engine e, k.response) →
    faultEntered s e k k.response t

/-- What a fault, a hardware reset or a finished decode leaves in an engine's other registers and OUT is read by no
command (60_exceptions.md R183, 10_state.md R33): on an engine that is not `ACTIVE`, every command answers the same
whatever they hold, and what it leaves differs at most in those registers. -/
def Obligations.UnspecifiedRegistersUnread : Prop :=
  ∀ (s t : State) (e : Nat) (en en' : Engine) (i : Instr),
    addressed s e en → en.status ≠ .active →
    en'.status = en.status → en'.fault = en.fault → en'.freeKey = en.freeKey →
    exec i s = .next t →
    exec i { s with engines := s.engines.set e en' } = .next t ∨
    (t.engines = s.engines ∧ exec i { s with engines := s.engines.set e en' } =
      .next { t with engines := t.engines.set e en' })

/-- After a failed BUILD no command is accepted any more (40_tree_builder.md R106, 10_state.md R29). -/
def Obligations.BuildFailureIsFinal : Prop :=
  ∀ (s t : State) (p : Port) (w : CmdWord) (rest : List HostEvent),
    s.treeState = .buildFailed → s.pending = .command p w :: rest → step s = .next t →
    t.treeState = .buildFailed ∧ t.engines = s.engines ∧
    (t.response = some (p, .sequenceRefused) ∨ t.response = some (p, .illegalCommand))

/-! ## Rules of the whole block -/

/-- The status transitions of an engine and of the Builder, complete (60_exceptions.md R188). -/
def Obligations.StatusTransitions : Prop :=
  ∀ s t : State, step s = .next t →
    (∀ p w rest, s.pending = .command p w :: rest →
      (∀ e en en', s.engines[e]? = some en → t.engines[e]? = some en' →
        en' = en ∨ (p = .engine e ∧ ∃ i r, decode w = .ok i ∧ t.response = some (p, r) ∧
          ((i = .reset ∧ r = .ok ∧ en'.status = .active) ∨
           ((∃ b, i = .ingest b) ∧ r = .ok ∧ en.status = .active ∧ en'.status = .active) ∨
           ((∃ b, i = .ingest b) ∧ (r = .eosDecoded ∨ r = .emptySlot) ∧
             en.status = .active ∧ en'.status = .faulted) ∨
           (i = .finish ∧ r = .ok ∧ en.status = .active ∧ en'.status = .done) ∨
           (i = .finish ∧ (r = .eosDecoded ∨ r = .invalidPadding) ∧
             en.status = .active ∧ en'.status = .faulted)))) ∧
      (t.treeState = s.treeState ∨
        (p = .builder ∧ decode w = .ok .build ∧ s.treeState = .unbuilt ∧
          ((t.response = some (p, .ok) ∧ t.treeState = .built) ∨
           (t.response = some (p, .prefixCodeViolation) ∧ t.treeState = .buildFailed))))) ∧
    (∀ q rest, s.pending = .hardwareReset q :: rest →
      t.treeState = .unbuilt ∧ ∀ en ∈ t.engines, en.status = .idle)

/-- Once BUILD has run, nothing but a hardware reset changes TREE, `tree_state` or the static parameters
(40_tree_builder.md R107 v, 20_memory.md R59, 70_reset_and_hazards.md R211). -/
def Obligations.BuiltTreeIsImmutable : Prop :=
  ∀ s t : State, s.treeState ≠ .unbuilt → (∀ q rest, s.pending ≠ .hardwareReset q :: rest) →
    step s = .next t → t.tree = s.tree ∧ t.treeState = s.treeState ∧ t.params = s.params

/-- An engine command reads nothing of other engines and changes nothing of them (60_exceptions.md R193): two blocks that
agree on what is shared and on the engine itself answer alike. -/
def Obligations.EngineReadsOnlyItself : Prop :=
  ∀ (s₁ s₂ t₁ : State) (e : Nat) (i : Instr),
    s₁.port = .engine e → s₂.port = .engine e → s₁.params = s₂.params → s₁.treeState = s₂.treeState →
    s₁.tree = s₂.tree → s₁.engines[e]? = s₂.engines[e]? →
    exec i s₁ = .next t₁ →
    ∃ t₂, exec i s₂ = .next t₂ ∧ t₂.response = t₁.response ∧ t₂.engines[e]? = t₁.engines[e]? ∧
      ∀ j, j ≠ e → t₂.engines[j]? = s₂.engines[j]?

/-- Commands of two engines may be interleaved in any order (60_exceptions.md R193): run in either order they leave the
same block and each gets the same response. -/
def Obligations.InterleavingCommutes : Prop :=
  ∀ (s a ab : State) (e f : Nat) (i j : Instr), e ≠ f →
    exec i { s with port := .engine e } = .next a → exec j { a with port := .engine f } = .next ab →
    ∃ b ba, exec j { s with port := .engine f } = .next b ∧ exec i { b with port := .engine e } = .next ba ∧
      b.response = ab.response ∧ ba.response = a.response ∧
      { ba with response := none, port := .builder } = { ab with response := none, port := .builder }

/-- The block as it is delivered meets the invariant. -/
def Obligations.ResetMeetsInvariant : Prop := Inv State.reset

/-- Every step keeps the invariant of the block: `NENG` engines; a built tree is BUILD's tree of a well-formed table; OUT
in canonical form; each engine's key of free values its own (assumption 4); `fault` is 0 exactly outside `FAULTED`
(10_state.md R28); `valid_bits <= 7`, the cursor at an internal node of depth at most 3 and `sym_bits = valid_bits + 8 *
depth(node)` while `ACTIVE` (R21, R22, R24, R25); the growth law (41_engine_ingest.md R127). -/
def Obligations.StepKeepsInvariant : Prop :=
  ∀ s t : State, Inv s → step s = .next t → Inv t

/-- No agent can hang (70_reset_and_hazards.md R220): in a well-formed configuration a pending command on a port that
exists is always answered, whatever the word; no step faults or is refused. -/
def Obligations.EveryCommandIsAnswered : Prop :=
  ∀ (s : State) (p : Port) (w : CmdWord) (rest : List HostEvent),
    Inv s → s.params.wellFormed = true → s.pending = .command p w :: rest → portExists s p →
    ∃ t r, step s = .next t ∧ t.response = some (p, r)

/-- `sym_bits <= 7` exactly when `node` is the root, and then `sym_bits = valid_bits` (10_state.md R25, 42_engine_finish.md
R144). -/
def Obligations.CursorAtRootIffFewBits : Prop :=
  ∀ (s : State) (e : Nat) (en : Engine), Inv s → s.engines[e]? = some en → en.status = .active →
    (en.symBits.toNat ≤ 7 ↔ en.node = 0) ∧ (en.node = 0 → en.symBits.toNat = en.validBits.toNat) ∧
    en.symBits.toNat ≤ 39

/-- Only the low `valid_bits` bits of `acc` are read (10_state.md R23): an `ACTIVE` engine whose other `acc` bits differ
answers every command alike, and what it leaves differs at most in bits of `acc` that are not valid then. -/
def Obligations.GarbageAccumulatorBitsUnread : Prop :=
  ∀ (s t : State) (e : Nat) (en : Engine) (acc : BitVec 16) (i : Instr),
    Inv s → addressed s e en → en.status = .active →
    (∀ j, j < en.validBits.toNat → acc.getLsbD j = en.acc.getLsbD j) →
    exec i s = .next t →
    ∃ en₁ acc₁, t.engines[e]? = some en₁ ∧
      exec i { s with engines := s.engines.set e { en with acc := acc } } =
        .next { t with engines := t.engines.set e { en₁ with acc := acc₁ } } ∧
      ∀ j, j < en₁.validBits.toNat → acc₁.getLsbD j = en₁.acc.getLsbD j

/-! ## The output buffer and what the Host reads -/

/-- Linear growth (41_engine_ingest.md R127): after `n` appends since RESET the capacity is `CAP0 * max(1, ceil(n /
CAP0))` and OUT holds the appended bytes in order. -/
def Obligations.LinearGrowth : Prop :=
  ∀ (cap0 : Nat) (bytes : List Byte) (en₀ en : Engine), 1 ≤ cap0 →
    en = bytes.foldl (fun x b => x.append cap0 b) (en₀.restart cap0) →
    en.outLen = bytes.length ∧ en.outCap = cap0 * max 1 ((bytes.length + cap0 - 1) / cap0) ∧
    (∀ i, Memory.read en.out i = bytes[i]?) ∧ ∀ i b, bytes[i]? = some b → en.outByte i = b

/-- OUT is a total map from naturals to bytes (20_memory.md R56): an append puts its byte at index `out_len` (R55) and
every other index, written before or not, reads as before. -/
def Obligations.AppendWritesOneByte : Prop :=
  ∀ (cap0 i : Nat) (v : Byte) (en : Engine),
    (en.append cap0 v).outByte i = if i = en.outLen then v else en.outByte i

/-- What the Host reads of an engine. The result `OUT[0 .. out_len-1]` and `out_len` in `DONE`, and at every index what
the total map OUT holds there (20_memory.md R56, R62); the port `OUT_CAP` in `ACTIVE` and `DONE`, a multiple of `CAP0` of
at least `CAP0` that follows the growth law (10_state.md R30, R32, 41_engine_ingest.md R127); the port `ESTAT` in every
status (R30). In every other status OUT, `OUT_LEN` and `OUT_CAP` have no value (R30, R62, assumption 15). -/
def Obligations.HostReadsResultInDone : Prop :=
  ∀ (s : State) (e : Nat) (en : Engine), Inv s → s.engines[e]? = some en →
    (en.status = .done → ∃ bs, s.hostOutput e = some bs ∧ bs.length = en.outLen ∧
      s.hostOutLen e = some en.outLen ∧ (∀ i, bs[i]? = Memory.read en.out i) ∧
      (∀ i, i < en.outLen → s.hostOutByte e i = bs[i]?) ∧ ∀ i, s.hostOutByte e i = some (en.outByte i)) ∧
    (en.status ≠ .done → s.hostOutput e = none ∧ s.hostOutLen e = none ∧ ∀ i, s.hostOutByte e i = none) ∧
    (en.status = .active ∨ en.status = .done → s.hostOutCap e = some en.outCap ∧
      en.outCap = grownCapacity (s.cap0 e) en.outLen ∧ s.cap0 e ∣ en.outCap ∧ s.cap0 e ≤ en.outCap) ∧
    (en.status ≠ .active → en.status ≠ .done → s.hostOutCap e = none) ∧
    s.hostEstat e = some en.estat

/-! ## Whole decodes -/

/-- `DECODE` computes the reference semantics (43_decode_sequence.md R164), for every well-formed, prefix-free table (a
tree is built of no other), every byte sequence and whatever the block did before. Where the remaining bits begin no
code, which lookup leaves the tree is the model's reading of R164 (assumption 16). -/
def Obligations.DecodeMeetsReference : Prop :=
  ∀ (s : State) (e : Nat) (bytes : List Byte),
    Inv s → s.treeState = .built → e < s.engines.length → s.cap0 e ≠ 0 →
    ∃ t, decodeLiteral e bytes s = .next t ∧ t.decodeResult e = some (referenceDecode s.params bytes)

/-- State does not survive across decode calls (41_engine_ingest.md R121, 70_reset_and_hazards.md R214): what `DECODE`
answers, and the capacity it leaves, do not depend on what the engines held before. -/
def Obligations.DecodeForgetsThePast : Prop :=
  ∀ (s₁ s₂ t₁ : State) (e : Nat) (bytes : List Byte),
    s₁.params = s₂.params → s₁.treeState = s₂.treeState → s₁.tree = s₂.tree →
    e < s₁.engines.length → e < s₂.engines.length →
    decodeLiteral e bytes s₁ = .next t₁ →
    ∃ t₂, decodeLiteral e bytes s₂ = .next t₂ ∧ t₂.lastResponse = t₁.lastResponse ∧
      (s₁.treeState = .built → t₂.decodeResult e = t₁.decodeResult e ∧ t₂.hostOutCap e = t₁.hostOutCap e)

/-- Each symbol takes at least one input bit (20_memory.md R56): a decode's output has at most 8 bytes for each input
byte. -/
def Obligations.OutputBoundedByInput : Prop :=
  ∀ (s t : State) (e : Nat) (bytes out : List Byte),
    Inv s → s.treeState = .built → e < s.engines.length →
    decodeLiteral e bytes s = .next t → t.decodeResult e = some (.output out) →
    out.length ≤ 8 * bytes.length

/-- The round trip (43_decode_sequence.md R166), here for every sequence of non-EOS symbols, and its failure for the EOS
symbol. -/
def Obligations.RoundTrip : Prop :=
  ∀ (s : State) (e : Nat), Inv s → s.treeState = .built → e < s.engines.length → s.cap0 e ≠ 0 →
    eosAllOnes s.params → eosLong s.params →
    (∀ xs : List TableEntry, (∀ x ∈ xs, x ∈ s.params.table ∧ x.symbol ≠ s.params.eosSym) →
      ∃ t, decodeLiteral e (encodeSymbols xs) s = .next t ∧
        t.decodeResult e = some (.output (xs.map fun x => outputByte x.symbol))) ∧
    (∀ x ∈ s.params.table, x.symbol = s.params.eosSym →
      ∃ t, decodeLiteral e (encodeSymbols [x]) s = .next t ∧ t.decodeResult e = some (.failed .eosDecoded))

/-- Explicit EOS rejection (43_decode_sequence.md R168): a complete EOS code at a symbol boundary anywhere in the input
gives `EOS_DECODED`; with an all-1s EOS code the input `FF FF` does so when the code has at most 16 bits, and otherwise
gives `INVALID_PADDING`. -/
def Obligations.ExplicitEosRejected : Prop :=
  ∀ (s : State) (e : Nat), Inv s → s.treeState = .built → e < s.engines.length → s.cap0 e ≠ 0 →
    ∀ x ∈ s.params.table, x.symbol = s.params.eosSym →
      (∀ (xs : List TableEntry) (bytes : List Byte) (rest : List Bool),
        (∀ y ∈ xs, y ∈ s.params.table ∧ y.symbol ≠ s.params.eosSym) →
        streamBits bytes = xs.flatMap codeBits ++ codeBits x ++ rest →
        ∃ t, decodeLiteral e bytes s = .next t ∧ t.decodeResult e = some (.failed .eosDecoded)) ∧
      (eosAllOnes s.params → ∃ t, decodeLiteral e [0xFF#8, 0xFF#8] s = .next t ∧
        t.decodeResult e =
          some (if x.length.toNat ≤ 16 then .failed .eosDecoded else .failed .invalidPadding))

/-- With a complete code no lookup of INGEST meets an empty slot (41_engine_ingest.md R129, 30_encoding.md R78). -/
def Obligations.CompleteCodeHasNoEmptySlot : Prop :=
  ∀ (s t : State) (i : Instr), Inv s → codeComplete s.params.table → exec i s = .next t →
    t.lastResponse ≠ some .emptySlot
end

