-- ==== Sys2Proof/Laws/State.lean ====
section
/-! SUPPORT. What each update of the state or of an engine leaves in each field, one lemma for each field. -/

namespace Sys2Proof.Machine

@[simp] theorem State.setEngine_params (s : State) (e : Nat) (en : Engine) :
    (s.setEngine e en).params = s.params := rfl

@[simp] theorem State.setEngine_treeState (s : State) (e : Nat) (en : Engine) :
    (s.setEngine e en).treeState = s.treeState := rfl

@[simp] theorem State.setEngine_tree (s : State) (e : Nat) (en : Engine) :
    (s.setEngine e en).tree = s.tree := rfl

@[simp] theorem State.setEngine_engines (s : State) (e : Nat) (en : Engine) :
    (s.setEngine e en).engines = s.engines.set e en := rfl

@[simp] theorem State.setEngine_pending (s : State) (e : Nat) (en : Engine) :
    (s.setEngine e en).pending = s.pending := rfl

@[simp] theorem State.setEngine_port (s : State) (e : Nat) (en : Engine) :
    (s.setEngine e en).port = s.port := rfl

@[simp] theorem State.setEngine_response (s : State) (e : Nat) (en : Engine) :
    (s.setEngine e en).response = s.response := rfl

@[simp] theorem State.setEngine_refusalSeen (s : State) (e : Nat) (en : Engine) :
    (s.setEngine e en).refusalSeen = s.refusalSeen := rfl

@[simp] theorem State.setEngine_freeEpoch (s : State) (e : Nat) (en : Engine) :
    (s.setEngine e en).freeEpoch = s.freeEpoch := rfl

@[simp] theorem State.dropEvent_params (s : State) (rest : List HostEvent) :
    (s.dropEvent rest).params = s.params := rfl

@[simp] theorem State.dropEvent_treeState (s : State) (rest : List HostEvent) :
    (s.dropEvent rest).treeState = s.treeState := rfl

@[simp] theorem State.dropEvent_tree (s : State) (rest : List HostEvent) :
    (s.dropEvent rest).tree = s.tree := rfl

@[simp] theorem State.dropEvent_engines (s : State) (rest : List HostEvent) :
    (s.dropEvent rest).engines = s.engines := rfl

@[simp] theorem State.dropEvent_pending (s : State) (rest : List HostEvent) :
    (s.dropEvent rest).pending = rest := rfl

@[simp] theorem State.dropEvent_port (s : State) (rest : List HostEvent) :
    (s.dropEvent rest).port = s.port := rfl

@[simp] theorem State.dropEvent_response (s : State) (rest : List HostEvent) :
    (s.dropEvent rest).response = s.response := rfl

@[simp] theorem State.dropEvent_refusalSeen (s : State) (rest : List HostEvent) :
    (s.dropEvent rest).refusalSeen = s.refusalSeen := rfl

@[simp] theorem State.dropEvent_freeEpoch (s : State) (rest : List HostEvent) :
    (s.dropEvent rest).freeEpoch = s.freeEpoch := rfl

@[simp] theorem State.present_params (s : State) (p : Port) (rest : List HostEvent) :
    (s.present p rest).params = s.params := rfl

@[simp] theorem State.present_treeState (s : State) (p : Port) (rest : List HostEvent) :
    (s.present p rest).treeState = s.treeState := rfl

@[simp] theorem State.present_tree (s : State) (p : Port) (rest : List HostEvent) :
    (s.present p rest).tree = s.tree := rfl

@[simp] theorem State.present_engines (s : State) (p : Port) (rest : List HostEvent) :
    (s.present p rest).engines = s.engines := rfl

@[simp] theorem State.present_pending (s : State) (p : Port) (rest : List HostEvent) :
    (s.present p rest).pending = rest := rfl

@[simp] theorem State.present_port (s : State) (p : Port) (rest : List HostEvent) :
    (s.present p rest).port = p := rfl

@[simp] theorem State.present_response (s : State) (p : Port) (rest : List HostEvent) :
    (s.present p rest).response = s.response := rfl

@[simp] theorem State.present_refusalSeen (s : State) (p : Port) (rest : List HostEvent) :
    (s.present p rest).refusalSeen = s.refusalSeen := rfl

@[simp] theorem State.present_freeEpoch (s : State) (p : Port) (rest : List HostEvent) :
    (s.present p rest).freeEpoch = s.freeEpoch := rfl

@[simp] theorem State.respond_params (s : State) (r : Response) :
    (s.respond r).params = s.params := rfl

@[simp] theorem State.respond_treeState (s : State) (r : Response) :
    (s.respond r).treeState = s.treeState := rfl

@[simp] theorem State.respond_tree (s : State) (r : Response) :
    (s.respond r).tree = s.tree := rfl

@[simp] theorem State.respond_engines (s : State) (r : Response) :
    (s.respond r).engines = s.engines := rfl

@[simp] theorem State.respond_pending (s : State) (r : Response) :
    (s.respond r).pending = s.pending := rfl

@[simp] theorem State.respond_port (s : State) (r : Response) :
    (s.respond r).port = s.port := rfl

@[simp] theorem State.respond_response (s : State) (r : Response) :
    (s.respond r).response = some (s.port, r) := rfl

@[simp] theorem State.respond_refusalSeen (s : State) (r : Response) :
    (s.respond r).refusalSeen = s.refusalSeen := rfl

@[simp] theorem State.respond_freeEpoch (s : State) (r : Response) :
    (s.respond r).freeEpoch = s.freeEpoch := rfl

@[simp] theorem State.refuse_params (s : State) (r : Response) :
    (s.refuse r).params = s.params := rfl

@[simp] theorem State.refuse_treeState (s : State) (r : Response) :
    (s.refuse r).treeState = s.treeState := rfl

@[simp] theorem State.refuse_tree (s : State) (r : Response) :
    (s.refuse r).tree = s.tree := rfl

@[simp] theorem State.refuse_engines (s : State) (r : Response) :
    (s.refuse r).engines = s.engines := rfl

@[simp] theorem State.refuse_pending (s : State) (r : Response) :
    (s.refuse r).pending = s.pending := rfl

@[simp] theorem State.refuse_port (s : State) (r : Response) :
    (s.refuse r).port = s.port := rfl

@[simp] theorem State.refuse_response (s : State) (r : Response) :
    (s.refuse r).response = some (s.port, r) := rfl

@[simp] theorem State.refuse_refusalSeen (s : State) (r : Response) :
    (s.refuse r).refusalSeen = true := rfl

@[simp] theorem State.refuse_freeEpoch (s : State) (r : Response) :
    (s.refuse r).freeEpoch = s.freeEpoch := rfl

@[simp] theorem State.raiseEngineFault_params (s : State) (e : Nat) (en : Engine) (k : EngineFault) :
    (s.raiseEngineFault e en k).params = s.params := rfl

@[simp] theorem State.raiseEngineFault_treeState (s : State) (e : Nat) (en : Engine) (k : EngineFault) :
    (s.raiseEngineFault e en k).treeState = s.treeState := rfl

@[simp] theorem State.raiseEngineFault_tree (s : State) (e : Nat) (en : Engine) (k : EngineFault) :
    (s.raiseEngineFault e en k).tree = s.tree := rfl

@[simp] theorem State.raiseEngineFault_engines (s : State) (e : Nat) (en : Engine) (k : EngineFault) :
    (s.raiseEngineFault e en k).engines = s.engines.set e
      (Engine.unspecified (nextDraw en.freeKey) .faulted (some k)) := rfl

@[simp] theorem State.raiseEngineFault_pending (s : State) (e : Nat) (en : Engine) (k : EngineFault) :
    (s.raiseEngineFault e en k).pending = s.pending := rfl

@[simp] theorem State.raiseEngineFault_port (s : State) (e : Nat) (en : Engine) (k : EngineFault) :
    (s.raiseEngineFault e en k).port = s.port := rfl

@[simp] theorem State.raiseEngineFault_response (s : State) (e : Nat) (en : Engine) (k : EngineFault) :
    (s.raiseEngineFault e en k).response = some (s.port, k.response) := rfl

@[simp] theorem State.raiseEngineFault_refusalSeen (s : State) (e : Nat) (en : Engine) (k : EngineFault) :
    (s.raiseEngineFault e en k).refusalSeen = s.refusalSeen := rfl

@[simp] theorem State.raiseEngineFault_freeEpoch (s : State) (e : Nat) (en : Engine) (k : EngineFault) :
    (s.raiseEngineFault e en k).freeEpoch = s.freeEpoch := rfl

@[simp] theorem State.raisePrefixCodeViolation_params (s : State) :
    (s.raisePrefixCodeViolation).params = s.params := rfl

@[simp] theorem State.raisePrefixCodeViolation_treeState (s : State) :
    (s.raisePrefixCodeViolation).treeState = .buildFailed := rfl

@[simp] theorem State.raisePrefixCodeViolation_tree (s : State) :
    (s.raisePrefixCodeViolation).tree = Config.freeTree s.freeEpoch true := rfl

@[simp] theorem State.raisePrefixCodeViolation_engines (s : State) :
    (s.raisePrefixCodeViolation).engines = s.engines := rfl

@[simp] theorem State.raisePrefixCodeViolation_pending (s : State) :
    (s.raisePrefixCodeViolation).pending = s.pending := rfl

@[simp] theorem State.raisePrefixCodeViolation_port (s : State) :
    (s.raisePrefixCodeViolation).port = s.port := rfl

@[simp] theorem State.raisePrefixCodeViolation_response (s : State) :
    (s.raisePrefixCodeViolation).response = some (s.port, .prefixCodeViolation) := rfl

@[simp] theorem State.raisePrefixCodeViolation_refusalSeen (s : State) :
    (s.raisePrefixCodeViolation).refusalSeen = s.refusalSeen := rfl

@[simp] theorem State.raisePrefixCodeViolation_freeEpoch (s : State) :
    (s.raisePrefixCodeViolation).freeEpoch = s.freeEpoch := rfl

@[simp] theorem State.finishBuild_params (s : State) (t : Tree) :
    (s.finishBuild t).params = s.params := rfl

@[simp] theorem State.finishBuild_treeState (s : State) (t : Tree) :
    (s.finishBuild t).treeState = .built := rfl

@[simp] theorem State.finishBuild_tree (s : State) (t : Tree) :
    (s.finishBuild t).tree = t := rfl

@[simp] theorem State.finishBuild_engines (s : State) (t : Tree) :
    (s.finishBuild t).engines = s.engines := rfl

@[simp] theorem State.finishBuild_pending (s : State) (t : Tree) :
    (s.finishBuild t).pending = s.pending := rfl

@[simp] theorem State.finishBuild_port (s : State) (t : Tree) :
    (s.finishBuild t).port = s.port := rfl

@[simp] theorem State.finishBuild_response (s : State) (t : Tree) :
    (s.finishBuild t).response = some (s.port, .ok) := rfl

@[simp] theorem State.finishBuild_refusalSeen (s : State) (t : Tree) :
    (s.finishBuild t).refusalSeen = s.refusalSeen := rfl

@[simp] theorem State.finishBuild_freeEpoch (s : State) (t : Tree) :
    (s.finishBuild t).freeEpoch = s.freeEpoch := rfl

@[simp] theorem State.hardwareReset_params (s : State) (q : Option Parameters) :
    (s.hardwareReset q).params = q.getD s.params := rfl

@[simp] theorem State.hardwareReset_treeState (s : State) (q : Option Parameters) :
    (s.hardwareReset q).treeState = .unbuilt := rfl

@[simp] theorem State.hardwareReset_tree (s : State) (q : Option Parameters) :
    (s.hardwareReset q).tree = Config.freeTree (s.freeEpoch + 1) false := rfl

@[simp] theorem State.hardwareReset_engines (s : State) (q : Option Parameters) :
    (s.hardwareReset q).engines = (List.range (q.getD s.params).neng).map fun e =>
      Engine.unspecified { epoch := s.freeEpoch + 1, engine := e, draw := 0 } .idle none := rfl

@[simp] theorem State.hardwareReset_pending (s : State) (q : Option Parameters) :
    (s.hardwareReset q).pending = s.pending := rfl

@[simp] theorem State.hardwareReset_port (s : State) (q : Option Parameters) :
    (s.hardwareReset q).port = s.port := rfl

@[simp] theorem State.hardwareReset_response (s : State) (q : Option Parameters) :
    (s.hardwareReset q).response = none := rfl

@[simp] theorem State.hardwareReset_refusalSeen (s : State) (q : Option Parameters) :
    (s.hardwareReset q).refusalSeen = s.refusalSeen := rfl

@[simp] theorem State.hardwareReset_freeEpoch (s : State) (q : Option Parameters) :
    (s.hardwareReset q).freeEpoch = s.freeEpoch + 1 := rfl

@[simp] theorem Engine.append_node (en : Engine) (cap0 : Nat) (v : Byte) :
    (en.append cap0 v).node = en.node := rfl

@[simp] theorem Engine.append_acc (en : Engine) (cap0 : Nat) (v : Byte) :
    (en.append cap0 v).acc = en.acc := rfl

@[simp] theorem Engine.append_validBits (en : Engine) (cap0 : Nat) (v : Byte) :
    (en.append cap0 v).validBits = en.validBits := rfl

@[simp] theorem Engine.append_symBits (en : Engine) (cap0 : Nat) (v : Byte) :
    (en.append cap0 v).symBits = en.symBits := rfl

@[simp] theorem Engine.append_outLen (en : Engine) (cap0 : Nat) (v : Byte) :
    (en.append cap0 v).outLen = en.outLen + 1 := rfl

@[simp] theorem Engine.append_outCap (en : Engine) (cap0 : Nat) (v : Byte) :
    (en.append cap0 v).outCap = if en.outLen = en.outCap then en.outCap + cap0 else en.outCap := rfl

@[simp] theorem Engine.append_status (en : Engine) (cap0 : Nat) (v : Byte) :
    (en.append cap0 v).status = en.status := rfl

@[simp] theorem Engine.append_fault (en : Engine) (cap0 : Nat) (v : Byte) :
    (en.append cap0 v).fault = en.fault := rfl

@[simp] theorem Engine.append_out (en : Engine) (cap0 : Nat) (v : Byte) :
    (en.append cap0 v).out = Memory.write en.out en.outLen v := rfl

@[simp] theorem Engine.append_freeKey (en : Engine) (cap0 : Nat) (v : Byte) :
    (en.append cap0 v).freeKey = en.freeKey := rfl

@[simp] theorem Engine.emit_node (en : Engine) (cap0 : Nat) (sym : Symbol) :
    (en.emit cap0 sym).node = 0 := rfl

@[simp] theorem Engine.emit_acc (en : Engine) (cap0 : Nat) (sym : Symbol) :
    (en.emit cap0 sym).acc = en.acc := rfl

@[simp] theorem Engine.emit_validBits (en : Engine) (cap0 : Nat) (sym : Symbol) :
    (en.emit cap0 sym).validBits = en.validBits := rfl

@[simp] theorem Engine.emit_symBits (en : Engine) (cap0 : Nat) (sym : Symbol) :
    (en.emit cap0 sym).symBits = en.validBits.setWidth 6 := rfl

@[simp] theorem Engine.emit_outLen (en : Engine) (cap0 : Nat) (sym : Symbol) :
    (en.emit cap0 sym).outLen = en.outLen + 1 := rfl

@[simp] theorem Engine.emit_outCap (en : Engine) (cap0 : Nat) (sym : Symbol) :
    (en.emit cap0 sym).outCap = if en.outLen = en.outCap then en.outCap + cap0 else en.outCap := rfl

@[simp] theorem Engine.emit_status (en : Engine) (cap0 : Nat) (sym : Symbol) :
    (en.emit cap0 sym).status = en.status := rfl

@[simp] theorem Engine.emit_fault (en : Engine) (cap0 : Nat) (sym : Symbol) :
    (en.emit cap0 sym).fault = en.fault := rfl

@[simp] theorem Engine.emit_out (en : Engine) (cap0 : Nat) (sym : Symbol) :
    (en.emit cap0 sym).out = Memory.write en.out en.outLen (outputByte sym) := rfl

@[simp] theorem Engine.emit_freeKey (en : Engine) (cap0 : Nat) (sym : Symbol) :
    (en.emit cap0 sym).freeKey = en.freeKey := rfl

@[simp] theorem Engine.consume_node (en : Engine) (bits : BitVec 4) :
    (en.consume bits).node = en.node := rfl

@[simp] theorem Engine.consume_acc (en : Engine) (bits : BitVec 4) :
    (en.consume bits).acc = en.acc := rfl

@[simp] theorem Engine.consume_validBits (en : Engine) (bits : BitVec 4) :
    (en.consume bits).validBits = en.validBits - bits := rfl

@[simp] theorem Engine.consume_symBits (en : Engine) (bits : BitVec 4) :
    (en.consume bits).symBits = en.symBits := rfl

@[simp] theorem Engine.consume_outLen (en : Engine) (bits : BitVec 4) :
    (en.consume bits).outLen = en.outLen := rfl

@[simp] theorem Engine.consume_outCap (en : Engine) (bits : BitVec 4) :
    (en.consume bits).outCap = en.outCap := rfl

@[simp] theorem Engine.consume_status (en : Engine) (bits : BitVec 4) :
    (en.consume bits).status = en.status := rfl

@[simp] theorem Engine.consume_fault (en : Engine) (bits : BitVec 4) :
    (en.consume bits).fault = en.fault := rfl

@[simp] theorem Engine.consume_out (en : Engine) (bits : BitVec 4) :
    (en.consume bits).out = en.out := rfl

@[simp] theorem Engine.consume_freeKey (en : Engine) (bits : BitVec 4) :
    (en.consume bits).freeKey = en.freeKey := rfl

@[simp] theorem Engine.restart_node (en : Engine) (cap0 : Nat) :
    (en.restart cap0).node = 0 := rfl

@[simp] theorem Engine.restart_acc (en : Engine) (cap0 : Nat) :
    (en.restart cap0).acc = 0#16 := rfl

@[simp] theorem Engine.restart_validBits (en : Engine) (cap0 : Nat) :
    (en.restart cap0).validBits = 0#4 := rfl

@[simp] theorem Engine.restart_symBits (en : Engine) (cap0 : Nat) :
    (en.restart cap0).symBits = 0#6 := rfl

@[simp] theorem Engine.restart_outLen (en : Engine) (cap0 : Nat) :
    (en.restart cap0).outLen = 0 := rfl

@[simp] theorem Engine.restart_outCap (en : Engine) (cap0 : Nat) :
    (en.restart cap0).outCap = cap0 := rfl

@[simp] theorem Engine.restart_status (en : Engine) (cap0 : Nat) :
    (en.restart cap0).status = .active := rfl

@[simp] theorem Engine.restart_fault (en : Engine) (cap0 : Nat) :
    (en.restart cap0).fault = none := rfl

@[simp] theorem Engine.restart_out (en : Engine) (cap0 : Nat) :
    (en.restart cap0).out = [] := rfl

@[simp] theorem Engine.restart_freeKey (en : Engine) (cap0 : Nat) :
    (en.restart cap0).freeKey = nextDraw en.freeKey := rfl

@[simp] theorem Engine.shiftIn_node (en : Engine) (b : Byte) :
    (en.shiftIn b).node = en.node := rfl

@[simp] theorem Engine.shiftIn_acc (en : Engine) (b : Byte) :
    (en.shiftIn b).acc = (en.acc <<< 8) ||| b.setWidth 16 := rfl

@[simp] theorem Engine.shiftIn_validBits (en : Engine) (b : Byte) :
    (en.shiftIn b).validBits = en.validBits + 8#4 := rfl

@[simp] theorem Engine.shiftIn_symBits (en : Engine) (b : Byte) :
    (en.shiftIn b).symBits = en.symBits + 8#6 := rfl

@[simp] theorem Engine.shiftIn_outLen (en : Engine) (b : Byte) :
    (en.shiftIn b).outLen = en.outLen := rfl

@[simp] theorem Engine.shiftIn_outCap (en : Engine) (b : Byte) :
    (en.shiftIn b).outCap = en.outCap := rfl

@[simp] theorem Engine.shiftIn_status (en : Engine) (b : Byte) :
    (en.shiftIn b).status = en.status := rfl

@[simp] theorem Engine.shiftIn_fault (en : Engine) (b : Byte) :
    (en.shiftIn b).fault = en.fault := rfl

@[simp] theorem Engine.shiftIn_out (en : Engine) (b : Byte) :
    (en.shiftIn b).out = en.out := rfl

@[simp] theorem Engine.shiftIn_freeKey (en : Engine) (b : Byte) :
    (en.shiftIn b).freeKey = en.freeKey := rfl

@[simp] theorem Engine.complete_node (en : Engine) :
    (en.complete).node = en.node := rfl

@[simp] theorem Engine.complete_acc (en : Engine) :
    (en.complete).acc = en.acc := rfl

@[simp] theorem Engine.complete_validBits (en : Engine) :
    (en.complete).validBits = en.validBits := rfl

@[simp] theorem Engine.complete_symBits (en : Engine) :
    (en.complete).symBits = en.symBits := rfl

@[simp] theorem Engine.complete_outLen (en : Engine) :
    (en.complete).outLen = en.outLen := rfl

@[simp] theorem Engine.complete_outCap (en : Engine) :
    (en.complete).outCap = en.outCap := rfl

@[simp] theorem Engine.complete_status (en : Engine) :
    (en.complete).status = .done := rfl

@[simp] theorem Engine.complete_fault (en : Engine) :
    (en.complete).fault = en.fault := rfl

@[simp] theorem Engine.complete_out (en : Engine) :
    (en.complete).out = en.out := rfl

@[simp] theorem Engine.complete_freeKey (en : Engine) :
    (en.complete).freeKey = en.freeKey := rfl

@[simp] theorem Engine.unspecified_status (key : Config.FreeKey) (st : EngineStatus) (f : Option EngineFault) :
    (Engine.unspecified key st f).status = st := rfl

@[simp] theorem Engine.unspecified_fault (key : Config.FreeKey) (st : EngineStatus) (f : Option EngineFault) :
    (Engine.unspecified key st f).fault = f := rfl

@[simp] theorem Engine.unspecified_out (key : Config.FreeKey) (st : EngineStatus) (f : Option EngineFault) :
    (Engine.unspecified key st f).out = [] := rfl

@[simp] theorem Engine.unspecified_freeKey (key : Config.FreeKey) (st : EngineStatus) (f : Option EngineFault) :
    (Engine.unspecified key st f).freeKey = key := rfl

@[simp] theorem State.resetWith_params (p : Parameters) :
    (State.resetWith p).params = p := rfl

@[simp] theorem State.resetWith_treeState (p : Parameters) :
    (State.resetWith p).treeState = .unbuilt := rfl

@[simp] theorem State.resetWith_engines (p : Parameters) :
    (State.resetWith p).engines = (List.range p.neng).map Engine.reset := rfl

@[simp] theorem State.resetWith_pending (p : Parameters) :
    (State.resetWith p).pending = [] := rfl

@[simp] theorem State.resetWith_refusalSeen (p : Parameters) :
    (State.resetWith p).refusalSeen = false := rfl

@[simp] theorem State.resetWith_freeEpoch (p : Parameters) :
    (State.resetWith p).freeEpoch = 0 := rfl

@[simp] theorem nextDraw_epoch (key : Config.FreeKey) : (nextDraw key).epoch = key.epoch := rfl

@[simp] theorem nextDraw_engine (key : Config.FreeKey) : (nextDraw key).engine = key.engine := rfl

@[simp] theorem nextDraw_draw (key : Config.FreeKey) : (nextDraw key).draw = key.draw + 1 := rfl

/-- A written index of OUT reads as what was written. -/
theorem Engine.outByte_of_written {en : Engine} {i : Nat} {b : Byte} (h : Memory.read en.out i = some b) :
    en.outByte i = b := by
  simp [Engine.outByte, h]

/-- An index of OUT that is not written reads as the free value of the last draw. -/
theorem Engine.outByte_of_unwritten {en : Engine} {i : Nat} (h : Memory.read en.out i = none) :
    en.outByte i = en.unwrittenByte i := by
  simp [Engine.outByte, h]

/-- OUT is a function of the written bytes and the last draw alone. -/
theorem Engine.outByte_congr {en en' : Engine} {i : Nat} (hk : en'.freeKey = en.freeKey)
    (hr : Memory.read en'.out i = Memory.read en.out i) : en'.outByte i = en.outByte i := by
  simp [Engine.outByte, Engine.unwrittenByte, hk, hr]

@[simp] theorem Engine.outBytes_length (en : Engine) (n : Nat) : (en.outBytes n).length = n := by
  simp [Engine.outBytes]

theorem Engine.outBytes_getElem? (en : Engine) (n i : Nat) :
    (en.outBytes n)[i]? = if i < n then some (en.outByte i) else none := by
  split <;> simp [Engine.outBytes, *]

end Sys2Proof.Machine
end

