-- ==== Sys2Proof/Laws/Memory.lean ====
section
/-! SUPPORT. The laws of a sparse address space: a write gives what is read there, leaves every other address alone, and
keeps the canonical form. -/

namespace Sys2Proof.Machine

theorem Memory.read_nil {α : Type} (a : Nat) : Memory.read ([] : Memory α) a = none := rfl

theorem Memory.read_cons {α : Type} (k : Nat) (v : α) (m : Memory α) (a : Nat) :
    Memory.read ((k, v) :: m) a = if k = a then some v else Memory.read m a := rfl

/-- A write gives what is read there. -/
@[simp] theorem Memory.read_write_same {α : Type} (m : Memory α) (a : Nat) (v : α) :
    Memory.read (Memory.write m a v) a = some v := by
  induction m with
  | nil => simp [Memory.write, Memory.read]
  | cons x rest ih =>
    obtain ⟨k, w⟩ := x
    simp only [Memory.write]
    split
    · simp [Memory.read]
    · split
      · simp [Memory.read]
      · rename_i h
        simp [Memory.read, Ne.symm h, ih]

/-- A write leaves every other address alone. -/
theorem Memory.read_write_other {α : Type} (m : Memory α) {a b : Nat} (v : α) (h : b ≠ a) :
    Memory.read (Memory.write m a v) b = Memory.read m b := by
  induction m with
  | nil => simp [Memory.write, Memory.read, Ne.symm h]
  | cons x rest ih =>
    obtain ⟨k, w⟩ := x
    simp only [Memory.write]
    split
    · simp [Memory.read, Ne.symm h]
    · split
      · rename_i hk
        subst hk
        simp [Memory.read, Ne.symm h]
      · simp [Memory.read, ih]

/-- What a write leaves at any address. -/
theorem Memory.read_write {α : Type} (m : Memory α) (a b : Nat) (v : α) :
    Memory.read (Memory.write m a v) b = if b = a then some v else Memory.read m b := by
  split
  · rename_i h
    rw [h, Memory.read_write_same]
  · exact Memory.read_write_other m v ‹_›

theorem Memory.wf_nil {α : Type} : Memory.wf ([] : Memory α) = true := rfl

/-- The canonical form says that the addresses rise strictly. -/
theorem Memory.wf_iff_pairwise {α : Type} (m : Memory α) :
    Memory.wf m = true ↔ (m.map Prod.fst).Pairwise (· < ·) := by
  induction m with
  | nil => simp [Memory.wf]
  | cons x rest ih =>
    cases rest with
    | nil => simp [Memory.wf]
    | cons y rest =>
      simp only [Memory.wf, Bool.and_eq_true, decide_eq_true_eq, ih, List.map_cons, List.pairwise_cons,
        List.mem_cons, forall_eq_or_imp]
      constructor
      · rintro ⟨h, h1, h2⟩
        exact ⟨⟨h, fun a ha => Nat.lt_trans h (h1 a ha)⟩, h1, h2⟩
      · rintro ⟨⟨h, _⟩, h1, h2⟩
        exact ⟨h, h1, h2⟩

/-- The addresses a write lists: the one written and those listed before. -/
theorem Memory.mem_keys_write {α : Type} (m : Memory α) (a : Nat) (v : α) (b : Nat) :
    b ∈ (Memory.write m a v).map Prod.fst ↔ b = a ∨ b ∈ m.map Prod.fst := by
  induction m with
  | nil => simp [Memory.write]
  | cons x rest ih =>
    obtain ⟨k, w⟩ := x
    simp only [Memory.write]
    split
    · simp
    · split
      · rename_i h
        subst h
        simp
      · simp only [List.map_cons, List.mem_cons, ih]
        tauto

/-- A write keeps the canonical form. -/
theorem Memory.wf_write {α : Type} (m : Memory α) (a : Nat) (v : α) (h : Memory.wf m = true) :
    Memory.wf (Memory.write m a v) = true := by
  rw [Memory.wf_iff_pairwise] at h ⊢
  induction m with
  | nil => simp [Memory.write]
  | cons x rest ih =>
    obtain ⟨k, w⟩ := x
    simp only [List.map_cons, List.pairwise_cons] at h
    simp only [Memory.write]
    split
    · rename_i hk
      simp only [List.map_cons, List.pairwise_cons, List.mem_cons, forall_eq_or_imp]
      exact ⟨⟨hk, fun b hb => Nat.lt_trans hk (h.1 b hb)⟩, h.1, h.2⟩
    · split
      · rename_i hk
        subst hk
        simpa [List.pairwise_cons] using h
      · rename_i h1 h2
        simp only [List.map_cons, List.pairwise_cons]
        refine ⟨fun b hb => ?_, ih h.2⟩
        rcases (Memory.mem_keys_write rest a v b).1 hb with rfl | hb
        · omega
        · exact h.1 b hb

/-- An address is listed exactly when it reads as a value. -/
theorem Memory.isSome_read_iff {α : Type} (m : Memory α) (a : Nat) :
    (Memory.read m a).isSome = true ↔ a ∈ m.map Prod.fst := by
  induction m with
  | nil => simp [Memory.read]
  | cons x rest ih =>
    obtain ⟨k, w⟩ := x
    simp only [Memory.read, List.map_cons, List.mem_cons]
    split
    · simp_all
    · rename_i h
      rw [ih]
      exact ⟨Or.inr, fun h' => h'.resolve_left (Ne.symm h)⟩

/-- Two memories in canonical form that read alike are equal data. -/
theorem Memory.ext_of_read {α : Type} {m n : Memory α} (hm : Memory.wf m = true) (hn : Memory.wf n = true)
    (h : ∀ a, Memory.read m a = Memory.read n a) : m = n := by
  rw [Memory.wf_iff_pairwise] at hm hn
  induction m generalizing n with
  | nil =>
    cases n with
    | nil => rfl
    | cons y _ =>
      have := h y.1
      simp [Memory.read] at this
  | cons x rest ih =>
    obtain ⟨k, v⟩ := x
    cases n with
    | nil =>
      have := h k
      simp [Memory.read] at this
    | cons y rest' =>
      obtain ⟨l, w⟩ := y
      simp only [List.map_cons, List.pairwise_cons] at hm hn
      have hkl : k = l := by
        by_contra hne
        have h1 := h k
        have h2 := h l
        simp only [Memory.read, if_true, if_neg hne, if_neg (Ne.symm hne)] at h1 h2
        have h3 := (Memory.isSome_read_iff rest' k).1 (by rw [← h1]; rfl)
        have h4 := (Memory.isSome_read_iff rest l).1 (by rw [h2]; rfl)
        have := hm.1 l h4
        have := hn.1 k h3
        omega
      subst hkl
      have hv : v = w := by
        have := h k
        simpa [Memory.read] using this
      subst hv
      refine congrArg ((k, v) :: ·) (ih hm.2 hn.2 fun a => ?_)
      by_cases ha : k = a
      · subst ha
        have h1 : Memory.read rest k = none := by
          rw [← Option.not_isSome_iff_eq_none, Memory.isSome_read_iff]
          exact fun hk => Nat.lt_irrefl _ (hm.1 k hk)
        have h2 : Memory.read rest' k = none := by
          rw [← Option.not_isSome_iff_eq_none, Memory.isSome_read_iff]
          exact fun hk => Nat.lt_irrefl _ (hn.1 k hk)
        rw [h1, h2]
      · have := h a
        simpa [Memory.read, ha] using this

end Sys2Proof.Machine
end

