-- ==== Sys2Proof/Laws/Tree.lean ====
section
/-! SUPPORT. What each access of the TREE space can do. -/

namespace Sys2Proof.Machine

/-- A slot read answers exactly where the node is internal. -/
theorem Tree.child_ok_iff (t : Tree) (n : Nat) (s : Byte) (r : Option Nat) :
    Tree.child t n s = .ok r ↔ ∃ slots, t[n]? = some (.internal slots) ∧ Memory.read slots s.toNat = r := by
  unfold Tree.child
  split <;> simp_all

/-- A header read answers exactly where the node is allocated. -/
theorem Tree.header_ok_iff (t : Tree) (n : Nat) (h : NodeHeader) :
    Tree.header t n = .ok h ↔ ∃ x, t[n]? = some x ∧ Node.header x = h := by
  unfold Tree.header
  split <;> simp_all

/-- A slot write answers exactly where the node is internal, and writes that one slot. -/
theorem Tree.writeChild_ok_iff (t : Tree) (n : Nat) (s : Byte) (c : Nat) (t' : Tree) :
    Tree.writeChild t n s c = .ok t' ↔
      ∃ slots, t[n]? = some (.internal slots) ∧ t' = t.set n (.internal (Memory.write slots s.toNat c)) := by
  unfold Tree.writeChild
  split
  · rename_i hn
    constructor
    · rintro h
      cases h
      exact ⟨_, hn, rfl⟩
    · rintro ⟨slots, hs, rfl⟩
      rw [hn] at hs
      cases hs
      rfl
  · simp_all
  · simp_all

/-- A lookup finds an empty slot. -/
theorem Tree.lookup_empty_iff (t : Tree) (n : Nat) (s : Byte) :
    Tree.lookup t n s = .ok .empty ↔ Tree.child t n s = .ok none := by
  unfold Tree.lookup
  split
  · simp_all
  · simp_all
  · split <;> simp_all

/-- A lookup finds a child with its header. -/
theorem Tree.lookup_node_iff (t : Tree) (n : Nat) (s : Byte) (c : Nat) (h : NodeHeader) :
    Tree.lookup t n s = .ok (.node c h) ↔ Tree.child t n s = .ok (some c) ∧ Tree.header t c = .ok h := by
  unfold Tree.lookup
  split
  · simp_all
  · simp_all
  · rename_i c' hc
    constructor
    · intro hl
      split at hl
      · cases hl
      · cases hl
        exact ⟨hc, ‹_›⟩
    · rintro ⟨h1, h2⟩
      rw [hc] at h1
      cases h1
      rw [h2]

@[simp] theorem Node.header_internal (slots : Slots) :
    Node.header (.internal slots) = { kind := .internal, symbol := 0#9, bits := 8#4 } := rfl

@[simp] theorem Node.header_terminal (sym : Symbol) (k : Fin 8) :
    Node.header (.terminal sym k) = { kind := .terminal, symbol := sym, bits := terminalBits k } := rfl

/-- A terminal's `bits`, 1..8. -/
@[simp] theorem terminalBits_toNat (k : Fin 8) : (terminalBits k).toNat = k.val + 1 := by
  simp only [terminalBits, BitVec.toNat_ofNat]
  omega

/-- Every node says of itself that at least 1 and at most 8 bits are consumed to reach it. -/
theorem Node.header_bits_range (x : Node) : 1 ≤ (Node.header x).bits.toNat ∧ (Node.header x).bits.toNat ≤ 8 := by
  cases x with
  | internal slots => simp
  | terminal sym k =>
    simp only [Node.header_terminal, terminalBits_toNat]
    omega

/-- The slot a write leaves, in every slot of every internal node. -/
theorem Tree.child_writeChild {t t' : Tree} {n : Nat} {s : Byte} {c : Nat}
    (h : Tree.writeChild t n s c = .ok t') (m : Nat) (s' : Byte) :
    Tree.child t' m s' = if m = n ∧ s' = s then .ok (some c) else Tree.child t m s' := by
  obtain ⟨slots, hn, rfl⟩ := (Tree.writeChild_ok_iff t n s c t').1 h
  have hlt : n < t.length := (List.getElem?_eq_some_iff.1 hn).1
  by_cases hm : m = n
  · subst hm
    have : (t.set m (.internal (Memory.write slots s.toNat c)))[m]? =
        some (.internal (Memory.write slots s.toNat c)) := by
      simp [hlt]
    simp only [Tree.child, this, hn, Memory.read_write, true_and]
    by_cases hs : s' = s
    · simp [hs]
    · have : s'.toNat ≠ s.toNat := fun h => hs (BitVec.eq_of_toNat_eq h)
      simp [hs, this]
  · have : (t.set n (.internal (Memory.write slots s.toNat c)))[m]? = t[m]? := by
      simp [Ne.symm hm]
    simp [Tree.child, this, hm]

/-- A slot write changes no header. -/
theorem Tree.header_writeChild {t t' : Tree} {n : Nat} {s : Byte} {c : Nat}
    (h : Tree.writeChild t n s c = .ok t') (m : Nat) : Tree.header t' m = Tree.header t m := by
  obtain ⟨slots, hn, rfl⟩ := (Tree.writeChild_ok_iff t n s c t').1 h
  by_cases hm : m = n
  · subst hm
    have hlt : m < t.length := (List.getElem?_eq_some_iff.1 hn).1
    have : (t.set m (.internal (Memory.write slots s.toNat c)))[m]? =
        some (.internal (Memory.write slots s.toNat c)) := by
      simp [hlt]
    simp [Tree.header, hn, this]
  · simp [Tree.header, Ne.symm hm]

/-- A slot write allocates nothing. -/
theorem Tree.length_writeChild {t t' : Tree} {n : Nat} {s : Byte} {c : Nat}
    (h : Tree.writeChild t n s c = .ok t') : t'.length = t.length := by
  obtain ⟨slots, _, rfl⟩ := (Tree.writeChild_ok_iff t n s c t').1 h
  simp

end Sys2Proof.Machine
end

