-- ==== Sys2Proof/Laws/Builder.lean ====
section
/-! SUPPORT. The parts of BUILD: what its test and its writes do, and that every memory operation keeps the canonical
form, from the state after reset on. -/

namespace Sys2Proof.Machine

/-- The test of the final step passes exactly when every slot of the fan-out is empty. -/
theorem checkEmpty_ok_iff (t : Tree) (cur : Nat) (slots : List Byte) :
    checkEmpty t cur slots = .ok () ↔ ∀ s ∈ slots, Tree.child t cur s = .ok none := by
  induction slots with
  | nil => simp [checkEmpty]
  | cons s rest ih =>
    simp only [checkEmpty, List.mem_cons, forall_eq_or_imp]
    split <;> simp_all

/-- The writes of the final step: the slots of the fan-out hold the terminal, every other slot and every header is as
before. -/
theorem writeSlots_ok {cur c : Nat} {slots : List Byte} {t t' : Tree} (h : writeSlots cur c slots t = .ok t') :
    (∀ m s, Tree.child t' m s = if m = cur ∧ s ∈ slots then .ok (some c) else Tree.child t m s) ∧
    (∀ m, Tree.header t' m = Tree.header t m) ∧ t'.length = t.length := by
  induction slots generalizing t with
  | nil =>
    cases h
    simp
  | cons s rest ih =>
    simp only [writeSlots] at h
    split at h
    · cases h
    · rename_i t₁ h₁
      obtain ⟨hc, hh, hl⟩ := ih h
      refine ⟨fun m s' => ?_, fun m => (hh m).trans (Tree.header_writeChild h₁ m),
        hl.trans (Tree.length_writeChild h₁)⟩
      rw [hc, Tree.child_writeChild h₁]
      by_cases hm : m = cur <;> by_cases hs : s' = s <;> by_cases hr : s' ∈ rest <;> simp [hm, hs, hr]

/-- A new node leaves every node as it was. -/
theorem Tree.getElem?_newInternal (t : Tree) (m : Nat) (h : m < t.length) :
    (Tree.newInternal t).1[m]? = t[m]? := by
  simp [Tree.newInternal, List.getElem?_append_left h]

/-- A new node leaves every node as it was. -/
theorem Tree.getElem?_newTerminal (t : Tree) (sym : Symbol) (rem m : Nat) (h : m < t.length) :
    (Tree.newTerminal t sym rem).1[m]? = t[m]? := by
  simp [Tree.newTerminal, List.getElem?_append_left h]

/-- The canonical form of the TREE space, node by node. -/
theorem Tree.wf_iff (t : Tree) :
    Tree.wf t = true ↔ ∀ (n : Nat) (slots : Slots), t[n]? = some (Node.internal slots) → Memory.wf slots = true := by
  simp only [Tree.wf, List.all_eq_true, List.mem_iff_getElem?]
  constructor
  · intro h n slots hn
    exact h _ ⟨n, hn⟩
  · rintro h x ⟨n, hn⟩
    cases x with
    | internal slots => exact h n slots hn
    | terminal sym k => rfl

/-- A slot write keeps the canonical form. -/
theorem Tree.wf_writeChild {t t' : Tree} {n : Nat} {s : Byte} {c : Nat} (h : Tree.writeChild t n s c = .ok t')
    (hw : Tree.wf t = true) : Tree.wf t' = true := by
  obtain ⟨slots, hn, rfl⟩ := (Tree.writeChild_ok_iff t n s c t').1 h
  rw [Tree.wf_iff] at hw ⊢
  intro m slots' hm
  by_cases hmn : n = m
  · subst hmn
    have hlt : n < t.length := (List.getElem?_eq_some_iff.1 hn).1
    simp only [List.getElem?_set, hlt, if_true, Option.some.injEq, Node.internal.injEq] at hm
    rw [← hm]
    exact Memory.wf_write _ _ _ (hw n slots hn)
  · rw [List.getElem?_set_ne hmn] at hm
    exact hw m slots' hm

/-- A new internal node has no slot listed. -/
theorem Tree.wf_newInternal {t : Tree} (hw : Tree.wf t = true) : Tree.wf (Tree.newInternal t).1 = true := by
  simpa [Tree.wf, Tree.newInternal, Memory.wf] using hw

/-- A new terminal owns no slot. -/
theorem Tree.wf_newTerminal {t : Tree} (sym : Symbol) (rem : Nat) (hw : Tree.wf t = true) :
    Tree.wf (Tree.newTerminal t sym rem).1 = true := by
  simpa [Tree.wf, Tree.newTerminal] using hw

/-- The full-byte steps keep the canonical form. -/
theorem descend_wf {code : BitVec 32} {steps rem : Nat} {t t' : Tree} {cur cur' rem' : Nat}
    (h : descend code steps rem t cur = .ok (t', cur', rem')) (hw : Tree.wf t = true) : Tree.wf t' = true := by
  induction steps generalizing rem t cur with
  | zero =>
    cases h
    exact hw
  | succ steps ih =>
    simp only [descend] at h
    split at h
    · split at h
      · cases h
      · split at h
        · cases h
        · exact ih h (Tree.wf_writeChild ‹_› (Tree.wf_newInternal hw))
      · split at h
        · cases h
        · split at h
          · cases h
          · exact ih h hw
    · cases h
      exact hw

/-- The writes of the final step keep the canonical form. -/
theorem writeSlots_wf {cur c : Nat} {slots : List Byte} {t t' : Tree} (h : writeSlots cur c slots t = .ok t')
    (hw : Tree.wf t = true) : Tree.wf t' = true := by
  induction slots generalizing t with
  | nil =>
    cases h
    exact hw
  | cons s rest ih =>
    simp only [writeSlots] at h
    split at h
    · cases h
    · exact ih h (Tree.wf_writeChild ‹_› hw)

/-- Inserting an entry keeps the canonical form. -/
theorem insertEntry_wf {x : TableEntry} {t t' : Tree} (h : insertEntry x t = .ok t') (hw : Tree.wf t = true) :
    Tree.wf t' = true := by
  simp only [insertEntry] at h
  split at h
  · cases h
  · rename_i hd
    simp only [placeTerminal] at h
    split at h
    · cases h
    · exact writeSlots_wf h (Tree.wf_newTerminal _ _ (descend_wf hd hw))

/-- Inserting entries keeps the canonical form. -/
theorem insertAll_wf {table : List TableEntry} {t t' : Tree} (h : insertAll table t = .ok t')
    (hw : Tree.wf t = true) : Tree.wf t' = true := by
  induction table generalizing t with
  | nil =>
    cases h
    exact hw
  | cons x rest ih =>
    simp only [insertAll] at h
    split at h
    · cases h
    · exact ih h (insertEntry_wf ‹_› hw)

/-- The tree BUILD makes is in canonical form. -/
theorem buildTree_wf {table : List TableEntry} {t : Tree} (h : buildTree table = .ok t) : Tree.wf t = true :=
  insertAll_wf h rfl

/-- An append keeps the canonical form of OUT. -/
theorem Engine.append_wf {en : Engine} (cap0 : Nat) (v : Byte) (h : Memory.wf en.out = true) :
    Memory.wf (en.append cap0 v).out = true := Memory.wf_write _ _ _ h

/-- A completed symbol keeps the canonical form of OUT. -/
theorem Engine.emit_wf {en : Engine} (cap0 : Nat) (sym : Symbol) (h : Memory.wf en.out = true) :
    Memory.wf (en.emit cap0 sym).out = true := Memory.wf_write _ _ _ h

/-- RESET leaves OUT in canonical form. -/
theorem Engine.restart_wf (en : Engine) (cap0 : Nat) : Memory.wf (en.restart cap0).out = true := rfl

/-- An engine with unspecified registers has its OUT in canonical form. -/
theorem Engine.unspecified_wf (key : Config.FreeKey) (st : EngineStatus) (f : Option EngineFault) :
    Memory.wf (Engine.unspecified key st f).out = true := rfl

/-- The memories of the state after reset are in canonical form. -/
theorem State.reset_wf : Tree.wf State.reset.tree = true ∧ ∀ en ∈ State.reset.engines, Memory.wf en.out = true := by
  refine ⟨rfl, fun en h => ?_⟩
  obtain ⟨e, -, rfl⟩ := List.mem_map.1 h
  rfl

end Sys2Proof.Machine
end

