-- ==== Sys2Proof/Laws/Loops.lean ====
section
/-! SUPPORT. The loops of INGEST and FINISH: what one pass does, what no pass changes, and which faults they raise. -/

namespace Sys2Proof.Machine

/-- One pass of INGEST's loop. -/
theorem ingestLoop_succ (t : Tree) (eos : Symbol) (cap0 passes : Nat) (en : Engine) :
    ingestLoop t eos cap0 (passes + 1) en =
      if 8 ≤ en.validBits.toNat then
        match Tree.lookup t en.node (ingestSlot en) with
        | .error f => .stop f
        | .ok .empty => .raise .emptySlot
        | .ok (.node c h) =>
          match h.kind with
          | .terminal =>
            if h.symbol = eos then .raise .eosDecoded
            else ingestLoop t eos cap0 passes ((en.consume h.bits).emit cap0 h.symbol)
          | .internal => ingestLoop t eos cap0 passes { en.consume h.bits with node := c }
      else .ok en := rfl

/-- No pass of INGEST's loop touches `acc`, `status`, `fault` or the count of draws. -/
theorem ingestLoop_keeps {t : Tree} {eos : Symbol} {cap0 passes : Nat} {en en' : Engine}
    (h : ingestLoop t eos cap0 passes en = .ok en') :
    en'.acc = en.acc ∧ en'.status = en.status ∧ en'.fault = en.fault ∧ en'.freeKey = en.freeKey := by
  induction passes generalizing en with
  | zero =>
    cases h
    simp
  | succ passes ih =>
    rw [ingestLoop_succ] at h
    split at h
    · split at h
      · cases h
      · cases h
      · split at h
        · split at h
          · cases h
          · simpa using ih h
        · simpa using ih h
    · cases h
      simp

/-- INGEST's loop never raises `INVALID_PADDING` (41_engine_ingest.md R125). -/
theorem ingestLoop_raise {t : Tree} {eos : Symbol} {cap0 passes : Nat} {en : Engine} {k : EngineFault}
    (h : ingestLoop t eos cap0 passes en = .raise k) : k = .emptySlot ∨ k = .eosDecoded := by
  induction passes generalizing en with
  | zero => cases h
  | succ passes ih =>
    rw [ingestLoop_succ] at h
    split at h
    · split at h
      · cases h
      · cases h
        exact .inl rfl
      · split at h
        · split at h
          · cases h
            exact .inr rfl
          · exact ih h
        · exact ih h
    · cases h

/-- One pass of FINISH's loop. -/
theorem finishLoop_succ (t : Tree) (eos : Symbol) (cap0 passes : Nat) (en : Engine) :
    finishLoop t eos cap0 (passes + 1) en =
      if 0 < en.validBits.toNat then
        match Tree.lookup t en.node (finishSlot en) with
        | .error f => .stop f
        | .ok .empty => .ok en
        | .ok (.node _ h) =>
          if h.kind = .terminal ∧ h.bits.toNat ≤ en.validBits.toNat then
            if h.symbol = eos then .raise .eosDecoded
            else finishLoop t eos cap0 passes ((en.consume h.bits).emit cap0 h.symbol)
          else .ok en
      else .ok en := rfl

/-- No pass of FINISH's loop touches `acc`, `status`, `fault` or the count of draws. -/
theorem finishLoop_keeps {t : Tree} {eos : Symbol} {cap0 passes : Nat} {en en' : Engine}
    (h : finishLoop t eos cap0 passes en = .ok en') :
    en'.acc = en.acc ∧ en'.status = en.status ∧ en'.fault = en.fault ∧ en'.freeKey = en.freeKey := by
  induction passes generalizing en with
  | zero =>
    cases h
    simp
  | succ passes ih =>
    rw [finishLoop_succ] at h
    split at h
    · split at h
      · cases h
      · cases h
        simp
      · split at h
        · split at h
          · cases h
          · simpa using ih h
        · cases h
          simp
    · cases h
      simp

/-- FINISH's loop raises no fault but `EOS_DECODED` (42_engine_finish.md R145). -/
theorem finishLoop_raise {t : Tree} {eos : Symbol} {cap0 passes : Nat} {en : Engine} {k : EngineFault}
    (h : finishLoop t eos cap0 passes en = .raise k) : k = .eosDecoded := by
  induction passes generalizing en with
  | zero => cases h
  | succ passes ih =>
    rw [finishLoop_succ] at h
    split at h
    · split at h
      · cases h
      · cases h
      · split at h
        · split at h
          · cases h
            rfl
          · exact ih h
        · cases h
    · cases h

/-- A header that a lookup answers takes 1 to 8 bits. -/
theorem Tree.lookup_bits_range {t : Tree} {n c : Nat} {s : Byte} {h : NodeHeader}
    (hl : Tree.lookup t n s = .ok (.node c h)) : 1 ≤ h.bits.toNat ∧ h.bits.toNat ≤ 8 := by
  obtain ⟨_, hh⟩ := (Tree.lookup_node_iff t n s c h).1 hl
  obtain ⟨x, _, rfl⟩ := (Tree.header_ok_iff t c h).1 hh
  exact Node.header_bits_range x

/-- `valid_bits` after a pass that takes `bits` of them. -/
theorem Engine.consume_validBits_toNat {en : Engine} {bits : BitVec 4} (h : bits.toNat ≤ en.validBits.toNat) :
    (en.consume bits).validBits.toNat = en.validBits.toNat - bits.toNat := by
  rw [Engine.consume_validBits, BitVec.toNat_sub_of_le (BitVec.le_def.2 h)]

/-- Where INGEST's loop ends normally, fewer than 8 bits remain: its 8 passes are enough (41_engine_ingest.md R130). -/
theorem ingestLoop_validBits {t : Tree} {eos : Symbol} {cap0 passes : Nat} {en en' : Engine}
    (h : ingestLoop t eos cap0 passes en = .ok en') (hp : en.validBits.toNat ≤ 7 + passes) :
    en'.validBits.toNat ≤ 7 := by
  induction passes generalizing en with
  | zero =>
    cases h
    omega
  | succ passes ih =>
    rw [ingestLoop_succ] at h
    split at h
    · split at h
      · cases h
      · cases h
      · have hr := Tree.lookup_bits_range ‹_›
        split at h
        · split at h
          · cases h
          · refine ih h ?_
            rw [Engine.emit_validBits, Engine.consume_validBits_toNat (by omega)]
            omega
        · refine ih h ?_
          have := Engine.consume_validBits_toNat (en := en) (bits := _) (hr.2.trans ‹_›)
          simp only at this ⊢
          omega
    · cases h
      omega

end Sys2Proof.Machine
end

