-- ==== Sys2Proof/Laws/Ops.lean ====
section
/-! SUPPORT. Everything the shared operations and the commands can answer: one inversion lemma each. -/

namespace Sys2Proof.Machine

/-- Refusing an illegal word answers `ILLEGAL_COMMAND` where the port exists. -/
theorem State.rejectIllegal_next {s t : State} (h : s.rejectIllegal = .next t) :
    t = s.refuse .illegalCommand ∧ ∀ e, s.port = .engine e → e < s.engines.length := by
  unfold State.rejectIllegal at h
  split at h
  · cases h
    simp_all
  · split at h
    · cases h
      simp_all
    · cases h

/-- A Builder command answers a next state in three ways: it is on an engine's port, it is not accepted, or it runs. -/
theorem State.onBuilder_next {s t : State} {accepts : TreeState → Bool} {run : Result}
    (h : s.onBuilder accepts run = .next t) :
    (∃ e, s.port = .engine e ∧ e < s.engines.length ∧ t = s.refuse .illegalCommand) ∨
    (s.port = .builder ∧ accepts s.treeState = false ∧ t = s.refuse .sequenceRefused) ∨
    (s.port = .builder ∧ accepts s.treeState = true ∧ run = .next t) := by
  unfold State.onBuilder at h
  split at h
  · rename_i e he
    obtain ⟨ht, hlt⟩ := State.rejectIllegal_next h
    exact .inl ⟨e, he, hlt e he, ht⟩
  · split at h
    · exact .inr (.inr ⟨‹_›, ‹_›, h⟩)
    · cases h
      exact .inr (.inl ⟨‹_›, by simpa using ‹¬ accepts s.treeState = true›, rfl⟩)

/-- An engine command answers a next state in three ways: it is on the Builder's port, it is not accepted, or it runs on
the engine of its port. -/
theorem State.onEngine_next {s t : State} {accepts : TreeState → EngineStatus → Bool}
    {run : Nat → Engine → Result} (h : s.onEngine accepts run = .next t) :
    (s.port = .builder ∧ t = s.refuse .illegalCommand) ∨
    ∃ e en, s.port = .engine e ∧ s.engines[e]? = some en ∧
      ((accepts s.treeState en.status = false ∧ t = s.refuse .sequenceRefused) ∨
       (accepts s.treeState en.status = true ∧ run e en = .next t)) := by
  unfold State.onEngine at h
  split at h
  · exact .inl ⟨‹_›, (State.rejectIllegal_next h).1⟩
  · rename_i e he
    split at h
    · cases h
    · rename_i en hen
      refine .inr ⟨e, en, he, hen, ?_⟩
      split at h
      · exact .inr ⟨‹_›, h⟩
      · cases h
        exact .inl ⟨by simpa using ‹¬ accepts s.treeState en.status = true›, rfl⟩

/-- Where an engine command is on the port of an engine that accepts it, it runs. -/
theorem State.onEngine_run {s : State} {accepts : TreeState → EngineStatus → Bool}
    {run : Nat → Engine → Result} {e : Nat} {en : Engine} (hp : s.port = .engine e)
    (he : s.engines[e]? = some en) (ha : accepts s.treeState en.status = true) :
    s.onEngine accepts run = run e en := by
  simp [State.onEngine, hp, he, ha]

/-- Everything BUILD can answer as a next state. -/
theorem execBuild_next {s t : State} (h : execBuild s = .next t) :
    (∃ e, s.port = .engine e ∧ e < s.engines.length ∧ t = s.refuse .illegalCommand) ∨
    (s.port = .builder ∧ s.treeState ≠ .unbuilt ∧ t = s.refuse .sequenceRefused) ∨
    (s.port = .builder ∧ s.treeState = .unbuilt ∧ failedTableCheck s.params = none ∧
      ((∃ tree, buildTree s.params.table = .ok tree ∧ t = s.finishBuild tree) ∨
       (buildTree s.params.table = .error .violation ∧ t = s.raisePrefixCodeViolation))) := by
  rcases State.onBuilder_next h with h | ⟨hp, ha, ht⟩ | ⟨hp, ha, hr⟩
  · exact .inl h
  · exact .inr (.inl ⟨hp, by simpa [acceptsBuild] using ha, ht⟩)
  · refine .inr (.inr ⟨hp, by simpa [acceptsBuild] using ha, ?_⟩)
    split at hr
    · cases hr
    · refine ⟨‹_›, ?_⟩
      split at hr
      · cases hr
        exact .inl ⟨_, ‹_›, rfl⟩
      · cases hr
        exact .inr ⟨‹_›, rfl⟩
      · cases hr

/-- Everything RESET can answer as a next state. -/
theorem execReset_next {s t : State} (h : execReset s = .next t) :
    (s.port = .builder ∧ t = s.refuse .illegalCommand) ∨
    ∃ e en, s.port = .engine e ∧ s.engines[e]? = some en ∧
      ((s.treeState ≠ .built ∧ t = s.refuse .sequenceRefused) ∨
       (s.treeState = .built ∧ s.cap0 e ≠ 0 ∧ t = (s.setEngine e (en.restart (s.cap0 e))).respond .ok)) := by
  rcases State.onEngine_next h with h | ⟨e, en, hp, he, h⟩
  · exact .inl h
  · refine .inr ⟨e, en, hp, he, ?_⟩
    rcases h with ⟨ha, ht⟩ | ⟨ha, hr⟩
    · exact .inl ⟨by simpa [acceptsReset] using ha, ht⟩
    · split at hr
      · cases hr
      · cases hr
        exact .inr ⟨by simpa [acceptsReset] using ha, ‹_›, rfl⟩

/-- Everything INGEST can answer as a next state. -/
theorem execIngest_next {b : Byte} {s t : State} (h : execIngest b s = .next t) :
    (s.port = .builder ∧ t = s.refuse .illegalCommand) ∨
    ∃ e en, s.port = .engine e ∧ s.engines[e]? = some en ∧
      ((¬ (s.treeState = .built ∧ en.status = .active) ∧ t = s.refuse .sequenceRefused) ∨
       (s.treeState = .built ∧ en.status = .active ∧
        ((∃ en', ingestLoop s.tree s.params.eosSym (s.cap0 e) 8 (en.shiftIn b) = .ok en' ∧
            t = (s.setEngine e en').respond .ok) ∨
         (∃ k, ingestLoop s.tree s.params.eosSym (s.cap0 e) 8 (en.shiftIn b) = .raise k ∧
            t = s.raiseEngineFault e en k)))) := by
  rcases State.onEngine_next h with h | ⟨e, en, hp, he, h⟩
  · exact .inl h
  · refine .inr ⟨e, en, hp, he, ?_⟩
    rcases h with ⟨ha, ht⟩ | ⟨ha, hr⟩
    · exact .inl ⟨by simpa [acceptsIngest] using ha, ht⟩
    · have ha' : s.treeState = .built ∧ en.status = .active := by simpa [acceptsIngest] using ha
      refine .inr ⟨ha'.1, ha'.2, ?_⟩
      split at hr
      · cases hr
        exact .inl ⟨_, ‹_›, rfl⟩
      · cases hr
        exact .inr ⟨_, ‹_›, rfl⟩
      · cases hr

/-- Everything FINISH can answer as a next state. -/
theorem execFinish_next {s t : State} (h : execFinish s = .next t) :
    (s.port = .builder ∧ t = s.refuse .illegalCommand) ∨
    ∃ e en, s.port = .engine e ∧ s.engines[e]? = some en ∧
      ((¬ (s.treeState = .built ∧ en.status = .active) ∧ t = s.refuse .sequenceRefused) ∨
       (s.treeState = .built ∧ en.status = .active ∧
        ((∃ en', finishLoop s.tree s.params.eosSym (s.cap0 e) en.validBits.toNat en = .ok en' ∧
            ((paddingValid en' = true ∧ t = (s.setEngine e en'.complete).respond .ok) ∨
             (paddingValid en' = false ∧ t = s.raiseEngineFault e en .invalidPadding))) ∨
         (∃ k, finishLoop s.tree s.params.eosSym (s.cap0 e) en.validBits.toNat en = .raise k ∧
            t = s.raiseEngineFault e en k)))) := by
  rcases State.onEngine_next h with h | ⟨e, en, hp, he, h⟩
  · exact .inl h
  · refine .inr ⟨e, en, hp, he, ?_⟩
    rcases h with ⟨ha, ht⟩ | ⟨ha, hr⟩
    · exact .inl ⟨by simpa [acceptsFinish] using ha, ht⟩
    · have ha' : s.treeState = .built ∧ en.status = .active := by simpa [acceptsFinish] using ha
      refine .inr ⟨ha'.1, ha'.2, ?_⟩
      split at hr
      · refine .inl ⟨_, ‹_›, ?_⟩
        split at hr
        · cases hr
          exact .inl ⟨‹_›, rfl⟩
        · cases hr
          exact .inr ⟨by simpa using ‹¬ paddingValid _ = true›, rfl⟩
      · cases hr
        exact .inr ⟨_, ‹_›, rfl⟩
      · cases hr

end Sys2Proof.Machine
end

