-- ==== Sys2Proof/Laws/PerInstr.lean ====
section
/-! SUPPORT. Statements about every command as syntax, one lemma for each constructor. -/

namespace Sys2Proof.Laws

namespace OpcodeRow

/-- The `match` of the command's row in spec/opcode_table.json (30_encoding.md R71). -/
def matchBits : Instr → CmdWord
  | .build => 0x0100#16
  | .reset => 0x0200#16
  | .ingest _ => 0x0300#16
  | .finish => 0x0400#16

/-- The `mask` of the command's row in spec/opcode_table.json (30_encoding.md R71). -/
def maskBits : Instr → CmdWord
  | .build => 0xFFFF#16
  | .reset => 0xFFFF#16
  | .ingest _ => 0xFF00#16
  | .finish => 0xFFFF#16

/-- The command's word has the fixed bits of its row of the table. -/
def Statement (i : Instr) : Prop := encode i &&& maskBits i = matchBits i

theorem build : Statement .build := by unfold Statement; decide

theorem reset : Statement .reset := by unfold Statement; decide

theorem ingest (b : Byte) : Statement (.ingest b) := by
  have h : ∀ b : Byte, encode (.ingest b) &&& maskBits (.ingest b) = matchBits (.ingest b) := by decide
  exact h b

theorem finish : Statement .finish := by unfold Statement; decide

end OpcodeRow

end Sys2Proof.Laws
end

