-- ==== Sys2Proof/Laws/Step.lean ====
section
/-! SUPPORT. Everything a step can do, and the decoder's word for each encoded command. -/

namespace Sys2Proof.Machine

/-- The field `op` of a word made of two bytes. -/
@[simp] theorem opField_append (op arg : Byte) : opField (op ++ arg) = op := by
  apply BitVec.eq_of_getLsbD_eq
  intro i hi
  simp only [opField, BitVec.getLsbD_extractLsb', BitVec.getLsbD_append]
  simp only [hi, decide_true, Bool.true_and]
  rw [if_neg (by omega)]
  congr 1
  omega

/-- The field `arg` of a word made of two bytes. -/
@[simp] theorem argField_append (op arg : Byte) : argField (op ++ arg) = arg := by
  apply BitVec.eq_of_getLsbD_eq
  intro i hi
  simp only [argField, BitVec.getLsbD_extractLsb', BitVec.getLsbD_append]
  rw [if_pos (by omega)]
  simp only [hi, decide_true, Bool.true_and]
  congr 1
  omega

/-- Everything a step can do when it answers a next state: nothing was pending, the hardware reset was asserted, a
command ran on its port, or an illegal word was refused. -/
theorem step_next {s t : State} (h : step s = .next t) :
    (s.pending = [] ∧ t = s) ∨
    (∃ q rest, s.pending = .hardwareReset q :: rest ∧ t = (s.dropEvent rest).hardwareReset q) ∨
    (∃ p w rest i, s.pending = .command p w :: rest ∧ decode w = .ok i ∧ exec i (s.present p rest) = .next t) ∨
    (∃ p w rest x, s.pending = .command p w :: rest ∧ decode w = .error x ∧
      t = (s.present p rest).refuse .illegalCommand) := by
  unfold step at h
  split at h
  · cases h
    exact .inl ⟨‹_›, rfl⟩
  · cases h
    exact .inr (.inl ⟨_, _, ‹_›, rfl⟩)
  · split at h
    · exact .inr (.inr (.inl ⟨_, _, _, _, ‹_›, ‹_›, h⟩))
    · exact .inr (.inr (.inr ⟨_, _, _, _, ‹_›, ‹_›, (State.rejectIllegal_next h).1⟩))

end Sys2Proof.Machine
end

