-- ==== Sys2Proof/Tests/Slice0.lean ====
section
/-! SUPPORT. Small tests with results from the spec's own examples (95_test_vectors.md) or worked by hand from its rules,
and for each statement with hypotheses a concrete state that meets them. -/

namespace Sys2Proof.Tests

open Sys2Proof Sys2Proof.Machine Sys2Proof.Safety

/-! ## Decoding: words written out from 30_encoding.md R71 -/

theorem test_decode_build : decode 0b00000001_00000000#16 = .ok .build := by decide

theorem test_decode_reset : decode 0b00000010_00000000#16 = .ok .reset := by decide

theorem test_decode_ingest : decode 0b00000011_01011100#16 = .ok (.ingest 0x5C#8) := by decide

theorem test_decode_finish : decode 0b00000100_00000000#16 = .ok .finish := by decide

/-- 95_test_vectors.md Q10 to Q13. -/
theorem test_decode_illegal :
    decodeTableWord 16 0x0000 = none ∧ decodeTableWord 16 0x0201 = none ∧ decodeTableWord 16 0x0500 = none ∧
      decodeTableWord 16 0xFFFF = none := by decide

/-- The rows of spec/opcode_table.json, INGEST with the operand 0xA5. -/
theorem test_decodeTableWord :
    decodeTableWord 16 0x0100 = some .build ∧ decodeTableWord 16 0x0200 = some .reset ∧
      decodeTableWord 16 0x03A5 = some (.ingest 0xA5#8) ∧ decodeTableWord 16 0x0400 = some .finish := by decide

/-- The lines of 95_test_vectors.md, with the agent written out (R85). -/
theorem test_asmLine :
    asmLine (.engine 0) (.ingest 0x5C#8) = "E0: INGEST 0x5C" ∧ asmLine .builder .build = "B: BUILD" := by decide

/-- Entry 'y' of table T2 (95_test_vectors.md section 4) by the layout of R76. -/
theorem test_packEntry :
    packEntry { symbol := 0x79#9, code := 0x1ABCD#32, length := 17#6 } =
      BitVec.ofNat 64 (0x1ABCD + 17 * 2 ^ 32 + 0x79 * 2 ^ 38) := by decide

/-! ## A small configuration: 'x' = 00000000 (8 bits), 'y' = 1000000 (7 bits), EOS = sixteen 1s -/

/-- The table, with a parameter for each engine's `CAP0`. -/
def params (cap0 : List Nat) : Parameters :=
  { table := [⟨0x78#9, 0x00#32, 8#6⟩, ⟨0x79#9, 0x40#32, 7#6⟩, ⟨256#9, 0xFFFF#32, 16#6⟩], eosSym := 256#9, cap0 := cap0 }

/-- Its tree, worked by hand from 40_tree_builder.md R103. -/
def tree : Sys2Proof.Tree :=
  [.internal [(0x00, 1), (0x80, 2), (0x81, 2), (0xFF, 3)], .terminal 0x78#9 7, .terminal 0x79#9 6,
   .internal [(0xFF, 4)], .terminal 256#9 7]

/-- An engine right after RESET with `CAP0` = 4 (41_engine_ingest.md R121). -/
def fresh : Engine := { Engine.reset 0 with outCap := 4, status := .active }

/-- An engine after RESET and INGEST 0xFF: at node 3, with 8 bits since the last symbol. -/
def midCode : Engine := { fresh with node := 3, acc := 0x00FF#16, symBits := 8#6 }

/-- An engine after RESET and INGEST 0x81: 'y' and one padding bit. -/
def onePad : Engine :=
  { fresh with acc := 0x0081#16, validBits := 1#4, symBits := 1#6, outLen := 1, out := [(0, 0x79#8)] }

/-- An engine that holds the seven bits of 'y'. -/
def sevenBits : Engine := { fresh with acc := 0x0040#16, validBits := 7#4, symBits := 7#6 }

/-- The block with the tree built and two engines, the first being `en`, and a command on engine 0's port. -/
def blockWith (en : Engine) : State :=
  { State.resetWith (params [4, 4]) with
    treeState := .built, tree := tree, engines := [en, Engine.reset 1], port := .engine 0 }

/-- The same with a word pending on a port. -/
def pendingBlock (en : Engine) (p : Port) (w : CmdWord) : State := { blockWith en with pending := [.command p w] }

/-- The block before BUILD. -/
def unbuiltBlock : State := State.resetWith (params [4, 4])

/-- The next state of an outcome, or the state given where there is none. -/
def nextOf (s : State) : Result → State
  | .next t => t
  | .fault _ => s
  | .refused _ => s

/-! ## Well-formedness: one ill-formed term for each check (30_encoding.md R77, 41_engine_ingest.md R127, 00_scope.md R6) -/

theorem test_wf_good : (params [4]).wellFormed = true ∧ Instr.wellFormed (.ingest 0xFF#8) = true := by decide

theorem test_wf_nonempty : failedTableCheck { params [4] with table := [] } = some .wNonempty := by decide

theorem test_wf_len :
    failedTableCheck { params [4] with table := [⟨256#9, 0#32, 33#6⟩] } = some .wLen ∧
      failedTableCheck { params [4] with table := [⟨256#9, 0#32, 0#6⟩] } = some .wLen := by decide

theorem test_wf_code : failedTableCheck { params [4] with table := [⟨256#9, 4#32, 2#6⟩] } = some .wCode := by decide

theorem test_wf_sym :
    failedTableCheck { params [4] with table := [⟨256#9, 3#32, 2#6⟩, ⟨0x61#9, 0#32, 2#6⟩, ⟨0x61#9, 1#32, 2#6⟩] } =
      some .wSym := by decide

theorem test_wf_eos : failedTableCheck { params [4] with eosSym := 300#9 } = some .wEos := by decide

theorem test_wf_byte :
    failedTableCheck { params [4] with table := [⟨256#9, 3#32, 2#6⟩, ⟨257#9, 0#32, 2#6⟩] } = some .wByte := by decide

theorem test_wf_capacity : (params [4, 0]).wellFormed = false := by decide

theorem test_wf_engine : (params []).wellFormed = false := by decide

/-! ## One step of each command -/

/-- BUILD of the small table (by hand from R103). -/
theorem test_build_tree : buildTree (params [4]).table = .ok tree := by rfl

/-- Test (b) of R105 on an internal node, 95_test_vectors.md B5: 'b' = 0xAB01 (16 bits), then 'a' = 0xAB (8 bits). -/
theorem test_build_violation :
    buildTree [⟨0x62#9, 0xAB01#32, 16#6⟩, ⟨0x61#9, 0xAB#32, 8#6⟩, ⟨256#9, 0xFFFFFFFF#32, 32#6⟩] = .error .violation := by
  rfl

/-- 41_engine_ingest.md R121, on an engine in the middle of a code (95_test_vectors.md Q14). -/
theorem test_reset_registers : execReset (blockWith midCode) =
    .next { blockWith { fresh with freeKey := ⟨0, 0, 1⟩ } with response := some (.engine 0, .ok) } := by rfl

/-- 95_test_vectors.md Q1. -/
theorem test_reset_refused : execReset { unbuiltBlock with port := .engine 0 } =
    .next { unbuiltBlock with port := .engine 0, response := some (.engine 0, .sequenceRefused), refusalSeen := true } := by
  rfl

/-- 0x81 = `1000000 1`: 'y', and one bit stays (by hand from R123). -/
theorem test_ingest_symbol : execIngest 0x81#8 (blockWith fresh) =
    .next { blockWith onePad with response := some (.engine 0, .ok) } := by rfl

/-- The second 0xFF completes the EOS code (as 95_test_vectors.md V10). -/
theorem test_ingest_eos :
    ((nextOf unbuiltBlock (execIngest 0xFF#8 (blockWith midCode))).response = some (.engine 0, .eosDecoded)) ∧
      (nextOf unbuiltBlock (execIngest 0xFF#8 (blockWith midCode))).hostEstat 0 = some 0b000111#6 := by decide

/-- A symbol completed by FINISH, then nothing left (by hand from R141). -/
theorem test_finish_symbol :
    (nextOf unbuiltBlock (execFinish (blockWith sevenBits))).hostOutput 0 = some [0x79#8] := by decide

/-- A code cut off at a byte boundary (as 95_test_vectors.md V16). -/
theorem test_finish_truncated :
    (nextOf unbuiltBlock (execFinish (blockWith midCode))).response = some (.engine 0, .invalidPadding) := by decide

/-! ## Free values: the fields the spec fixes hold whatever the free ones are -/

/-- After a fault only `status` and `fault` have values (60_exceptions.md R183). -/
theorem test_fault_fixes_status (key : Config.FreeKey) :
    (Engine.unspecified key .faulted (some .emptySlot)).estat = 0b010011#6 := by
  show faultCode (some .emptySlot) ++ EngineStatus.code .faulted = 0b010011#6
  decide

/-- OUT is total (20_memory.md R56): the Host reads the written byte, and any value at an index not written. -/
theorem test_out_total : (blockWith onePad.complete).hostOutByte 0 0 = some 0x79#8 ∧
    ((blockWith onePad.complete).hostOutByte 0 5).isSome = true := by decide

/-! ## The statements' hypotheses can be met -/

theorem bufferOk_fresh : BufferOk 4 fresh :=
  ⟨by decide, by decide, by simp [fresh, Engine.reset, Memory.read]⟩

theorem bufferOk_onePad : BufferOk 4 onePad := by
  refine ⟨by decide, by decide, fun i => ?_⟩
  cases i <;> simp [onePad, Memory.read]

theorem tableWellFormed_params : (params [4, 4]).tableWellFormed = true := by decide

/-- An engine of the built block meets the invariant where what the invariant asks of its status holds. -/
theorem inv_blockWith {en : Engine} (hw : Memory.wf en.out = true) (hf : en.fault = none ↔ en.status ≠ .faulted)
    (hk : en.freeKey.epoch = 0 ∧ en.freeKey.engine = 0)
    (hl : en.status = .active → LiveOk tree 4 en) (hr : en.status = .done → BufferOk 4 en) : Inv (blockWith en) := by
  refine ⟨rfl, fun _ => ⟨tableWellFormed_params, rfl⟩, fun e en' he => ?_⟩
  match e, he with
  | 0, he =>
    cases he
    exact ⟨hw, hk, hf, fun h => absurd rfl h, hl, hr⟩
  | 1, he =>
    cases he
    exact ⟨rfl, ⟨rfl, rfl⟩, by decide, fun _ => rfl, fun h => by simp [Engine.reset] at h, fun h => by simp [Engine.reset] at h⟩
  | e + 2, he => simp [blockWith] at he

theorem atDepth_root : atDepth tree 0 0 := ⟨rfl, _, rfl⟩

theorem atDepth_mid : atDepth tree 1 3 := ⟨⟨_, rfl⟩, 0, 0xFF#8, atDepth_root, rfl⟩

theorem witness_inv_fresh : Inv (blockWith fresh) :=
  inv_blockWith rfl (by decide) ⟨rfl, rfl⟩ (fun _ => ⟨bufferOk_fresh, by decide, 0, by decide, atDepth_root, by decide⟩)
    (fun h => by simp [fresh, Engine.reset] at h)

theorem witness_inv_midCode : Inv (blockWith midCode) :=
  inv_blockWith rfl (by decide) ⟨rfl, rfl⟩
    (fun _ => ⟨⟨by decide, by decide, by simp [midCode, fresh, Engine.reset, Memory.read]⟩, by decide, 1, by decide,
      atDepth_mid, by decide⟩)
    (fun h => by simp [midCode, fresh, Engine.reset] at h)

theorem witness_inv_onePad : Inv (blockWith onePad) :=
  inv_blockWith rfl (by decide) ⟨rfl, rfl⟩ (fun _ => ⟨bufferOk_onePad, by decide, 0, by decide, atDepth_root, by decide⟩)
    (fun h => by simp [onePad, fresh, Engine.reset] at h)

theorem witness_inv_sevenBits : Inv (blockWith sevenBits) :=
  inv_blockWith rfl (by decide) ⟨rfl, rfl⟩
    (fun _ => ⟨⟨by decide, by decide, by simp [sevenBits, fresh, Engine.reset, Memory.read]⟩, by decide, 0, by decide,
      atDepth_root, by decide⟩)
    (fun h => by simp [sevenBits, fresh, Engine.reset] at h)

theorem witness_inv_done : Inv (blockWith onePad.complete) :=
  inv_blockWith rfl (by decide) ⟨rfl, rfl⟩ (fun h => by simp [Engine.complete] at h)
    (fun _ => ⟨by decide, by decide, bufferOk_onePad.listed⟩)

/-- What the Host does next is no matter of the invariant. -/
theorem inv_pending {en : Engine} {p : Port} {w : CmdWord} (h : Inv (blockWith en)) : Inv (pendingBlock en p w) :=
  ⟨h.engineCount, h.treeIsBuilt, fun e en he =>
    let k := h.engineOk e en he
    ⟨k.outCanonical, k.ownKey, k.faultIffFaulted, k.idleUnlessBuilt, k.live, k.result⟩⟩

theorem witness_DecodeAndEncodeAgree :
    Instr.wellFormed (.ingest 0xFF#8) = true ∧ decode 0x0400#16 = .ok .finish := by decide

theorem witness_TableEntryWordLayout :
    unpackEntry 0x00004007FFFFFFFF#64 = some { symbol := 256#9, code := 0xFFFFFFFF#32, length := 7#6 } := by decide

theorem witness_StepRunsPresentedCommand :
    ({ blockWith fresh with pending := [.command (.engine 0) 0x03FF#16] } : State).pending =
      .command (.engine 0) 0x03FF#16 :: [] ∧ decode 0x03FF#16 = .ok (.ingest 0xFF#8) := by decide

theorem witness_HardwareResetEvent :
    ({ unbuiltBlock with pending := [.hardwareReset none] } : State).pending = .hardwareReset none :: [] ∧
    ({ unbuiltBlock with pending := [.hardwareReset (some (params [1]))] } : State).pending =
      .hardwareReset (some (params [1])) :: [] := by decide

/-- The boundary words of each clause: below and above the opcodes, `arg` 1, and the wrong port; and a legal word. -/
theorem witness_IllegalCommandsRefused :
    portExists (blockWith fresh) .builder ∧ portExists (blockWith fresh) (.engine 1) ∧
    (0x00FF#16).toNat / 256 = 0 ∧ (0x0500#16).toNat / 256 = 5 ∧
    ((0x0401#16).toNat / 256 = 4 ∧ (0x0401#16).toNat % 256 ≠ 0) ∧
    ((0x0100#16).toNat / 256 = 1 ∧ Port.engine 1 ≠ .builder) ∧ (0x0400#16).toNat / 256 = 4 ∧
    (0x0300#16).toNat / 256 = 3 :=
  ⟨trivial, by unfold portExists; decide, by decide, by decide, by decide, by decide, by decide, by decide⟩

theorem witness_AbsentEngineRefused :
    ({ blockWith fresh with pending := [.command (.engine 2) 0#16] } : State).pending =
      .command (.engine 2) 0#16 :: [] ∧ (blockWith fresh).engines.length ≤ 2 := by decide

/-- Each clause: the Builder's port before and after BUILD; an engine that is not accepted and one that is. -/
theorem witness_AcceptanceTable :
    unbuiltBlock.port = .builder ∧ unbuiltBlock.treeState = .unbuilt ∧
    ({ blockWith fresh with port := .builder } : State).treeState ≠ .unbuilt ∧
    addressed { unbuiltBlock with port := .engine 1 } 1 (Engine.reset 1) ∧ unbuiltBlock.treeState ≠ .built ∧
    addressed (blockWith fresh) 0 fresh ∧ (blockWith fresh).treeState = .built ∧ fresh.status = .active ∧
    addressed { blockWith fresh with port := .engine 1 } 1 (Engine.reset 1) ∧ (Engine.reset 1).status ≠ .active ∧
    (∃ t, exec .finish (blockWith fresh) = .next t) := by
  refine ⟨rfl, rfl, by decide, ⟨rfl, rfl⟩, by decide, ⟨rfl, rfl⟩, rfl, rfl, ⟨rfl, rfl⟩, by decide, _, rfl⟩

theorem witness_RefusedCommandChangesNothing :
    ∃ t, step { blockWith fresh with pending := [.command (.engine 1) 0x0400#16] } = .next t ∧
      t.response = some (.engine 1, .sequenceRefused) := ⟨_, rfl, rfl⟩

theorem witness_ResponsesOfEachCommand :
    (∃ t, exec .build unbuiltBlock = .next t) ∧ (∃ t, exec .reset (blockWith fresh) = .next t) ∧
    (∃ t, exec (.ingest 0x01#8) (blockWith fresh) = .next t) ∧ (∃ t, exec .finish (blockWith onePad) = .next t) ∧
    (∃ t, exec .build (blockWith fresh) = .next t) ∧ (∃ t, exec .reset unbuiltBlock = .next t) :=
  ⟨⟨_, rfl⟩, ⟨_, rfl⟩, ⟨_, rfl⟩, ⟨_, rfl⟩, ⟨_, rfl⟩, ⟨_, rfl⟩⟩

theorem witness_IllFormedTableRefused :
    unbuiltBlock.port = .builder ∧ unbuiltBlock.treeState = .unbuilt := by decide

/-- Both clauses: a prefix-free table, and one with two equal codes. -/
theorem witness_BuildSucceedsIffPrefixFree :
    unbuiltBlock.port = .builder ∧ unbuiltBlock.treeState = .unbuilt ∧ unbuiltBlock.params.tableWellFormed = true ∧
    prefixFree unbuiltBlock.params.table ∧
    ({ params [4] with table := [⟨0x61#9, 2#32, 2#6⟩, ⟨256#9, 2#32, 2#6⟩] } : Parameters).tableWellFormed = true ∧
    ¬ prefixFree [⟨0x61#9, 2#32, 2#6⟩, ⟨256#9, 2#32, 2#6⟩] := by
  refine ⟨rfl, rfl, by decide, by unfold prefixFree; decide, by decide, by unfold prefixFree; decide⟩

/-- `TreeHoldsExactlyTheCodes` and `BuiltTreeSize`. -/
theorem witness_TreeHoldsExactlyTheCodes :
    (params [4]).tableWellFormed = true ∧ buildTree (params [4]).table = .ok tree ∧ walk tree [0xFF#8] = some 3 ∧
    Tree.child tree 3 0xFF#8 = .ok (some 4) := ⟨by decide, rfl, rfl, rfl⟩

theorem witness_BuiltTreeSize :
    (params [4]).tableWellFormed = true ∧ buildTree (params [4]).table = .ok tree := ⟨by decide, rfl⟩

theorem witness_BuildFrame : ∃ t, exec .build unbuiltBlock = .next t := ⟨_, rfl⟩

theorem witness_ResetStartsDecode :
    addressed (blockWith midCode) 0 midCode ∧ (blockWith midCode).treeState = .built ∧
    (blockWith midCode).cap0 0 ≠ 0 ∧ addressed { unbuiltBlock with port := .engine 0 } 0 (Engine.reset 0) ∧
    unbuiltBlock.treeState ≠ .built := ⟨⟨rfl, rfl⟩, rfl, by decide, ⟨rfl, rfl⟩, by decide⟩

theorem witness_ZeroCapacityRefused :
    addressed { blockWith fresh with params := params [0, 4] } 0 fresh ∧
    ({ blockWith fresh with params := params [0, 4] } : State).treeState = .built ∧
    ({ blockWith fresh with params := params [0, 4] } : State).cap0 0 = 0 := ⟨⟨rfl, rfl⟩, rfl, rfl⟩

/-- A pass that completes a symbol, and one that goes down a level. -/
theorem witness_IngestCompletes :
    addressed (blockWith fresh) 0 fresh ∧ (blockWith fresh).treeState = .built ∧ fresh.status = .active ∧
    IngestPasses tree 256#9 4 (ingested 0x81#8 fresh) onePad ∧ onePad.validBits.toNat < 8 ∧
    IngestPasses tree 256#9 4 (ingested 0xFF#8 fresh) midCode ∧ midCode.validBits.toNat < 8 :=
  ⟨⟨rfl, rfl⟩, rfl, rfl,
    .single (.symbol (ingested 0x81#8 fresh) 2 0x79#9 6 (by decide) ⟨_, rfl, rfl⟩ rfl (by decide)), by decide,
    .single (.descend (ingested 0xFF#8 fresh) 3 (by decide) ⟨_, rfl, rfl⟩ ⟨_, rfl⟩), by decide⟩

theorem witness_IngestRaisesEmptySlot :
    addressed (blockWith fresh) 0 fresh ∧ (blockWith fresh).treeState = .built ∧ fresh.status = .active ∧
    IngestPasses tree 256#9 4 (ingested 0x01#8 fresh) (ingested 0x01#8 fresh) ∧
    8 ≤ (ingested 0x01#8 fresh).validBits.toNat ∧ ingestChild tree (ingested 0x01#8 fresh) none :=
  ⟨⟨rfl, rfl⟩, rfl, rfl, .refl, by decide, _, rfl, rfl⟩

theorem witness_IngestRaisesEosDecoded :
    addressed (blockWith midCode) 0 midCode ∧ (blockWith midCode).treeState = .built ∧ midCode.status = .active ∧
    IngestPasses tree 256#9 4 (ingested 0xFF#8 midCode) (ingested 0xFF#8 midCode) ∧
    8 ≤ (ingested 0xFF#8 midCode).validBits.toNat ∧ ingestChild tree (ingested 0xFF#8 midCode) (some 4) ∧
    tree[4]? = some (.terminal 256#9 7) :=
  ⟨⟨rfl, rfl⟩, rfl, rfl, .refl, by decide, ⟨_, rfl, rfl⟩, rfl⟩

theorem witness_IngestFrame :
    addressed (blockWith fresh) 0 fresh ∧ ∃ t, exec (.ingest 0x81#8) (blockWith fresh) = .next t ∧
      t.response = some (.engine 0, .ok) := ⟨⟨rfl, rfl⟩, _, rfl, rfl⟩

/-- With a pass (seven bits of 'y') and without one (one padding bit). -/
theorem witness_FinishCompletes :
    addressed (blockWith onePad) 0 onePad ∧ (blockWith onePad).treeState = .built ∧ onePad.status = .active ∧
    FinishPasses tree 256#9 4 onePad onePad ∧ finishStops tree onePad ∧ onePad.symBits.toNat ≤ 7 ∧
    (∀ i, i < onePad.symBits.toNat → onePad.acc.getLsbD i = true) ∧
    FinishPasses tree 256#9 4 sevenBits (symbolCompleted 4 0x79#9 7 sevenBits) ∧
    finishStops tree (symbolCompleted 4 0x79#9 7 sevenBits) :=
  ⟨⟨rfl, rfl⟩, rfl, rfl, .refl, .inr (.inr (.inr ⟨2, 0x79#9, 6, ⟨_, rfl, rfl⟩, rfl, by decide⟩)), by decide, by decide,
    .single (.symbol sevenBits 2 0x79#9 6 ⟨_, rfl, rfl⟩ rfl (by decide) (by decide)), .inl (by decide)⟩

/-- Both clauses: 8 bits since the last symbol, and one padding bit that is 0. -/
theorem witness_FinishRaisesInvalidPadding :
    addressed (blockWith midCode) 0 midCode ∧ (blockWith midCode).treeState = .built ∧ midCode.status = .active ∧
    FinishPasses tree 256#9 4 midCode midCode ∧ finishStops tree midCode ∧ 7 < midCode.symBits.toNat ∧
    finishStops tree { onePad with acc := 0x0080#16 } ∧
    (∃ i, i < ({ onePad with acc := 0x0080#16 } : Engine).symBits.toNat ∧
      ({ onePad with acc := 0x0080#16 } : Engine).acc.getLsbD i = false) :=
  ⟨⟨rfl, rfl⟩, rfl, rfl, .refl, .inl (by decide), by decide,
    .inr (.inr (.inr ⟨1, 0x78#9, 7, ⟨_, rfl, rfl⟩, rfl, by decide⟩)), 0, by decide, by decide⟩

/-- With the symbol 'y' as the reserved one, its seven bits fit in the remaining bits. -/
theorem witness_FinishRaisesEosDecoded :
    addressed { blockWith sevenBits with params := { params [4, 4] with eosSym := 0x79#9 } } 0 sevenBits ∧
    (blockWith sevenBits).treeState = .built ∧ sevenBits.status = .active ∧ FinishPasses tree 0x79#9 4 sevenBits sevenBits ∧
    finishChild tree sevenBits (some 2) ∧ tree[2]? = some (.terminal 0x79#9 6) ∧
    (6 : Fin 8).val + 1 ≤ sevenBits.validBits.toNat :=
  ⟨⟨rfl, rfl⟩, rfl, rfl, .refl, ⟨_, rfl, rfl⟩, rfl, by decide⟩

theorem witness_FinishFrame :
    addressed (blockWith onePad) 0 onePad ∧ ∃ t, exec .finish (blockWith onePad) = .next t ∧
      t.response = some (.engine 0, .ok) := ⟨⟨rfl, rfl⟩, _, rfl, rfl⟩

theorem witness_FittingTerminalStandsInEverySlot :
    (params [4]).tableWellFormed = true ∧ buildTree (params [4]).table = .ok tree ∧ walk tree [] = some 0 ∧
    (0x80#8).toNat / 2 ^ (8 - 7) = (0x81#8).toNat / 2 ^ (8 - 7) ∧ Tree.child tree 0 0x80#8 = .ok (some 2) ∧
    tree[2]? = some (.terminal 0x79#9 6) ∧ (6 : Fin 8).val + 1 ≤ 7 :=
  ⟨by decide, rfl, rfl, by decide, rfl, rfl, by decide⟩

/-- Seven bits of 'y' and one fill bit, which is 1 in place of 0: another slot, the same answer. -/
theorem witness_FinishFillUnobservable :
    Inv (blockWith sevenBits) ∧ addressed (blockWith sevenBits) 0 sevenBits ∧
    (blockWith sevenBits).treeState = .built ∧ sevenBits.status = .active ∧
    filledSlot 1 sevenBits = 0x81#8 ∧ finishSlot sevenBits = 0x80#8 ∧
    ∃ t, finishFilled (fun _ => 1) (blockWith sevenBits) 0 sevenBits = .next t ∧ t.hostOutput 0 = some [0x79#8] :=
  ⟨witness_inv_sevenBits, ⟨rfl, rfl⟩, rfl, rfl, by decide, by decide, _, rfl, by decide⟩

theorem witness_FaultEntry :
    ∃ t, exec .finish (blockWith midCode) = .next t ∧ (blockWith midCode).port = .engine 0 ∧
      t.response = some (.engine 0, EngineFault.response .invalidPadding) := ⟨_, rfl, rfl, rfl⟩

/-- Both ways: RESET, which leaves the same, and a refused INGEST. -/
theorem witness_UnspecifiedRegistersUnread :
    addressed (blockWith onePad.complete) 0 onePad.complete ∧ onePad.complete.status ≠ .active ∧
    ({ onePad.complete with node := 9 } : Engine).status = onePad.complete.status ∧
    ({ onePad.complete with node := 9 } : Engine).fault = onePad.complete.fault ∧
    ({ onePad.complete with node := 9 } : Engine).freeKey = onePad.complete.freeKey ∧
    (∃ t, exec .reset (blockWith onePad.complete) = .next t) ∧
    (∃ t, exec (.ingest 0x41#8) (blockWith onePad.complete) = .next t) :=
  ⟨⟨rfl, rfl⟩, by decide, rfl, rfl, rfl, ⟨_, rfl⟩, ⟨_, rfl⟩⟩

theorem witness_BuildFailureIsFinal :
    ∃ t, step { unbuiltBlock with treeState := .buildFailed, pending := [.command (.engine 0) 0x0200#16] } = .next t :=
  ⟨_, rfl⟩

/-- A command and a hardware reset. -/
theorem witness_StatusTransitions :
    (∃ t, step { blockWith fresh with pending := [.command (.engine 0) 0x0381#16] } = .next t) ∧
    (∃ t, step { blockWith fresh with pending := [.hardwareReset none] } = .next t) := ⟨⟨_, rfl⟩, ⟨_, rfl⟩⟩

theorem witness_BuiltTreeIsImmutable :
    (pendingBlock fresh .builder 0x0100#16).treeState ≠ .unbuilt ∧
    (∀ q rest, (pendingBlock fresh .builder 0x0100#16).pending ≠ .hardwareReset q :: rest) ∧
    ∃ t, step (pendingBlock fresh .builder 0x0100#16) = .next t :=
  ⟨by decide, by simp [pendingBlock], _, rfl⟩

/-- A block like `blockWith fresh` but for engine 1, the mark of the run and the count of hardware resets. -/
def otherBlock : State := { blockWith fresh with engines := [fresh, midCode], refusalSeen := true, freeEpoch := 3 }

theorem witness_EngineReadsOnlyItself :
    (blockWith fresh).port = .engine 0 ∧ otherBlock.port = .engine 0 ∧ (blockWith fresh).params = otherBlock.params ∧
    (blockWith fresh).treeState = otherBlock.treeState ∧ (blockWith fresh).tree = otherBlock.tree ∧
    (blockWith fresh).engines[0]? = otherBlock.engines[0]? ∧
    ∃ t, exec (.ingest 0x81#8) (blockWith fresh) = .next t := ⟨rfl, rfl, rfl, rfl, rfl, rfl, _, rfl⟩

theorem witness_InterleavingCommutes :
    (0 : Nat) ≠ 1 ∧ ∃ a ab, exec (.ingest 0xFF#8) { blockWith fresh with port := .engine 0 } = .next a ∧
      exec .reset { a with port := .engine 1 } = .next ab := ⟨by decide, _, _, rfl, rfl⟩

theorem witness_StepKeepsInvariant :
    Inv (pendingBlock midCode (.engine 0) 0x0300#16) ∧
    ∃ t, step (pendingBlock midCode (.engine 0) 0x0300#16) = .next t := ⟨inv_pending witness_inv_midCode, _, rfl⟩

theorem witness_EveryCommandIsAnswered :
    Inv (pendingBlock fresh (.engine 1) 0x0000#16) ∧
    (pendingBlock fresh (.engine 1) 0x0000#16).params.wellFormed = true ∧
    (pendingBlock fresh (.engine 1) 0x0000#16).pending = .command (.engine 1) 0x0000#16 :: [] ∧
    portExists (pendingBlock fresh (.engine 1) 0x0000#16) (.engine 1) :=
  ⟨inv_pending witness_inv_fresh, by decide, rfl, by unfold portExists; decide⟩

/-- At the root and inside a code. -/
theorem witness_CursorAtRootIffFewBits :
    Inv (blockWith onePad) ∧ (blockWith onePad).engines[0]? = some onePad ∧ onePad.status = .active ∧
    Inv (blockWith midCode) ∧ (blockWith midCode).engines[0]? = some midCode ∧ midCode.status = .active :=
  ⟨witness_inv_onePad, rfl, rfl, witness_inv_midCode, rfl, rfl⟩

theorem witness_GarbageAccumulatorBitsUnread :
    Inv (blockWith onePad) ∧ addressed (blockWith onePad) 0 onePad ∧ onePad.status = .active ∧
    (∀ j, j < onePad.validBits.toNat → (0xFFFF#16).getLsbD j = onePad.acc.getLsbD j) ∧
    ∃ t, exec (.ingest 0x00#8) (blockWith onePad) = .next t :=
  ⟨witness_inv_onePad, ⟨rfl, rfl⟩, rfl, by decide, _, rfl⟩

theorem witness_LinearGrowth :
    (1 : Nat) ≤ 2 ∧ ([1#8, 2#8, 3#8].foldl (fun x b => x.append 2 b) (fresh.restart 2)).outCap = 4 := by decide

/-- A clause each: `DONE`, `ACTIVE`, and the engine that has not been reset. -/
theorem witness_HostReadsResultInDone :
    Inv (blockWith onePad.complete) ∧ (blockWith onePad.complete).engines[0]? = some onePad.complete ∧
    onePad.complete.status = .done ∧ Inv (blockWith fresh) ∧ (blockWith fresh).engines[0]? = some fresh ∧
    fresh.status = .active ∧ (blockWith fresh).engines[1]? = some (Engine.reset 1) ∧
    (Engine.reset 1).status ≠ .active ∧ (Engine.reset 1).status ≠ .done :=
  ⟨witness_inv_done, rfl, rfl, witness_inv_fresh, rfl, rfl, rfl, by decide, by decide⟩

/-- `DecodeMeetsReference`: an engine in the middle of another decode. -/
theorem witness_DecodeMeetsReference :
    Inv (blockWith midCode) ∧ (blockWith midCode).treeState = .built ∧ 0 < (blockWith midCode).engines.length ∧
    (blockWith midCode).cap0 0 ≠ 0 := ⟨witness_inv_midCode, rfl, by decide, by decide⟩

theorem witness_DecodeForgetsThePast :
    (blockWith midCode).params = (blockWith fresh).params ∧
    (blockWith midCode).treeState = (blockWith fresh).treeState ∧ (blockWith midCode).tree = (blockWith fresh).tree ∧
    0 < (blockWith midCode).engines.length ∧ 0 < (blockWith fresh).engines.length ∧
    ∃ t, decodeLiteral 0 [0x81#8] (blockWith midCode) = .next t := ⟨rfl, rfl, rfl, by decide, by decide, _, rfl⟩

theorem witness_OutputBoundedByInput :
    Inv (blockWith midCode) ∧ (blockWith midCode).treeState = .built ∧ 0 < (blockWith midCode).engines.length ∧
    ∃ t, decodeLiteral 0 [0x81#8] (blockWith midCode) = .next t ∧
      t.decodeResult 0 = some (.output [0x79#8]) := ⟨witness_inv_midCode, rfl, by decide, _, rfl, rfl⟩

theorem eosAllOnes_params : eosAllOnes (params [4, 4]) := by
  unfold eosAllOnes
  decide

theorem eosLong_params : eosLong (params [4, 4]) := by
  unfold eosLong
  decide

/-- `RoundTrip`: two symbols of the table, and the EOS entry. -/
theorem witness_RoundTrip :
    Inv (blockWith fresh) ∧ (blockWith fresh).treeState = .built ∧ 0 < (blockWith fresh).engines.length ∧
    (blockWith fresh).cap0 0 ≠ 0 ∧ eosAllOnes (blockWith fresh).params ∧ eosLong (blockWith fresh).params ∧
    (∀ x ∈ (params [4]).table.take 2, x ∈ (params [4]).table ∧ x.symbol ≠ (params [4]).eosSym) ∧
    (∃ x ∈ (params [4]).table, x.symbol = (params [4]).eosSym) :=
  ⟨witness_inv_fresh, rfl, by decide, by decide, eosAllOnes_params, eosLong_params, by decide, by decide⟩

/-- `ExplicitEosRejected`: 'x', then the EOS code, then nothing. -/
theorem witness_ExplicitEosRejected :
    Inv (blockWith fresh) ∧ (blockWith fresh).treeState = .built ∧ 0 < (blockWith fresh).engines.length ∧
    (blockWith fresh).cap0 0 ≠ 0 ∧ eosAllOnes (blockWith fresh).params ∧
    streamBits [0x00#8, 0xFF#8, 0xFF#8] =
      ((params [4]).table.take 1).flatMap codeBits ++ codeBits ⟨256#9, 0xFFFF#32, 16#6⟩ ++ [] :=
  ⟨witness_inv_fresh, rfl, by decide, by decide, eosAllOnes_params, by decide⟩

/-- The complete code 'a' = 0, EOS = 1. -/
def completeParams : Parameters :=
  { table := [⟨0x61#9, 0#32, 1#6⟩, ⟨256#9, 1#32, 1#6⟩], eosSym := 256#9, cap0 := [4] }

/-- The tree BUILD makes of the complete code. -/
def completeTree : Sys2Proof.Tree := (nextOf (State.resetWith completeParams) (execBuild (State.resetWith completeParams))).tree

/-- The complete code's tree built, and its engine after RESET. -/
def completeBlock : State :=
  { State.resetWith completeParams with
    treeState := .built, tree := completeTree, engines := [fresh], port := .engine 0 }

theorem buildTree_complete : buildTree completeParams.table = .ok completeTree := by rfl

theorem witness_CompleteCodeHasNoEmptySlot :
    Inv completeBlock ∧ codeComplete completeBlock.params.table ∧
    ∃ t, exec (.ingest 0x00#8) completeBlock = .next t := by
  refine ⟨⟨rfl, fun _ => ⟨by decide, buildTree_complete⟩, fun e en he => ?_⟩, by unfold codeComplete; decide, _, rfl⟩
  match e, he with
  | 0, he =>
    cases he
    exact ⟨rfl, ⟨rfl, rfl⟩, by decide, fun h => absurd rfl h,
      fun _ => ⟨bufferOk_fresh, by decide, 0, by decide, ⟨rfl, _, rfl⟩, by decide⟩,
      fun h => by simp [fresh, Engine.reset] at h⟩
  | e + 1, he => simp [completeBlock] at he

end Sys2Proof.Tests
end

section
/-! SUPPORT. The built tree is a tree: its nodes have levels, at most 3 (10_state.md R22), and every slot leads to a
node that is there (40_tree_builder.md R107, R108). -/

namespace Sys2Proof.Safety

open Sys2Proof.Machine

/-- What makes a node internal can be read off its header. -/
theorem isInternal_iff_header (t : Tree) (n : Nat) :
    isInternal t n ↔ ∃ h, Tree.header t n = .ok h ∧ h.kind = .internal := by
  simp only [isInternal, Tree.header_ok_iff]
  constructor
  · rintro ⟨slots, hn⟩
    exact ⟨_, ⟨_, hn, rfl⟩, rfl⟩
  · rintro ⟨h, ⟨x, hn, rfl⟩, hk⟩
    cases x with
    | internal slots => exact ⟨slots, hn⟩
    | terminal sym k => cases hk

/-- A node with the same header is internal alike. -/
theorem isInternal_congr {t t' : Tree} {n : Nat} (h : Tree.header t' n = Tree.header t n) :
    isInternal t' n ↔ isInternal t n := by
  simp only [isInternal_iff_header, h]

/-- An internal node is allocated. -/
theorem isInternal.lt_length {t : Tree} {n : Nat} (h : isInternal t n) : n < t.length := by
  obtain ⟨slots, hn⟩ := h
  exact (List.getElem?_eq_some_iff.1 hn).1

/-- A node that has a slot is internal. -/
theorem isInternal_of_child {t : Tree} {n : Nat} {s : Byte} {r : Option Nat} (h : Tree.child t n s = .ok r) :
    isInternal t n := by
  obtain ⟨slots, hn, -⟩ := (Tree.child_ok_iff t n s r).1 h
  exact ⟨slots, hn⟩

/-- A new internal node is internal, and makes no other node so. -/
theorem isInternal_newInternal (t : Tree) (n : Nat) :
    isInternal (Tree.newInternal t).1 n ↔ isInternal t n ∨ n = t.length := by
  simp only [isInternal, Tree.newInternal, List.getElem?_append]
  split
  · simp only [or_iff_left (Nat.ne_of_lt ‹_›)]
  · rename_i h
    simp only [List.getElem?_singleton, Option.ite_none_right_eq_some, Option.some.injEq, Node.internal.injEq,
      List.nil_eq, exists_eq_right, List.getElem?_eq_none (Nat.le_of_not_lt h), reduceCtorEq, exists_const, false_or]
    omega

/-- A new terminal makes no node internal. -/
theorem isInternal_newTerminal (t : Tree) (sym : Symbol) (rem n : Nat) :
    isInternal (Tree.newTerminal t sym rem).1 n ↔ isInternal t n := by
  simp only [isInternal, Tree.newTerminal, List.getElem?_append]
  split
  · rfl
  · rename_i h
    simp [List.getElem?_eq_none (Nat.le_of_not_lt h), List.getElem?_singleton]

/-- A new internal node has empty slots only, and leaves every other slot as it was. -/
theorem child_newInternal_some (t : Tree) (m : Nat) (s : Byte) (c : Nat) :
    Tree.child (Tree.newInternal t).1 m s = .ok (some c) ↔ Tree.child t m s = .ok (some c) := by
  simp only [Tree.child_ok_iff, Tree.newInternal, List.getElem?_append]
  split
  · rfl
  · rename_i h
    simp only [List.getElem?_eq_none (Nat.le_of_not_lt h), List.getElem?_singleton]
    split <;> simp [Memory.read_nil]

/-- A new terminal owns no slot, and leaves every other slot as it was. -/
theorem child_newTerminal_some (t : Tree) (sym : Symbol) (rem m : Nat) (s : Byte) (c : Nat) :
    Tree.child (Tree.newTerminal t sym rem).1 m s = .ok (some c) ↔ Tree.child t m s = .ok (some c) := by
  simp only [Tree.child_ok_iff, Tree.newTerminal, List.getElem?_append]
  split
  · rfl
  · rename_i h
    simp only [List.getElem?_eq_none (Nat.le_of_not_lt h), List.getElem?_singleton]
    split <;> simp

/-- `level` gives the depth of every internal node: the root, which is internal, has level 0; every occupied slot leads
to an allocated node, and where that is internal it lies one level below its owner, at most at level 3. -/
structure Levels (t : Tree) (level : Nat → Nat) : Prop where
  rootInternal : isInternal t 0
  rootLevel : level 0 = 0
  childAllocated : ∀ m s c, Tree.child t m s = .ok (some c) → c < t.length
  childLevel : ∀ m s c, Tree.child t m s = .ok (some c) → isInternal t c → level c = level m + 1 ∧ level c ≤ 3

/-- A node that lies at a depth has that level. -/
theorem Levels.level_of_atDepth {t : Tree} {level : Nat → Nat} (h : Levels t level) {d n : Nat}
    (hd : atDepth t d n) : level n = d := by
  induction d generalizing n with
  | zero =>
    obtain ⟨rfl, -⟩ := hd
    exact h.rootLevel
  | succ d ih =>
    obtain ⟨hi, m, s, hm, hc⟩ := hd
    rw [(h.childLevel m s n hc hi).1, ih hm]

/-- A node at a depth is internal. -/
theorem atDepth.isInternal {t : Tree} {d n : Nat} (hd : atDepth t d n) : isInternal t n := by
  cases d with
  | zero => exact hd.2
  | succ d => exact hd.1

/-- Only the root lies at depth 0, and it lies at no other. -/
theorem Levels.depth_zero_iff {t : Tree} {level : Nat → Nat} (h : Levels t level) {d n : Nat}
    (hd : atDepth t d n) : d = 0 ↔ n = 0 := by
  constructor
  · rintro rfl
    exact hd.1
  · rintro rfl
    rw [← h.level_of_atDepth hd, h.rootLevel]

/-- The root lies at depth 0. -/
theorem Levels.atDepth_root {t : Tree} {level : Nat → Nat} (h : Levels t level) : atDepth t 0 0 :=
  ⟨rfl, h.rootInternal⟩

/-- An internal node in a slot of a node at depth `d` lies at depth `d + 1`, which is at most 3. -/
theorem Levels.atDepth_child {t : Tree} {level : Nat → Nat} (h : Levels t level) {d n c : Nat} {s : Byte}
    (hd : atDepth t d n) (hc : Tree.child t n s = .ok (some c)) (hi : isInternal t c) :
    atDepth t (d + 1) c ∧ d + 1 ≤ 3 := by
  obtain ⟨h1, h2⟩ := h.childLevel n s c hc hi
  rw [h.level_of_atDepth hd] at h1
  exact ⟨⟨hi, n, s, hd, hc⟩, by omega⟩

/-- Levels carry over to a tree that allocates nodes and changes no slot and no internal node. -/
theorem Levels.of_same_slots {t t' : Tree} {level : Nat → Nat} (h : Levels t level) (hl : t.length ≤ t'.length)
    (hc : ∀ m s c, Tree.child t' m s = .ok (some c) ↔ Tree.child t m s = .ok (some c))
    (hi : ∀ n, isInternal t' n ↔ isInternal t n) : Levels t' level where
  rootInternal := (hi 0).2 h.rootInternal
  rootLevel := h.rootLevel
  childAllocated := fun m s c hm => Nat.lt_of_lt_of_le (h.childAllocated m s c ((hc m s c).1 hm)) hl
  childLevel := fun m s c hm hci => h.childLevel m s c ((hc m s c).1 hm) ((hi c).1 hci)

/-- A new internal node can be given any level: no slot leads to it yet. -/
theorem Levels.newInternal {t : Tree} {level : Nat → Nat} (h : Levels t level) (l : Nat) :
    Levels (Tree.newInternal t).1 (Function.update level t.length l) where
  rootInternal := (isInternal_newInternal t 0).2 (.inl h.rootInternal)
  rootLevel := by
    rw [Function.update_of_ne (Nat.ne_of_lt h.rootInternal.lt_length), h.rootLevel]
  childAllocated := fun m s c hm => by
    have := h.childAllocated m s c ((child_newInternal_some t m s c).1 hm)
    simp only [Tree.newInternal, List.length_append, List.length_singleton]
    omega
  childLevel := fun m s c hm hci => by
    have hm := (child_newInternal_some t m s c).1 hm
    have hlt := h.childAllocated m s c hm
    have hci := ((isInternal_newInternal t c).1 hci).resolve_right (Nat.ne_of_lt hlt)
    have hml := (isInternal_of_child hm).lt_length
    rw [Function.update_of_ne (Nat.ne_of_lt hlt), Function.update_of_ne (Nat.ne_of_lt hml)]
    exact h.childLevel m s c hm hci

/-- Slots of one node may take a child that is allocated, and that lies one level below where it is internal. -/
theorem Levels.of_slots_written {t t' : Tree} {level : Nat → Nat} (h : Levels t level) {cur c : Nat}
    (hc : ∀ m s c', Tree.child t' m s = .ok (some c') → c' = c ∧ m = cur ∨ Tree.child t m s = .ok (some c'))
    (hh : ∀ m, Tree.header t' m = Tree.header t m) (hl : t'.length = t.length)
    (hlt : c < t.length) (hlv : isInternal t c → level c = level cur + 1 ∧ level c ≤ 3) : Levels t' level where
  rootInternal := (isInternal_congr (hh 0)).2 h.rootInternal
  rootLevel := h.rootLevel
  childAllocated := fun m s c' hm => by
    rw [hl]
    rcases hc m s c' hm with ⟨rfl, -⟩ | hm
    · exact hlt
    · exact h.childAllocated m s c' hm
  childLevel := fun m s c' hm hci => by
    have hci := (isInternal_congr (hh c')).1 hci
    rcases hc m s c' hm with ⟨rfl, rfl⟩ | hm
    · exact hlv hci
    · exact h.childLevel m s c' hm hci

/-- A full-byte step into an empty slot: the new internal node lies one level below its owner. -/
theorem Levels.writeChild_newInternal {t t' : Tree} {level : Nat → Nat} {cur : Nat} {s : Byte} (h : Levels t level)
    (hcur : isInternal t cur) (hl : level cur ≤ 2)
    (hw : Tree.writeChild (Tree.newInternal t).1 cur s (Tree.newInternal t).2 = .ok t') :
    Levels t' (Function.update level t.length (level cur + 1)) ∧ isInternal t' t.length := by
  have hi : isInternal (Tree.newInternal t).1 t.length := (isInternal_newInternal t _).2 (.inr rfl)
  refine ⟨(h.newInternal (level cur + 1)).of_slots_written (cur := cur) (c := t.length) (fun m s' c' hm => ?_)
    (Tree.header_writeChild hw) (Tree.length_writeChild hw) hi.lt_length fun _ => ?_,
    (isInternal_congr (Tree.header_writeChild hw _)).2 hi⟩
  · rw [Tree.child_writeChild hw] at hm
    split at hm
    · cases hm
      exact .inl ⟨rfl, (‹_ ∧ _›).1⟩
    · exact .inr hm
  · rw [Function.update_self, Function.update_of_ne (Nat.ne_of_lt hcur.lt_length)]
    omega

/-- The full-byte steps of an entry keep the levels and reach an internal node: where `rem` bits are left at the node
`cur`, the code has `8 * level cur + rem` bits, at most 32. -/
theorem descend_levels {code : BitVec 32} {steps rem : Nat} {t t' : Tree} {level : Nat → Nat} {cur cur' rem' : Nat}
    (h : descend code steps rem t cur = .ok (t', cur', rem')) (hv : Levels t level) (hcur : isInternal t cur)
    (hb : 8 * level cur + rem ≤ 32) : ∃ level', Levels t' level' ∧ isInternal t' cur' := by
  induction steps generalizing rem t cur level with
  | zero =>
    cases h
    exact ⟨level, hv, hcur⟩
  | succ steps ih =>
    simp only [descend] at h
    split at h
    · split at h
      · cases h
      · split at h
        · cases h
        · rename_i t₁ hw
          obtain ⟨hv₁, hi⟩ := hv.writeChild_newInternal hcur (by omega) hw
          refine ih h hv₁ hi ?_
          rw [show (Tree.newInternal t).2 = t.length from rfl, Function.update_self]
          omega
      · split at h
        · cases h
        · rename_i c hc _ hd hh
          split at h
          · cases h
          · rename_i hk
            have hi : isInternal t c := by
              refine (isInternal_iff_header t c).2 ⟨hd, hh, ?_⟩
              cases hkind : hd.kind with
              | internal => rfl
              | terminal => exact absurd hkind hk
            have hl := (hv.childLevel _ _ _ hc hi).1
            exact ih h hv hi (by omega)
    · cases h
      exact ⟨level, hv, hcur⟩

/-- Inserting an entry of at most 32 bits keeps the levels. -/
theorem insertEntry_levels {x : TableEntry} {t t' : Tree} {level : Nat → Nat} (h : insertEntry x t = .ok t')
    (hv : Levels t level) (hx : x.length.toNat ≤ 32) : ∃ level', Levels t' level' := by
  simp only [insertEntry] at h
  split at h
  · cases h
  · rename_i t₁ cur rem hd
    obtain ⟨level₁, hv₁, -⟩ := descend_levels hd hv hv.rootInternal (by rw [hv.rootLevel]; omega)
    simp only [placeTerminal] at h
    split at h
    · cases h
    · obtain ⟨hc, hh, hl⟩ := writeSlots_ok h
      have hnew : Levels (Tree.newTerminal t₁ x.symbol rem).1 level₁ :=
        hv₁.of_same_slots (by simp [Tree.newTerminal]) (child_newTerminal_some t₁ x.symbol rem)
          (isInternal_newTerminal t₁ x.symbol rem)
      refine ⟨level₁, hnew.of_slots_written (cur := cur) (c := t₁.length)
        (fun m s c' hm => ?_) hh hl (by simp [Tree.newTerminal]) fun hi => ?_⟩
      · rw [hc] at hm
        split at hm
        · cases hm
          exact .inl ⟨rfl, (‹_ ∧ _›).1⟩
        · exact .inr hm
      · exact absurd ((isInternal_newTerminal t₁ x.symbol rem _).1 hi).lt_length (Nat.lt_irrefl _)

/-- Inserting entries of at most 32 bits keeps the levels. -/
theorem insertAll_levels {table : List TableEntry} {t t' : Tree} {level : Nat → Nat} (h : insertAll table t = .ok t')
    (hv : Levels t level) (hx : ∀ x ∈ table, x.length.toNat ≤ 32) : ∃ level', Levels t' level' := by
  induction table generalizing t level with
  | nil =>
    cases h
    exact ⟨level, hv⟩
  | cons x rest ih =>
    simp only [insertAll] at h
    split at h
    · cases h
    · obtain ⟨level₁, hv₁⟩ := insertEntry_levels ‹_› hv (hx x List.mem_cons_self)
      exact ih h hv₁ fun y hy => hx y (List.mem_cons_of_mem x hy)

/-- The tree BUILD starts from: the root alone, at level 0. -/
theorem levels_rootTree : Levels (Tree.newInternal []).1 fun _ => 0 :=
  have noChild : ∀ m s c, Tree.child (Tree.newInternal []).1 m s ≠ .ok (some c) := fun m s c hm =>
    absurd (isInternal_of_child ((child_newInternal_some [] m s c).1 hm)).lt_length (Nat.not_lt_zero m)
  { rootInternal := (isInternal_newInternal [] 0).2 (.inr rfl)
    rootLevel := rfl
    childAllocated := fun m s c hm => absurd hm (noChild m s c)
    childLevel := fun m s c hm => absurd hm (noChild m s c) }

/-- A well-formed table's codes have at most 32 bits (30_encoding.md R77, `W_len`). -/
theorem length_le_of_tableWellFormed {p : Parameters} (h : p.tableWellFormed = true) {x : TableEntry}
    (hx : x ∈ p.table) : x.length.toNat ≤ 32 := by
  have hlen : tableLengthsOk p.table = true := by
    by_contra hne
    rw [Parameters.tableWellFormed, failedTableCheck] at h
    by_cases h0 : tableNonempty p.table = false <;> simp [h0, hne] at h
  simp only [tableLengthsOk, List.all_eq_true, Bool.and_eq_true, decide_eq_true_eq] at hlen
  exact (hlen x hx).2

/-- The tree BUILD makes of a well-formed table has levels. -/
theorem exists_levels_of_buildTree {p : Parameters} {t : Tree} (hp : p.tableWellFormed = true)
    (h : buildTree p.table = .ok t) : ∃ level, Levels t level :=
  insertAll_levels h levels_rootTree fun _ hx => length_le_of_tableWellFormed hp hx

/-- The built tree of a block that meets the invariant has levels. -/
theorem Inv.exists_levels {s : State} (h : Inv s) (hb : s.treeState = .built) : ∃ level, Levels s.tree level := by
  obtain ⟨hp, ht⟩ := h.treeIsBuilt hb
  exact exists_levels_of_buildTree hp ht

end Sys2Proof.Safety
end

section
/-! SUPPORT. What the passes of INGEST's and FINISH's loops keep: the output buffer with its growth law
(41_engine_ingest.md R127) and the cursor with its count of bits (10_state.md R25). -/

namespace Sys2Proof.Safety

open Sys2Proof.Machine

/-- RESET's capacity follows the growth law. -/
theorem grownCapacity_zero {cap0 : Nat} (h : 1 ≤ cap0) : grownCapacity cap0 0 = cap0 := by
  have : (0 + cap0 - 1) / cap0 = 0 := Nat.div_eq_of_lt (by omega)
  rw [grownCapacity, this, Nat.max_eq_left (Nat.zero_le 1), Nat.mul_one]

/-- Bytes that fill `q` chunks of `CAP0` and begin or fill one more take a capacity of `q + 1` chunks. -/
theorem grownCapacity_of_chunks {cap0 q r : Nat} (h1 : 1 ≤ r) (hr : r ≤ cap0) :
    grownCapacity cap0 (cap0 * q + r) = cap0 * q + cap0 := by
  have hdiv : (cap0 * q + r + cap0 - 1) / cap0 = q + 1 := by
    rw [show cap0 * q + r + cap0 - 1 = (r - 1) + cap0 * (q + 1) by rw [Nat.mul_add]; omega,
      Nat.add_mul_div_left _ _ (by omega), Nat.div_eq_of_lt (by omega), Nat.zero_add]
  rw [grownCapacity, hdiv, Nat.max_eq_right (by omega), Nat.mul_add, Nat.mul_one]

/-- The growth law, byte by byte: a full buffer grows by `CAP0`, and no other grows. -/
theorem grownCapacity_succ {cap0 : Nat} (h : 1 ≤ cap0) (n : Nat) :
    grownCapacity cap0 (n + 1) =
      if n = grownCapacity cap0 n then grownCapacity cap0 n + cap0 else grownCapacity cap0 n := by
  cases n with
  | zero =>
    rw [grownCapacity_zero h, if_neg (by omega)]
    simpa using grownCapacity_of_chunks (q := 0) (le_refl 1) h
  | succ n =>
    obtain ⟨q, r, hr, rfl⟩ : ∃ q r, r < cap0 ∧ n = cap0 * q + r :=
      ⟨n / cap0, n % cap0, Nat.mod_lt _ h, (Nat.div_add_mod n cap0).symm⟩
    rw [Nat.add_assoc _ r 1, grownCapacity_of_chunks (by omega) (by omega)]
    by_cases hfull : r + 1 = cap0
    · have := grownCapacity_of_chunks (q := q + 1) (le_refl 1) h
      rw [Nat.mul_add, Nat.mul_one] at this
      rw [hfull, if_pos rfl, this]
    · rw [if_neg (by omega), Nat.add_assoc _ (r + 1) 1, grownCapacity_of_chunks (by omega) (by omega)]

/-- The output buffer speaks of OUT, `out_len` and `out_cap` alone. -/
theorem BufferOk.congr {cap0 : Nat} {en en' : Engine} (h : BufferOk cap0 en) (ho : en'.out = en.out)
    (hl : en'.outLen = en.outLen) (hc : en'.outCap = en.outCap) : BufferOk cap0 en' :=
  ⟨h.capacityLegal, by rw [hc, hl, h.capacityLaw], fun i => by rw [ho, hl, h.listed]⟩

/-- A completed symbol keeps the output buffer in order: it appends one byte. -/
theorem BufferOk.emit {cap0 : Nat} {en : Engine} (h : BufferOk cap0 en) (sym : Symbol) :
    BufferOk cap0 (en.emit cap0 sym) where
  capacityLegal := h.capacityLegal
  capacityLaw := by
    rw [Engine.emit_outCap, Engine.emit_outLen, grownCapacity_succ h.capacityLegal, ← h.capacityLaw]
  listed := fun i => by
    rw [Engine.emit_out, Engine.emit_outLen, Memory.read_write]
    split
    · simp only [Option.isSome_some, true_iff]
      omega
    · rw [h.listed]
      omega

/-- RESET leaves an empty buffer of capacity `CAP0`. -/
theorem BufferOk.restart {cap0 : Nat} (h : 1 ≤ cap0) (en : Engine) : BufferOk cap0 (en.restart cap0) where
  capacityLegal := h
  capacityLaw := (grownCapacity_zero h).symm
  listed := fun i => by simp [Memory.read_nil]

/-- `sym_bits = valid_bits + 8 * depth(node)`, `node` being internal at a depth of at most 3 (R22, R25). -/
def CursorOk (t : Tree) (en : Engine) : Prop :=
  ∃ d, d ≤ 3 ∧ atDepth t d en.node ∧ en.symBits.toNat = en.validBits.toNat + 8 * d

/-- A completed symbol puts the cursor at the root. -/
theorem CursorOk.emit {t : Tree} (h : isInternal t 0) (cap0 : Nat) (sym : Symbol) (en : Engine) :
    CursorOk t (en.emit cap0 sym) :=
  ⟨0, by omega, ⟨rfl, h⟩, by
    rw [Engine.emit_symBits, Engine.emit_validBits, BitVec.toNat_setWidth]
    omega⟩

/-- RESET puts the cursor at the root. -/
theorem CursorOk.restart {t : Tree} (h : isInternal t 0) (cap0 : Nat) (en : Engine) : CursorOk t (en.restart cap0) :=
  ⟨0, by omega, ⟨rfl, h⟩, rfl⟩

/-- A step to an internal node takes 8 bits and one level. -/
theorem CursorOk.descend {t : Tree} {level : Nat → Nat} (hv : Levels t level) {en : Engine} {c : Nat} {s : Byte}
    {h : NodeHeader} (hcur : CursorOk t en) (h8 : 8 ≤ en.validBits.toNat)
    (hl : Tree.lookup t en.node s = .ok (.node c h)) (hk : h.kind = .internal) :
    CursorOk t { en.consume h.bits with node := c } := by
  obtain ⟨d, -, hat, hsym⟩ := hcur
  obtain ⟨hc, hh⟩ := (Tree.lookup_node_iff t en.node s c h).1 hl
  obtain ⟨x, hx, rfl⟩ := (Tree.header_ok_iff t c h).1 hh
  cases x with
  | terminal sym k => cases hk
  | internal slots =>
    obtain ⟨hat', hd⟩ := hv.atDepth_child hat hc ⟨slots, hx⟩
    have hbits : (en.consume 8#4).validBits.toNat = en.validBits.toNat - 8 := Engine.consume_validBits_toNat h8
    refine ⟨d + 1, hd, hat', ?_⟩
    simp only [Node.header_internal, Engine.consume_symBits, hbits, hsym]
    omega

/-- INGEST's first step makes up to 7 valid bits up to 15: nothing wraps. -/
theorem shiftIn_validBits_toNat {en : Engine} (b : Byte) (h : en.validBits.toNat ≤ 7) :
    (en.shiftIn b).validBits.toNat = en.validBits.toNat + 8 := by
  rw [Engine.shiftIn_validBits, BitVec.toNat_add, BitVec.toNat_ofNat]
  omega

/-- INGEST's first step adds 8 bits to both counts and moves no cursor. -/
theorem CursorOk.shiftIn {t : Tree} {en : Engine} (h : CursorOk t en) (b : Byte) (hv : en.validBits.toNat ≤ 7) :
    CursorOk t (en.shiftIn b) := by
  obtain ⟨d, hd, hat, hsym⟩ := h
  refine ⟨d, hd, hat, ?_⟩
  rw [shiftIn_validBits_toNat b hv, Engine.shiftIn_symBits, BitVec.toNat_add, hsym, BitVec.toNat_ofNat]
  omega

/-- What every pass of INGEST's loop keeps holds where the loop ends normally: a pass completes a symbol or goes down to
an internal node. -/
theorem ingestLoop_induction {t : Tree} {eos : Symbol} {cap0 : Nat} {P : Engine → Prop}
    (hemit : ∀ en (h : NodeHeader), h.bits.toNat ≤ en.validBits.toNat → P en →
      P ((en.consume h.bits).emit cap0 h.symbol))
    (hdescend : ∀ en c (h : NodeHeader), 8 ≤ en.validBits.toNat → h.bits.toNat ≤ en.validBits.toNat →
      Tree.lookup t en.node (ingestSlot en) = .ok (.node c h) → h.kind = .internal → P en →
      P { en.consume h.bits with node := c })
    {passes : Nat} {en en' : Engine} (h : ingestLoop t eos cap0 passes en = .ok en') (hP : P en) : P en' := by
  induction passes generalizing en with
  | zero =>
    cases h
    exact hP
  | succ passes ih =>
    rw [ingestLoop_succ] at h
    split at h
    · rename_i h8
      split at h
      · cases h
      · cases h
      · rename_i c hd hl
        have hbits : hd.bits.toNat ≤ en.validBits.toNat := (Tree.lookup_bits_range hl).2.trans h8
        split at h
        · split at h
          · cases h
          · exact ih h (hemit en hd hbits hP)
        · exact ih h (hdescend en c hd h8 hbits hl ‹_› hP)
    · cases h
      exact hP

/-- What every pass of FINISH's loop keeps holds where the loop ends normally: a pass completes a symbol. -/
theorem finishLoop_induction {t : Tree} {eos : Symbol} {cap0 : Nat} {P : Engine → Prop}
    (hemit : ∀ en (h : NodeHeader), h.bits.toNat ≤ en.validBits.toNat → P en →
      P ((en.consume h.bits).emit cap0 h.symbol))
    {passes : Nat} {en en' : Engine} (h : finishLoop t eos cap0 passes en = .ok en') (hP : P en) : P en' := by
  induction passes generalizing en with
  | zero =>
    cases h
    exact hP
  | succ passes ih =>
    rw [finishLoop_succ] at h
    split at h
    · split at h
      · cases h
      · cases h
        exact hP
      · split at h
        · split at h
          · cases h
          · exact ih h (hemit en _ (‹_ ∧ _›).2 hP)
        · cases h
          exact hP
    · cases h
      exact hP

/-- What holds of an engine at every pass of a loop: OUT in canonical form, the buffer in order, the cursor in place. -/
structure PassOk (t : Tree) (cap0 : Nat) (en : Engine) : Prop where
  outCanonical : Memory.wf en.out = true
  buffer : BufferOk cap0 en
  cursor : CursorOk t en

/-- A live engine is one that the loops can start from, with at most 7 valid bits. -/
theorem LiveOk.passOk {t : Tree} {cap0 : Nat} {en : Engine} (h : LiveOk t cap0 en) (hw : Memory.wf en.out = true) :
    PassOk t cap0 en := ⟨hw, h.buffer, h.cursor⟩

/-- A completed symbol keeps what holds at every pass. -/
theorem PassOk.emit {t : Tree} {cap0 : Nat} {en : Engine} (h : PassOk t cap0 en) (hroot : isInternal t 0)
    (bits : BitVec 4) (sym : Symbol) : PassOk t cap0 ((en.consume bits).emit cap0 sym) where
  outCanonical := Engine.emit_wf cap0 sym h.outCanonical
  buffer := (h.buffer.congr (en' := en.consume bits) rfl rfl rfl).emit sym
  cursor := CursorOk.emit hroot cap0 sym _

/-- INGEST's first step keeps what holds at every pass. -/
theorem PassOk.shiftIn {t : Tree} {cap0 : Nat} {en : Engine} (h : PassOk t cap0 en) (b : Byte)
    (hv : en.validBits.toNat ≤ 7) : PassOk t cap0 (en.shiftIn b) where
  outCanonical := h.outCanonical
  buffer := h.buffer.congr rfl rfl rfl
  cursor := h.cursor.shiftIn b hv

/-- INGEST's loop keeps what holds at every pass. -/
theorem PassOk.of_ingestLoop {t : Tree} {level : Nat → Nat} (hlv : Levels t level) {eos : Symbol} {cap0 passes : Nat}
    {en en' : Engine} (h : PassOk t cap0 en) (hl : ingestLoop t eos cap0 passes en = .ok en') : PassOk t cap0 en' :=
  ingestLoop_induction (fun _ hd _ hP => hP.emit hlv.rootInternal hd.bits hd.symbol)
    (fun _ _ _ h8 _ hlook hk hP =>
      ⟨hP.outCanonical, hP.buffer.congr rfl rfl rfl, hP.cursor.descend hlv h8 hlook hk⟩) hl h

/-- FINISH's loop keeps what holds at every pass. -/
theorem PassOk.of_finishLoop {t : Tree} (hroot : isInternal t 0) {eos : Symbol} {cap0 passes : Nat}
    {en en' : Engine} (h : PassOk t cap0 en) (hl : finishLoop t eos cap0 passes en = .ok en') : PassOk t cap0 en' :=
  finishLoop_induction (fun _ hd _ hP => hP.emit hroot hd.bits hd.symbol) hl h

end Sys2Proof.Safety
end

section
/-! SUPPORT. The invariant, command by command: what of the state it speaks of, how a command that sets one engine keeps
it, and that every step does (10_state.md R21 to R29). -/

namespace Sys2Proof.Safety

open Sys2Proof.Machine

/-- What the invariant says of an engine speaks of the tree, the parameters and the count of hardware resets alone. -/
theorem EngineOk.congr {s t : State} {e : Nat} {en : Engine} (h : EngineOk s e en) (hp : t.params = s.params)
    (hts : t.treeState = s.treeState) (ht : t.tree = s.tree) (hf : t.freeEpoch = s.freeEpoch) : EngineOk t e en where
  outCanonical := h.outCanonical
  ownKey := by rw [hf]; exact h.ownKey
  faultIffFaulted := h.faultIffFaulted
  idleUnlessBuilt := by rw [hts]; exact h.idleUnlessBuilt
  live := by rw [ht, State.cap0, hp]; exact h.live
  result := by rw [State.cap0, hp]; exact h.result

/-- The invariant does not speak of the Host's queue, the port, the response or the mark of the run. -/
theorem Inv.congr {s t : State} (h : Inv s) (hp : t.params = s.params) (hts : t.treeState = s.treeState)
    (ht : t.tree = s.tree) (he : t.engines = s.engines) (hf : t.freeEpoch = s.freeEpoch) : Inv t where
  engineCount := by rw [he, hp]; exact h.engineCount
  treeIsBuilt := by rw [hts, hp, ht]; exact h.treeIsBuilt
  engineOk := fun e en hen => (h.engineOk e en (by rwa [← he])).congr hp hts ht hf

/-- A refused command keeps the invariant. -/
theorem Inv.refuse {s : State} (h : Inv s) (r : Response) : Inv (s.refuse r) := h.congr rfl rfl rfl rfl rfl

/-- Taking a word off the Host's queue keeps the invariant. -/
theorem Inv.present {s : State} (h : Inv s) (p : Port) (rest : List HostEvent) : Inv (s.present p rest) :=
  h.congr rfl rfl rfl rfl rfl

/-- A command that sets one engine and responds keeps the invariant where the engine is as the invariant asks. -/
theorem Inv.setEngine {s : State} (h : Inv s) {e : Nat} {en : Engine} (hen : EngineOk s e en) (r : Response) :
    Inv ((s.setEngine e en).respond r) where
  engineCount := by simpa using h.engineCount
  treeIsBuilt := h.treeIsBuilt
  engineOk := fun j x hx => by
    have hx : (s.engines.set e en)[j]? = some x := hx
    rw [List.getElem?_set] at hx
    refine EngineOk.congr (s := s) ?_ rfl rfl rfl rfl
    split at hx
    · split at hx
      · cases hx
        exact ‹e = j› ▸ hen
      · cases hx
    · exact h.engineOk j x hx

/-- An engine whose registers are unspecified meets the invariant where it is `IDLE` without a fault, or `FAULTED` with
one while the tree is built, and the draw is its own. -/
theorem engineOk_unspecified {s : State} {e : Nat} {key : Config.FreeKey} {st : EngineStatus} {f : Option EngineFault}
    (hk : key.epoch = s.freeEpoch ∧ key.engine = e)
    (hst : (st = .idle ∧ f = none) ∨ (st = .faulted ∧ f ≠ none ∧ s.treeState = .built)) :
    EngineOk s e (Engine.unspecified key st f) where
  outCanonical := Engine.unspecified_wf key st f
  ownKey := hk
  faultIffFaulted := by
    rcases hst with ⟨rfl, rfl⟩ | ⟨rfl, hf, -⟩
    · simp
    · simpa using hf
  idleUnlessBuilt := fun hb => by
    rcases hst with ⟨rfl, -⟩ | ⟨-, -, hb'⟩
    · rfl
    · exact absurd hb' hb
  live := fun ha => by rcases hst with ⟨rfl, -⟩ | ⟨rfl, -⟩ <;> cases ha
  result := fun hd => by rcases hst with ⟨rfl, -⟩ | ⟨rfl, -⟩ <;> cases hd

/-- Fault entry of an engine command keeps the invariant. -/
theorem Inv.raiseEngineFault {s : State} (h : Inv s) {e : Nat} {en : Engine} (hen : s.engines[e]? = some en)
    (hb : s.treeState = .built) (k : EngineFault) : Inv (s.raiseEngineFault e en k) :=
  h.setEngine (engineOk_unspecified (key := nextDraw en.freeKey) (h.engineOk e en hen).ownKey (.inr ⟨rfl, Option.some_ne_none k, hb⟩)) k.response

/-- Where the tree is not built every engine is idle, and the invariant asks no more of it than of an idle engine. -/
theorem EngineOk.of_idle {s t : State} {e : Nat} {en : Engine} (h : EngineOk s e en) (hi : en.status = .idle)
    (hf : t.freeEpoch = s.freeEpoch) : EngineOk t e en where
  outCanonical := h.outCanonical
  ownKey := by rw [hf]; exact h.ownKey
  faultIffFaulted := h.faultIffFaulted
  idleUnlessBuilt := fun _ => hi
  live := fun ha => by rw [hi] at ha; cases ha
  result := fun hd => by rw [hi] at hd; cases hd

/-- BUILD keeps the invariant: it runs while every engine is idle. -/
theorem Inv.execBuild {s t : State} (h : Inv s) (ht : execBuild s = .next t) : Inv t := by
  rcases execBuild_next ht with ⟨_, -, -, rfl⟩ | ⟨-, -, rfl⟩ | ⟨-, hu, hw, hrun⟩
  · exact h.refuse _
  · exact h.refuse _
  · have hidle : ∀ e (en : Engine), s.engines[e]? = some en → en.status = .idle := fun e en hen =>
      (h.engineOk e en hen).idleUnlessBuilt (by rw [hu]; decide)
    rcases hrun with ⟨tree, hbt, rfl⟩ | ⟨-, rfl⟩
    · exact ⟨h.engineCount, fun _ => ⟨by simp [Parameters.tableWellFormed, hw], hbt⟩,
        fun e en hen => (h.engineOk e en hen).of_idle (hidle e en hen) rfl⟩
    · exact ⟨h.engineCount, fun hb => (by cases hb),
        fun e en hen => (h.engineOk e en hen).of_idle (hidle e en hen) rfl⟩

/-- An engine is `ACTIVE` only while the tree is built. -/
theorem EngineOk.built_of_active {s : State} {e : Nat} {en : Engine} (h : EngineOk s e en)
    (ha : en.status = .active) : s.treeState = .built := by
  by_contra hb
  have hidle := h.idleUnlessBuilt hb
  rw [ha] at hidle
  cases hidle

/-- RESET leaves an engine as the invariant asks: a decode in flight at the root. -/
theorem EngineOk.restart {s : State} {e : Nat} {en : Engine} (h : EngineOk s e en) (hb : s.treeState = .built)
    (hroot : isInternal s.tree 0) (hcap : s.cap0 e ≠ 0) : EngineOk s e (en.restart (s.cap0 e)) where
  outCanonical := Engine.restart_wf en _
  ownKey := h.ownKey
  faultIffFaulted := by simp
  idleUnlessBuilt := fun hb' => absurd hb hb'
  live := fun _ => ⟨BufferOk.restart (Nat.pos_of_ne_zero hcap) en, by simp, CursorOk.restart hroot _ en⟩
  result := fun hd => by cases hd

/-- INGEST leaves an engine as the invariant asks. -/
theorem EngineOk.ingested {s : State} {e : Nat} {b : Byte} {en en' : Engine} {level : Nat → Nat}
    (h : EngineOk s e en) (ha : en.status = .active) (hlv : Levels s.tree level)
    (hl : ingestLoop s.tree s.params.eosSym (s.cap0 e) 8 (en.shiftIn b) = .ok en') : EngineOk s e en' := by
  have hlive := h.live ha
  have h7 := hlive.validBits
  obtain ⟨-, hst, hft, hkey⟩ := ingestLoop_keeps hl
  have hpass := ((hlive.passOk h.outCanonical).shiftIn b h7).of_ingestLoop hlv hl
  have hbits : en'.validBits.toNat ≤ 7 :=
    ingestLoop_validBits hl (by rw [shiftIn_validBits_toNat b h7]; omega)
  exact
    { outCanonical := hpass.outCanonical
      ownKey := by rw [hkey]; exact h.ownKey
      faultIffFaulted := by rw [hst, hft]; exact h.faultIffFaulted
      idleUnlessBuilt := fun hb => absurd (h.built_of_active ha) hb
      live := fun _ => ⟨hpass.buffer, hbits, hpass.cursor⟩
      result := fun hd => by rw [hst, Engine.shiftIn_status, ha] at hd; cases hd }

/-- FINISH leaves an engine as the invariant asks. -/
theorem EngineOk.completed {s : State} {e passes : Nat} {en en' : Engine} (h : EngineOk s e en)
    (ha : en.status = .active) (hroot : isInternal s.tree 0)
    (hl : finishLoop s.tree s.params.eosSym (s.cap0 e) passes en = .ok en') : EngineOk s e en'.complete := by
  obtain ⟨-, hst, hft, hkey⟩ := finishLoop_keeps hl
  have hpass := ((h.live ha).passOk h.outCanonical).of_finishLoop hroot hl
  have hnone : en.fault = none := h.faultIffFaulted.2 (by rw [ha]; decide)
  exact
    { outCanonical := hpass.outCanonical
      ownKey := by rw [Engine.complete_freeKey, hkey]; exact h.ownKey
      faultIffFaulted := by simp [hft, hnone]
      idleUnlessBuilt := fun hb => absurd (h.built_of_active ha) hb
      live := fun hc => by cases hc
      result := fun _ => hpass.buffer.congr rfl rfl rfl }

/-- RESET keeps the invariant. -/
theorem Inv.execReset {s t : State} (h : Inv s) (ht : execReset s = .next t) : Inv t := by
  rcases execReset_next ht with ⟨-, rfl⟩ | ⟨e, en, -, hen, ⟨-, rfl⟩ | ⟨hb, hcap, rfl⟩⟩
  · exact h.refuse _
  · exact h.refuse _
  · obtain ⟨level, hlv⟩ := h.exists_levels hb
    exact h.setEngine ((h.engineOk e en hen).restart hb hlv.rootInternal hcap) _

/-- INGEST keeps the invariant. -/
theorem Inv.execIngest {b : Byte} {s t : State} (h : Inv s) (ht : execIngest b s = .next t) : Inv t := by
  rcases execIngest_next ht with ⟨-, rfl⟩ | ⟨e, en, -, hen, ⟨-, rfl⟩ | ⟨hb, ha, ⟨en', hl, rfl⟩ | ⟨k, -, rfl⟩⟩⟩
  · exact h.refuse _
  · exact h.refuse _
  · obtain ⟨level, hlv⟩ := h.exists_levels hb
    exact h.setEngine ((h.engineOk e en hen).ingested ha hlv hl) _
  · exact h.raiseEngineFault hen hb k

/-- FINISH keeps the invariant. -/
theorem Inv.execFinish {s t : State} (h : Inv s) (ht : execFinish s = .next t) : Inv t := by
  rcases execFinish_next ht with ⟨-, rfl⟩ | ⟨e, en, -, hen, ⟨-, rfl⟩ | ⟨hb, ha, ⟨en', hl, hpad⟩ | ⟨k, -, rfl⟩⟩⟩
  · exact h.refuse _
  · exact h.refuse _
  · rcases hpad with ⟨-, rfl⟩ | ⟨-, rfl⟩
    · obtain ⟨level, hlv⟩ := h.exists_levels hb
      exact h.setEngine ((h.engineOk e en hen).completed ha hlv.rootInternal hl) _
    · exact h.raiseEngineFault hen hb _
  · exact h.raiseEngineFault hen hb k

/-- Every command keeps the invariant. -/
theorem Inv.exec {i : Instr} {s t : State} (h : Inv s) (ht : exec i s = .next t) : Inv t := by
  cases i with
  | build => exact h.execBuild ht
  | reset => exact h.execReset ht
  | ingest b => exact h.execIngest ht
  | finish => exact h.execFinish ht

/-- A hardware reset leaves a block that meets the invariant, whatever it was before. -/
theorem inv_hardwareReset (s : State) (q : Option Parameters) : Inv (s.hardwareReset q) where
  engineCount := by simp
  treeIsBuilt := fun hb => by cases hb
  engineOk := fun e en hen => by
    obtain ⟨he, rfl⟩ : e < (q.getD s.params).neng ∧
        Engine.unspecified { epoch := s.freeEpoch + 1, engine := e, draw := 0 } .idle none = en := by
      simpa [List.getElem?_map, List.getElem?_range, Option.map_eq_some_iff, List.getElem?_eq_some_iff] using hen
    exact engineOk_unspecified ⟨rfl, rfl⟩ (.inl ⟨rfl, rfl⟩)

/-- The block right after power-up meets the invariant, whatever its parameters are. -/
theorem inv_resetWith (p : Parameters) : Inv (State.resetWith p) where
  engineCount := by simp
  treeIsBuilt := fun hb => by cases hb
  engineOk := fun e en hen => by
    obtain ⟨he, rfl⟩ : e < p.neng ∧ Engine.reset e = en := by
      simpa [List.getElem?_map, List.getElem?_range, Option.map_eq_some_iff, List.getElem?_eq_some_iff] using hen
    exact
      { outCanonical := rfl
        ownKey := ⟨rfl, rfl⟩
        faultIffFaulted := by simp [Engine.reset]
        idleUnlessBuilt := fun _ => rfl
        live := fun ha => by cases ha
        result := fun hd => by cases hd }

/-- Settles O38: a step takes no event, resets the block, runs a command or refuses a word, and each keeps the
invariant. -/
theorem stepKeepsInvariant : Obligations.StepKeepsInvariant := by
  unfold Obligations.StepKeepsInvariant
  intro s t h ht
  rcases step_next ht with ⟨-, rfl⟩ | ⟨q, rest, -, rfl⟩ | ⟨p, w, rest, i, -, -, hx⟩ | ⟨p, w, rest, x, -, -, rfl⟩
  · exact h
  · exact inv_hardwareReset _ q
  · exact (h.present p rest).exec hx
  · exact (h.present p rest).refuse _

/-- Settles O37: power-up with the delivered parameters is power-up with some parameters. -/
theorem resetMeetsInvariant : Obligations.ResetMeetsInvariant := by
  unfold Obligations.ResetMeetsInvariant
  exact inv_resetWith Config.delivered

/-- Settles O40: the root alone lies at depth 0 of the built tree, and any other depth adds at least 8 bits. -/
theorem cursorAtRootIffFewBits : Obligations.CursorAtRootIffFewBits := by
  unfold Obligations.CursorAtRootIffFewBits
  intro s e en h hen ha
  have hok := h.engineOk e en hen
  obtain ⟨level, hlv⟩ := h.exists_levels (hok.built_of_active ha)
  have hlive := hok.live ha
  have hbits := hlive.validBits
  obtain ⟨d, hd, hat, hsym⟩ := hlive.cursor
  rw [← hlv.depth_zero_iff hat]
  omega

end Sys2Proof.Safety
end

section
/-! SUPPORT. What a command answers where it is presented on the port of an engine that accepts it (60_exceptions.md R187):
the converses of the inversion lemmas. -/

namespace Sys2Proof.Safety

open Sys2Proof.Machine

section
variable {s : State} {e : Nat} {en en' : Engine} {b : Byte} {k : EngineFault} {f : Fault}

/-- BUILD on an engine's port is illegal. -/
theorem execBuild_of_engine (ha : addressed s e en) : execBuild s = .next (s.refuse .illegalCommand) := by
  have hlt : e < s.engines.length := (List.getElem?_eq_some_iff.1 ha.2).1
  simp [execBuild, State.onBuilder, State.rejectIllegal, ha.1, hlt]

/-- RESET restarts the engine of its port. -/
theorem execReset_of_built (ha : addressed s e en) (hb : s.treeState = .built) (hc : s.cap0 e ≠ 0) :
    execReset s = .next ((s.setEngine e (en.restart (s.cap0 e))).respond .ok) := by
  rw [execReset, State.onEngine_run ha.1 ha.2 (by simp [acceptsReset, hb]), if_neg hc]

/-- RESET is refused by the model where `CAP0` is 0. -/
theorem execReset_of_zeroCapacity (ha : addressed s e en) (hb : s.treeState = .built) (hc : s.cap0 e = 0) :
    execReset s = .refused (.zeroCapacity e) := by
  rw [execReset, State.onEngine_run ha.1 ha.2 (by simp [acceptsReset, hb]), if_pos hc]

/-- INGEST completes where its loop ends normally. -/
theorem execIngest_of_ok (ha : addressed s e en) (hb : s.treeState = .built) (hst : en.status = .active)
    (hl : ingestLoop s.tree s.params.eosSym (s.cap0 e) 8 (en.shiftIn b) = .ok en') :
    execIngest b s = .next ((s.setEngine e en').respond .ok) := by
  rw [execIngest, State.onEngine_run ha.1 ha.2 (by simp [acceptsIngest, hb, hst]), hl]

/-- INGEST raises the fault that its loop raises. -/
theorem execIngest_of_raise (ha : addressed s e en) (hb : s.treeState = .built) (hst : en.status = .active)
    (hl : ingestLoop s.tree s.params.eosSym (s.cap0 e) 8 (en.shiftIn b) = .raise k) :
    execIngest b s = .next (s.raiseEngineFault e en k) := by
  rw [execIngest, State.onEngine_run ha.1 ha.2 (by simp [acceptsIngest, hb, hst]), hl]

/-- INGEST stops the model where its loop does. -/
theorem execIngest_of_stop (ha : addressed s e en) (hb : s.treeState = .built) (hst : en.status = .active)
    (hl : ingestLoop s.tree s.params.eosSym (s.cap0 e) 8 (en.shiftIn b) = .stop f) : execIngest b s = .fault f := by
  rw [execIngest, State.onEngine_run ha.1 ha.2 (by simp [acceptsIngest, hb, hst]), hl]

/-- FINISH completes, or raises `INVALID_PADDING`, where its loop ends normally, as the Padding Validator says. -/
theorem execFinish_of_ok (ha : addressed s e en) (hb : s.treeState = .built) (hst : en.status = .active)
    (hl : finishLoop s.tree s.params.eosSym (s.cap0 e) en.validBits.toNat en = .ok en') :
    execFinish s = .next (if paddingValid en' then (s.setEngine e en'.complete).respond .ok
      else s.raiseEngineFault e en .invalidPadding) := by
  rw [execFinish, State.onEngine_run ha.1 ha.2 (by simp [acceptsFinish, hb, hst]), hl]
  exact (apply_ite _ _ _ _).symm

/-- FINISH raises the fault that its loop raises. -/
theorem execFinish_of_raise (ha : addressed s e en) (hb : s.treeState = .built) (hst : en.status = .active)
    (hl : finishLoop s.tree s.params.eosSym (s.cap0 e) en.validBits.toNat en = .raise k) :
    execFinish s = .next (s.raiseEngineFault e en k) := by
  rw [execFinish, State.onEngine_run ha.1 ha.2 (by simp [acceptsFinish, hb, hst]), hl]

/-- FINISH stops the model where its loop does. -/
theorem execFinish_of_stop (ha : addressed s e en) (hb : s.treeState = .built) (hst : en.status = .active)
    (hl : finishLoop s.tree s.params.eosSym (s.cap0 e) en.validBits.toNat en = .stop f) : execFinish s = .fault f := by
  rw [execFinish, State.onEngine_run ha.1 ha.2 (by simp [acceptsFinish, hb, hst]), hl]

end

end Sys2Proof.Safety
end

section
/-! SUPPORT. Bits of `acc` at or above `valid_bits` are read by no command (10_state.md R23): the slots the loops look up
and the Padding Validator read valid bits alone, and every pass leaves `acc` as it is. -/

namespace Sys2Proof.Safety

open Sys2Proof.Machine

/-- `acc` agrees with the engine's own `acc` on the valid bits. -/
def AccAgrees (acc : BitVec 16) (en : Engine) : Prop :=
  ∀ j, j < en.validBits.toNat → acc.getLsbD j = en.acc.getLsbD j

/-- The end of a loop with another `acc` in the engine it leaves. -/
def walkWithAcc (acc : BitVec 16) : Walk → Walk
  | .ok en => .ok { en with acc := acc }
  | .raise k => .raise k
  | .stop f => .stop f

/-- A low byte is its 8 bits. -/
theorem lowByte_congr {m n : Nat} (h : ∀ i, i < 8 → m.testBit i = n.testBit i) : lowByte m = lowByte n := by
  refine BitVec.eq_of_getLsbD_eq fun i hi => ?_
  simp only [lowByte, BitVec.getLsbD_ofNat, h i hi]

/-- Agreement on valid bits stays where fewer bits are valid. -/
theorem AccAgrees.of_le {acc : BitVec 16} {en en' : Engine} (h : AccAgrees acc en) (ha : en'.acc = en.acc)
    (hv : en'.validBits.toNat ≤ en.validBits.toNat) : AccAgrees acc en' := fun j hj => by
  rw [ha]
  exact h j (Nat.lt_of_lt_of_le hj hv)

/-- A pass that completes a symbol keeps the agreement. -/
theorem AccAgrees.emit {acc : BitVec 16} {en : Engine} {bits : BitVec 4} (h : AccAgrees acc en)
    (hb : bits.toNat ≤ en.validBits.toNat) (cap0 : Nat) (sym : Symbol) :
    AccAgrees acc ((en.consume bits).emit cap0 sym) :=
  h.of_le rfl (by rw [Engine.emit_validBits, Engine.consume_validBits_toNat hb]; omega)

/-- A pass that goes down a level keeps the agreement. -/
theorem AccAgrees.descend {acc : BitVec 16} {en : Engine} {bits : BitVec 4} (h : AccAgrees acc en)
    (hb : bits.toNat ≤ en.validBits.toNat) (c : Nat) : AccAgrees acc { en.consume bits with node := c } :=
  h.of_le rfl (by simp only [Engine.consume_validBits_toNat hb]; omega)

/-- INGEST's first step shifts the agreement up with the bits. -/
theorem AccAgrees.shiftIn {acc : BitVec 16} {en : Engine} (h : AccAgrees acc en) (b : Byte)
    (hv : en.validBits.toNat ≤ 7) : AccAgrees ((acc <<< 8) ||| b.setWidth 16) (en.shiftIn b) := fun j hj => by
  rw [shiftIn_validBits_toNat b hv] at hj
  simp only [Engine.shiftIn_acc, BitVec.getLsbD_or, BitVec.getLsbD_shiftLeft]
  by_cases h8 : j < 8
  · simp only [h8, decide_true, Bool.not_true, Bool.and_false, Bool.false_and]
  · rw [h (j - 8) (by omega)]

/-- INGEST looks up valid bits alone. -/
theorem AccAgrees.ingestSlot_eq {acc : BitVec 16} {en : Engine} (h : AccAgrees acc en)
    (h8 : 8 ≤ en.validBits.toNat) : ingestSlot { en with acc := acc } = ingestSlot en := by
  refine lowByte_congr fun i hi => ?_
  rw [Nat.testBit_shiftRight, Nat.testBit_shiftRight, BitVec.testBit_toNat, BitVec.testBit_toNat]
  exact h _ (by simp only; omega)

/-- FINISH looks up valid bits alone. -/
theorem AccAgrees.finishSlot_eq {acc : BitVec 16} {en : Engine} (h : AccAgrees acc en) :
    finishSlot { en with acc := acc } = finishSlot en := by
  refine lowByte_congr fun i hi => ?_
  rw [Nat.testBit_shiftLeft, Nat.testBit_shiftLeft, BitVec.testBit_toNat, BitVec.testBit_toNat]
  by_cases hge : 8 - en.validBits.toNat ≤ i
  · rw [h _ (by simp only; omega)]
  · simp only [ge_iff_le, hge, decide_false, Bool.false_and]

/-- The Padding Validator reads valid bits alone where the cursor is in place: up to 7 bits since the last symbol are all
valid (10_state.md R25). -/
theorem AccAgrees.paddingValid_eq {acc : BitVec 16} {t : Tree} {en : Engine} (h : AccAgrees acc en)
    (hcur : CursorOk t en) : paddingValid { en with acc := acc } = paddingValid en := by
  obtain ⟨d, -, -, hsym⟩ := hcur
  by_cases h7 : en.symBits.toNat ≤ 7
  · have hmask : acc.toNat % 2 ^ en.symBits.toNat = en.acc.toNat % 2 ^ en.symBits.toNat := by
      refine Nat.eq_of_testBit_eq fun j => ?_
      rw [Nat.testBit_mod_two_pow, Nat.testBit_mod_two_pow, BitVec.testBit_toNat, BitVec.testBit_toNat]
      by_cases hj : j < en.symBits.toNat
      · rw [h j (by omega)]
      · simp only [hj, decide_false, Bool.false_and]
    simp only [paddingValid, Nat.one_shiftLeft, Nat.and_two_pow_sub_one_eq_mod, hmask]
  · simp only [paddingValid, h7, decide_false, Bool.false_and]

/-- INGEST's loop takes the same passes with another `acc` that agrees on the valid bits. -/
theorem ingestLoop_withAcc {acc : BitVec 16} (t : Tree) (eos : Symbol) (cap0 passes : Nat) {en : Engine}
    (h : AccAgrees acc en) : ingestLoop t eos cap0 passes { en with acc := acc } =
      walkWithAcc acc (ingestLoop t eos cap0 passes en) := by
  induction passes generalizing en with
  | zero => rfl
  | succ passes ih =>
    rw [ingestLoop_succ, ingestLoop_succ]
    by_cases h8 : 8 ≤ en.validBits.toNat
    · rw [if_pos h8, if_pos h8, h.ingestSlot_eq h8]
      cases hl : Tree.lookup t en.node (ingestSlot en) with
      | error f => rfl
      | ok l =>
        cases l with
        | empty => rfl
        | node c hd =>
          have hb := (Tree.lookup_bits_range hl).2.trans h8
          cases hk : hd.kind with
          | terminal =>
            by_cases he : hd.symbol = eos
            · simp only [hk, he, if_true, walkWithAcc]
            · simp only [hk, if_neg he]
              exact ih (h.emit hb cap0 hd.symbol)
          | internal =>
            simp only [hk]
            exact ih (h.descend hb c)
    · rw [if_neg h8, if_neg h8]
      rfl

/-- FINISH's loop takes the same passes with another `acc` that agrees on the valid bits. -/
theorem finishLoop_withAcc {acc : BitVec 16} (t : Tree) (eos : Symbol) (cap0 passes : Nat) {en : Engine}
    (h : AccAgrees acc en) : finishLoop t eos cap0 passes { en with acc := acc } =
      walkWithAcc acc (finishLoop t eos cap0 passes en) := by
  induction passes generalizing en with
  | zero => rfl
  | succ passes ih =>
    rw [finishLoop_succ, finishLoop_succ]
    by_cases h0 : 0 < en.validBits.toNat
    · rw [if_pos h0, if_pos h0, h.finishSlot_eq]
      cases hl : Tree.lookup t en.node (finishSlot en) with
      | error f => rfl
      | ok l =>
        cases l with
        | empty => rfl
        | node c hd =>
          by_cases hfit : hd.kind = .terminal ∧ hd.bits.toNat ≤ en.validBits.toNat
          · by_cases he : hd.symbol = eos
            · simp only [if_pos hfit, he, if_true, walkWithAcc]
            · simp only [if_pos hfit, if_neg he]
              exact ih (h.emit hfit.2 cap0 hd.symbol)
          · simp only [if_neg hfit, walkWithAcc]
    · rw [if_neg h0, if_neg h0]
      rfl

/-- The agreement still holds where INGEST's loop ends normally. -/
theorem AccAgrees.of_ingestLoop {acc : BitVec 16} {t : Tree} {eos : Symbol} {cap0 passes : Nat} {en en' : Engine}
    (h : AccAgrees acc en) (hl : ingestLoop t eos cap0 passes en = .ok en') : AccAgrees acc en' :=
  ingestLoop_induction (P := AccAgrees acc) (fun _ hd hb hP => hP.emit hb cap0 hd.symbol)
    (fun _ c _ _ hb _ _ hP => hP.descend hb c) hl h

/-- The agreement still holds where FINISH's loop ends normally. -/
theorem AccAgrees.of_finishLoop {acc : BitVec 16} {t : Tree} {eos : Symbol} {cap0 passes : Nat} {en en' : Engine}
    (h : AccAgrees acc en) (hl : finishLoop t eos cap0 passes en = .ok en') : AccAgrees acc en' :=
  finishLoop_induction (P := AccAgrees acc) (fun _ hd hb hP => hP.emit hb cap0 hd.symbol) hl h

/-- The state in which a command is presented, with another engine on its port. -/
theorem addressed_setEngine {s : State} {e : Nat} {en x : Engine} (h : addressed s e en) :
    addressed (s.setEngine e x) e x :=
  ⟨h.1, by simp [(List.getElem?_eq_some_iff.1 h.2).1]⟩

/-- Run from `s` with another `acc` in engine `e`, the command leaves `t` but for bits of that engine's `acc` that are
not valid then. -/
def AccUnread (s t : State) (e : Nat) (en : Engine) (acc : BitVec 16) (i : Instr) : Prop :=
  ∃ en₁ acc₁, t.engines[e]? = some en₁ ∧
    exec i (s.setEngine e { en with acc := acc }) =
      .next { t with engines := t.engines.set e { en₁ with acc := acc₁ } } ∧ AccAgrees acc₁ en₁

/-- It is enough that the command sets engine `e` and responds, both times, and the engines agree on their valid bits. -/
theorem accUnread_of_setEngine {s : State} {e : Nat} {en en₁ : Engine} {acc acc₁ : BitVec 16} {i : Instr} {r : Response}
    (ha : addressed s e en)
    (h : exec i (s.setEngine e { en with acc := acc }) =
      .next (((s.setEngine e { en with acc := acc }).setEngine e { en₁ with acc := acc₁ }).respond r))
    (hacc : AccAgrees acc₁ en₁) : AccUnread s ((s.setEngine e en₁).respond r) e en acc i := by
  refine ⟨en₁, acc₁, (addressed_setEngine (x := en₁) ha).2, ?_, hacc⟩
  rw [h]
  simp [State.setEngine, State.respond]

/-- Fault entry leaves nothing of the engine's `acc`. -/
theorem accUnread_of_raise {s : State} {e : Nat} {en : Engine} {acc : BitVec 16} {i : Instr} {k : EngineFault}
    (ha : addressed s e en)
    (h : exec i (s.setEngine e { en with acc := acc }) =
      .next ((s.setEngine e { en with acc := acc }).raiseEngineFault e { en with acc := acc } k)) :
    AccUnread s (s.raiseEngineFault e en k) e en acc i :=
  accUnread_of_setEngine (acc₁ := Config.freeAcc (nextDraw en.freeKey)) ha h fun _ _ => rfl

section
variable {s t : State} {e : Nat} {en : Engine} {acc : BitVec 16}

/-- BUILD on the engine's port reads no `acc`. -/
theorem execBuild_accUnread (ha : addressed s e en) (hacc : AccAgrees acc en) (ht : execBuild s = .next t) :
    AccUnread s t e en acc .build := by
  rw [execBuild_of_engine ha] at ht
  cases ht
  refine ⟨en, acc, ha.2, ?_, hacc⟩
  exact execBuild_of_engine (addressed_setEngine ha)

/-- RESET reads no `acc`. -/
theorem execReset_accUnread (ha : addressed s e en) (hb : s.treeState = .built) (ht : execReset s = .next t) :
    AccUnread s t e en acc .reset := by
  have hc : s.cap0 e ≠ 0 := fun hc => by
    rw [execReset_of_zeroCapacity ha hb hc] at ht
    cases ht
  rw [execReset_of_built ha hb hc] at ht
  cases ht
  have ha' := addressed_setEngine (x := { en with acc := acc }) ha
  have hrun := execReset_of_built ha' hb hc
  exact accUnread_of_setEngine (acc₁ := 0#16) ha hrun fun _ _ => rfl

/-- INGEST reads the valid bits of `acc` alone. -/
theorem execIngest_accUnread {b : Byte} (ha : addressed s e en) (hb : s.treeState = .built) (hst : en.status = .active)
    (hv : en.validBits.toNat ≤ 7) (hacc : AccAgrees acc en) (ht : execIngest b s = .next t) :
    AccUnread s t e en acc (.ingest b) := by
  have ha' := addressed_setEngine (x := { en with acc := acc }) ha
  have hshift := hacc.shiftIn b hv
  have hloop := ingestLoop_withAcc s.tree s.params.eosSym (s.cap0 e) 8 hshift
  cases hl : ingestLoop s.tree s.params.eosSym (s.cap0 e) 8 (en.shiftIn b) with
  | ok en' =>
    rw [execIngest_of_ok ha hb hst hl] at ht
    cases ht
    rw [hl] at hloop
    exact accUnread_of_setEngine ha (execIngest_of_ok ha' hb hst hloop) (hshift.of_ingestLoop hl)
  | raise k =>
    rw [execIngest_of_raise ha hb hst hl] at ht
    cases ht
    rw [hl] at hloop
    exact accUnread_of_raise ha (execIngest_of_raise ha' hb hst hloop)
  | stop f =>
    rw [execIngest_of_stop ha hb hst hl] at ht
    cases ht

/-- FINISH reads the valid bits of `acc` alone. -/
theorem execFinish_accUnread (ha : addressed s e en) (hb : s.treeState = .built) (hst : en.status = .active)
    (hpass : PassOk s.tree (s.cap0 e) en) (hroot : isInternal s.tree 0) (hacc : AccAgrees acc en)
    (ht : execFinish s = .next t) : AccUnread s t e en acc .finish := by
  have ha' := addressed_setEngine (x := { en with acc := acc }) ha
  have hloop := finishLoop_withAcc s.tree s.params.eosSym (s.cap0 e) en.validBits.toNat hacc
  cases hl : finishLoop s.tree s.params.eosSym (s.cap0 e) en.validBits.toNat en with
  | ok en' =>
    rw [hl] at hloop
    have hacc' := hacc.of_finishLoop hl
    have hrun := execFinish_of_ok ha' hb hst hloop
    rw [hacc'.paddingValid_eq (hpass.of_finishLoop hroot hl).cursor] at hrun
    rw [execFinish_of_ok ha hb hst hl] at ht
    by_cases hp : paddingValid en' = true
    · rw [if_pos hp] at ht hrun
      cases ht
      exact accUnread_of_setEngine ha hrun (hacc'.of_le rfl (le_refl _))
    · rw [if_neg hp] at ht hrun
      cases ht
      exact accUnread_of_raise ha hrun
  | raise k =>
    rw [execFinish_of_raise ha hb hst hl] at ht
    cases ht
    rw [hl] at hloop
    exact accUnread_of_raise ha (execFinish_of_raise ha' hb hst hloop)
  | stop f =>
    rw [execFinish_of_stop ha hb hst hl] at ht
    cases ht

end

/-- Settles O41: both runs look up the same slots, and the Padding Validator reads valid bits alone. -/
theorem garbageAccumulatorBitsUnread : Obligations.GarbageAccumulatorBitsUnread := by
  unfold Obligations.GarbageAccumulatorBitsUnread
  intro s t e en acc i h ha hst hacc ht
  have hok := h.engineOk e en ha.2
  have hb := hok.built_of_active hst
  have hlive := hok.live hst
  obtain ⟨level, hlv⟩ := h.exists_levels hb
  cases i with
  | build => exact execBuild_accUnread ha hacc ht
  | reset => exact execReset_accUnread ha hb ht
  | ingest b => exact execIngest_accUnread ha hb hst hlive.validBits hacc ht
  | finish => exact execFinish_accUnread ha hb hst (hlive.passOk hok.outCanonical) hlv.rootInternal hacc ht

end Sys2Proof.Safety
end

section
/-! SUPPORT. The registers as their ports show them (10_state.md R27 to R30), one step on one word, and the state after
power-up. -/

namespace Sys2Proof.Safety

open Sys2Proof.Machine

/-- `ESTAT` holds `fault` above the two bits of `status` (10_state.md R30). -/
theorem estat_toNat (en : Engine) : en.estat.toNat = (faultCode en.fault).toNat * 4 + en.status.code.toNat := by
  have hlt : en.status.code.toNat < 2 ^ 2 := en.status.code.isLt
  rw [Engine.estat, BitVec.toNat_append, ← Nat.shiftLeft_add_eq_or_of_lt hlt, Nat.shiftLeft_eq]

/-- `ESTAT[1:0]` is the code of `status`. -/
theorem estat_mod (en : Engine) : en.estat.toNat % 4 = en.status.code.toNat := by
  have hlt : en.status.code.toNat < 4 := en.status.code.isLt
  rw [estat_toNat]
  omega

/-- `ESTAT[5:2]` is the code of `fault`. -/
theorem estat_div (en : Engine) : en.estat.toNat / 4 = (faultCode en.fault).toNat := by
  have hlt : en.status.code.toNat < 4 := en.status.code.isLt
  rw [estat_toNat]
  omega

/-- The codes of `tree_state` (10_state.md R29). -/
theorem treeState_code_iff (ts : TreeState) : (ts.code = 0#2 ↔ ts = .unbuilt) ∧ (ts.code = 1#2 ↔ ts = .built) ∧
    (ts.code = 2#2 ↔ ts = .buildFailed) := by
  cases ts <;> decide

/-- The codes of `status` (10_state.md R27). -/
theorem status_code_iff (st : EngineStatus) : (st.code.toNat = 0 ↔ st = .idle) ∧ (st.code.toNat = 1 ↔ st = .active) ∧
    (st.code.toNat = 2 ↔ st = .done) ∧ (st.code.toNat = 3 ↔ st = .faulted) := by
  cases st <;> decide

/-- The codes of `fault` (10_state.md R28). -/
theorem faultCode_iff (f : Option EngineFault) : ((faultCode f).toNat = 0 ↔ f = none) ∧
    ((faultCode f).toNat = 1 ↔ f = some .eosDecoded) ∧ ((faultCode f).toNat = 2 ↔ f = some .invalidPadding) ∧
    ((faultCode f).toNat = 4 ↔ f = some .emptySlot) := by
  match f with
  | none => decide
  | some .eosDecoded => decide
  | some .invalidPadding => decide
  | some .emptySlot => decide

/-- Settles O4: each port field is the code of its register, and no two values share a code. -/
theorem statusPortEncodings : Obligations.StatusPortEncodings := by
  unfold Obligations.StatusPortEncodings
  refine ⟨fun s => treeState_code_iff s.treeState, fun en => ?_, rfl, rfl, rfl, rfl, rfl, rfl, rfl⟩
  rw [estat_mod, estat_div]
  obtain ⟨hidle, hactive, hdone, hfaulted⟩ := status_code_iff en.status
  exact ⟨hidle, hactive, hdone, hfaulted, faultCode_iff en.fault⟩

/-- A step with a legal word at the head of the queue runs its command. -/
theorem step_of_command {s : State} {p : Port} {w : CmdWord} {rest : List HostEvent} {i : Instr}
    (hq : s.pending = .command p w :: rest) (hw : decode w = .ok i) : step s = exec i (s.present p rest) := by
  simp only [step, hq, hw]

/-- Settles O5: presenting a word takes it off the queue and sets the port. -/
theorem stepRunsPresentedCommand : Obligations.StepRunsPresentedCommand := by
  unfold Obligations.StepRunsPresentedCommand
  intro s p w rest i hq hw
  exact step_of_command hq hw

/-- Settles O6: `NENG` is the length of the delivered capacities, and its engines are as `Engine.reset` makes them. -/
theorem powerUpState : Obligations.PowerUpState := by
  unfold Obligations.PowerUpState
  refine ⟨rfl, rfl, fun en hen => ?_, rfl, rfl, rfl⟩
  obtain ⟨e, -, rfl⟩ := List.mem_map.1 hen
  exact ⟨rfl, rfl⟩

end Sys2Proof.Safety
end

section
/-! SUPPORT. Memory and what the Host reads of it (20_memory.md): one byte of OUT for each append, the ports of an engine
as its status has them, and TREE, `tree_state` and the parameters past BUILD. -/

namespace Sys2Proof.Safety

open Sys2Proof.Machine

/-- Settles O43: the write lists the byte at `out_len`, and neither the rest of the list nor the draw of the free values
changes. -/
theorem appendWritesOneByte : Obligations.AppendWritesOneByte := by
  unfold Obligations.AppendWritesOneByte
  intro cap0 i v en
  split
  · subst i
    exact Engine.outByte_of_written (Memory.read_write_same en.out en.outLen v)
  · exact Engine.outByte_congr rfl (Memory.read_write_other en.out v ‹_›)

section
variable {s : State} {e : Nat} {en : Engine} (he : s.engines[e]? = some en)
include he

/-- The result is there in `DONE` alone. -/
theorem hostOutput_eq : s.hostOutput e = if en.status = .done then some (en.outBytes en.outLen) else none := by
  simp only [State.hostOutput, he]

/-- OUT is read in `DONE` alone, and then as the total map it is. -/
theorem hostOutByte_eq (i : Nat) : s.hostOutByte e i = if en.status = .done then some (en.outByte i) else none := by
  simp only [State.hostOutByte, he]

/-- `OUT_LEN` has a value in `DONE` alone. -/
theorem hostOutLen_eq : s.hostOutLen e = if en.status = .done then some en.outLen else none := by
  simp only [State.hostOutLen, he]

/-- `OUT_CAP` has a value in `ACTIVE` and `DONE` alone. -/
theorem hostOutCap_eq :
    s.hostOutCap e = if en.status = .active ∨ en.status = .done then some en.outCap else none := by
  simp only [State.hostOutCap, he]

/-- `ESTAT` has a value in every status. -/
theorem hostEstat_eq : s.hostEstat e = some en.estat := by
  simp only [State.hostEstat, he, Option.map_some]

end

/-- In an ordered buffer the bytes below `out_len` are the written ones, as the appends wrote them. -/
theorem BufferOk.outBytes_getElem? {cap0 : Nat} {en : Engine} (h : BufferOk cap0 en) (i : Nat) :
    (en.outBytes en.outLen)[i]? = Memory.read en.out i := by
  have hlisted := h.listed i
  rw [Engine.outBytes_getElem?]
  cases hr : Memory.read en.out i with
  | none => rw [if_neg (by simpa [hr] using hlisted)]
  | some b => rw [if_pos (by simpa [hr] using hlisted), Engine.outByte_of_written hr]

/-- The capacity is a multiple of `CAP0` and at least `CAP0` (10_state.md R32). -/
theorem dvd_grownCapacity_and_le (cap0 n : Nat) : cap0 ∣ grownCapacity cap0 n ∧ cap0 ≤ grownCapacity cap0 n :=
  ⟨Nat.dvd_mul_right _ _, Nat.le_mul_of_pos_right _ (Nat.le_max_left 1 _)⟩

/-- An engine's buffer is in order while its decode is in flight and when it is complete. -/
theorem EngineOk.buffer {s : State} {e : Nat} {en : Engine} (h : EngineOk s e en)
    (hst : en.status = .active ∨ en.status = .done) : BufferOk (s.cap0 e) en :=
  hst.elim (fun ha => (h.live ha).buffer) h.result

/-- Settles O44: each port is a test of `status`, and where it has a value the invariant has the buffer in order. -/
theorem hostReadsResultInDone : Obligations.HostReadsResultInDone := by
  unfold Obligations.HostReadsResultInDone
  intro s e en h he
  have hok := h.engineOk e en he
  refine ⟨fun hd => ?done, fun hd => ?notDone, fun hst => ?capacity, fun ha hd => ?noCapacity, hostEstat_eq he⟩
  case done =>
    refine ⟨en.outBytes en.outLen, (hostOutput_eq he).trans (if_pos hd), Engine.outBytes_length en _,
      (hostOutLen_eq he).trans (if_pos hd), (hok.buffer (.inr hd)).outBytes_getElem?, fun i hi => ?_,
      fun i => (hostOutByte_eq he i).trans (if_pos hd)⟩
    rw [hostOutByte_eq he, if_pos hd, Engine.outBytes_getElem?, if_pos hi]
  case notDone =>
    exact ⟨(hostOutput_eq he).trans (if_neg hd), (hostOutLen_eq he).trans (if_neg hd),
      fun i => (hostOutByte_eq he i).trans (if_neg hd)⟩
  case capacity =>
    have hlaw := (hok.buffer hst).capacityLaw
    exact ⟨(hostOutCap_eq he).trans (if_pos hst), hlaw, hlaw ▸ dvd_grownCapacity_and_le _ _⟩
  case noCapacity => exact (hostOutCap_eq he).trans (if_neg (not_or.2 ⟨ha, hd⟩))

/-- Once BUILD has run, a command is refused or sets one engine and responds: fault entry does no more. -/
theorem exec_next_of_not_unbuilt {i : Instr} {s t : State} (hu : s.treeState ≠ .unbuilt) (h : exec i s = .next t) :
    (∃ r, t = s.refuse r) ∨ ∃ e en r, t = (s.setEngine e en).respond r := by
  cases i with
  | build =>
    rcases execBuild_next h with ⟨_, -, -, ht⟩ | ⟨-, -, ht⟩ | ⟨-, hu', -⟩
    · exact .inl ⟨_, ht⟩
    · exact .inl ⟨_, ht⟩
    · exact absurd hu' hu
  | reset =>
    rcases execReset_next h with ⟨-, ht⟩ | ⟨_, _, -, -, ⟨-, ht⟩ | ⟨-, -, ht⟩⟩
    · exact .inl ⟨_, ht⟩
    · exact .inl ⟨_, ht⟩
    · exact .inr ⟨_, _, _, ht⟩
  | ingest b =>
    rcases execIngest_next h with ⟨-, ht⟩ | ⟨_, _, -, -, ⟨-, ht⟩ | ⟨-, -, ⟨_, -, ht⟩ | ⟨_, -, ht⟩⟩⟩
    · exact .inl ⟨_, ht⟩
    · exact .inl ⟨_, ht⟩
    · exact .inr ⟨_, _, _, ht⟩
    · exact .inr ⟨_, _, _, ht⟩
  | finish =>
    rcases execFinish_next h with
      ⟨-, ht⟩ | ⟨_, _, -, -, ⟨-, ht⟩ | ⟨-, -, ⟨_, -, ⟨-, ht⟩ | ⟨-, ht⟩⟩ | ⟨_, -, ht⟩⟩⟩
    · exact .inl ⟨_, ht⟩
    · exact .inl ⟨_, ht⟩
    · exact .inr ⟨_, _, _, ht⟩
    · exact .inr ⟨_, _, _, ht⟩
    · exact .inr ⟨_, _, _, ht⟩

/-- Settles O34: neither a refusal nor setting an engine touches TREE, `tree_state` or the parameters. -/
theorem builtTreeIsImmutable : Obligations.BuiltTreeIsImmutable := by
  unfold Obligations.BuiltTreeIsImmutable
  intro s t hu hreset ht
  rcases step_next ht with ⟨-, rfl⟩ | ⟨q, rest, hq, -⟩ | ⟨p, w, rest, i, -, -, hx⟩ | ⟨p, w, rest, x, -, -, rfl⟩
  · exact ⟨rfl, rfl, rfl⟩
  · exact absurd hq (hreset q rest)
  · rcases exec_next_of_not_unbuilt (s := s.present p rest) hu hx with ⟨r, rfl⟩ | ⟨e, en, r, rfl⟩
    · exact ⟨rfl, rfl, rfl⟩
    · exact ⟨rfl, rfl, rfl⟩
  · exact ⟨rfl, rfl, rfl⟩

end Sys2Proof.Safety
end

section
/-! SUPPORT. DECODE command by command (30_encoding.md R86): a word that the Host issues runs its command, a DECODE with
a result is one whose commands all answered `OK`, and what an engine command did where it answered `OK`. -/

namespace Sys2Proof.Safety

open Sys2Proof.Machine

/-- The word of a command decodes to it. -/
@[simp] theorem decode_encode (i : Instr) : decode (encode i) = .ok i := by
  cases i with
  | build => rfl
  | reset => rfl
  | ingest b =>
    rw [encode, decode, opField_append, argField_append]
    rfl
  | finish => rfl

/-- The Host's word runs its command on the port, and leaves the Host's queue as it was. -/
theorem issue_eq (p : Port) (i : Instr) (s : State) : issue p i s = exec i (s.present p s.pending) :=
  step_of_command rfl (decode_encode i)

/-- Commands that end with `OK` answered `OK` one by one. -/
theorem issueAll_cons_ok {p : Port} {i : Instr} {rest : List Instr} {s t : State}
    (h : issueAll p (i :: rest) s = .next t) (hr : t.lastResponse = some .ok) :
    ∃ u, exec i (s.present p s.pending) = .next u ∧ u.lastResponse = some .ok ∧ issueAll p rest u = .next t := by
  rw [issueAll, issue_eq] at h
  split at h
  · split at h
    · exact ⟨_, ‹_›, ‹_›, h⟩
    · cases h
      exact absurd hr ‹_›
  · cases h
  · cases h

/-- DECODE is RESET, one INGEST for each byte, and FINISH. -/
theorem decodeLiteral_eq (e : Nat) (bytes : List Byte) (s : State) : decodeLiteral e bytes s =
    issueAll (.engine e) (.reset :: (bytes.map .ingest ++ [.finish])) s := rfl

/-- DECODE answers a result where its last response is `OK` and its engine is `DONE`. -/
theorem decodeResult_output {s : State} {e : Nat} {out : List Byte} (h : s.decodeResult e = some (.output out)) :
    s.lastResponse = some .ok ∧ s.hostOutput e = some out := by
  unfold State.decodeResult at h
  split at h
  · obtain ⟨bs, hbs, hout⟩ := Option.map_eq_some_iff.1 h
    cases hout
    exact ⟨‹_›, hbs⟩
  · cases h
  · cases h

/-- Where the Host reads a result, it is that of an engine with so many bytes. -/
theorem length_of_hostOutput {s : State} {e : Nat} {en : Engine} {out : List Byte} (he : s.engines[e]? = some en)
    (h : s.hostOutput e = some out) : out.length = en.outLen := by
  rw [hostOutput_eq he] at h
  split at h
  · cases h
    exact Engine.outBytes_length en _
  · cases h

/-- A command that responds has that as its last response. -/
@[simp] theorem lastResponse_respond (s : State) (r : Response) : (s.respond r).lastResponse = some r := rfl

/-- No fault's code is that of `OK` (30_encoding.md R74). -/
theorem lastResponse_raiseEngineFault_ne_ok (s : State) (e : Nat) (en : Engine) (k : EngineFault) :
    (s.raiseEngineFault e en k).lastResponse ≠ some .ok := by
  rw [State.raiseEngineFault, lastResponse_respond]
  cases k <;> decide

section
variable {s t : State} {e : Nat} (hp : s.port = .engine e) (hr : t.lastResponse = some .ok)
include hp hr

/-- A RESET that answers `OK` restarted its engine. -/
theorem execReset_ok (h : execReset s = .next t) :
    ∃ en, s.engines[e]? = some en ∧ t = (s.setEngine e (en.restart (s.cap0 e))).respond .ok := by
  rcases execReset_next h with ⟨-, rfl⟩ | ⟨f, en, hf, hen, ⟨-, rfl⟩ | ⟨-, -, ht⟩⟩
  · cases hr
  · cases hr
  · cases hp.symm.trans hf
    exact ⟨en, hen, ht⟩

/-- An INGEST that answers `OK` left the engine its loop ends with. -/
theorem execIngest_ok {b : Byte} (h : execIngest b s = .next t) :
    ∃ en en', s.engines[e]? = some en ∧
      ingestLoop s.tree s.params.eosSym (s.cap0 e) 8 (en.shiftIn b) = .ok en' ∧
      t = (s.setEngine e en').respond .ok := by
  rcases execIngest_next h with ⟨-, rfl⟩ | ⟨f, en, hf, hen, ⟨-, rfl⟩ | ⟨-, -, ⟨en', hl, ht⟩ | ⟨k, -, rfl⟩⟩⟩
  · cases hr
  · cases hr
  · cases hp.symm.trans hf
    exact ⟨en, en', hen, hl, ht⟩
  · exact absurd hr (lastResponse_raiseEngineFault_ne_ok s f en k)

/-- A FINISH that answers `OK` completed the engine its loop ends with. -/
theorem execFinish_ok (h : execFinish s = .next t) :
    ∃ en en', s.engines[e]? = some en ∧
      finishLoop s.tree s.params.eosSym (s.cap0 e) en.validBits.toNat en = .ok en' ∧
      t = (s.setEngine e en'.complete).respond .ok := by
  rcases execFinish_next h with
    ⟨-, rfl⟩ | ⟨f, en, hf, hen, ⟨-, rfl⟩ | ⟨-, -, ⟨en', hl, ⟨-, ht⟩ | ⟨-, rfl⟩⟩ | ⟨k, -, rfl⟩⟩⟩
  · cases hr
  · cases hr
  · cases hp.symm.trans hf
    exact ⟨en, en', hen, hl, ht⟩
  · exact absurd hr (lastResponse_raiseEngineFault_ne_ok s f en _)
  · exact absurd hr (lastResponse_raiseEngineFault_ne_ok s f en k)

end

end Sys2Proof.Safety
end

section
/-! SUPPORT. The output of a decode is bounded by its input (20_memory.md R56): each pass of a loop takes at least one bit
for the byte it appends, so bytes appended and bits left never rise but by the 8 bits of an INGEST. -/

namespace Sys2Proof.Safety

open Sys2Proof.Machine

/-- The bytes an engine has appended and the bits it still holds, each of which may give one more. -/
def bitBudget (en : Engine) : Nat := en.outLen + en.validBits.toNat

/-- A pass that takes bits and appends nothing does not raise the budget. -/
theorem bitBudget_consume_le {en : Engine} {bits : BitVec 4} (h : bits.toNat ≤ en.validBits.toNat) :
    bitBudget (en.consume bits) ≤ bitBudget en := by
  simp only [bitBudget, Engine.consume_outLen, Engine.consume_validBits_toNat h]
  omega

/-- A pass that completes a symbol takes a bit at least for its byte. -/
theorem bitBudget_emit_le {en : Engine} {bits : BitVec 4} (h1 : 1 ≤ bits.toNat)
    (h : bits.toNat ≤ en.validBits.toNat) (cap0 : Nat) (sym : Symbol) :
    bitBudget ((en.consume bits).emit cap0 sym) ≤ bitBudget en := by
  simp only [bitBudget, Engine.emit_outLen, Engine.emit_validBits, Engine.consume_outLen,
    Engine.consume_validBits_toNat h]
  omega

/-- INGEST's first step adds at most its 8 bits. -/
theorem bitBudget_shiftIn_le (en : Engine) (b : Byte) : bitBudget (en.shiftIn b) ≤ bitBudget en + 8 := by
  simp only [bitBudget, Engine.shiftIn_outLen, Engine.shiftIn_validBits, BitVec.toNat_add, BitVec.toNat_ofNat]
  omega

/-- INGEST's loop does not raise the budget. -/
theorem bitBudget_ingestLoop_le {t : Tree} {eos : Symbol} {cap0 passes : Nat} {en en' : Engine}
    (h : ingestLoop t eos cap0 passes en = .ok en') : bitBudget en' ≤ bitBudget en := by
  induction passes generalizing en with
  | zero =>
    cases h
    exact le_refl _
  | succ passes ih =>
    rw [ingestLoop_succ] at h
    split at h
    · rename_i h8
      split at h
      · cases h
      · cases h
      · rename_i c hd hl
        obtain ⟨h1, hle⟩ := Tree.lookup_bits_range hl
        split at h
        · split at h
          · cases h
          · exact (ih h).trans (bitBudget_emit_le h1 (hle.trans h8) cap0 hd.symbol)
        · exact (ih h).trans (bitBudget_consume_le (en := en) (hle.trans h8))
    · cases h
      exact le_refl _

/-- FINISH's loop does not raise the budget. -/
theorem bitBudget_finishLoop_le {t : Tree} {eos : Symbol} {cap0 passes : Nat} {en en' : Engine}
    (h : finishLoop t eos cap0 passes en = .ok en') : bitBudget en' ≤ bitBudget en := by
  induction passes generalizing en with
  | zero =>
    cases h
    exact le_refl _
  | succ passes ih =>
    rw [finishLoop_succ] at h
    split at h
    · split at h
      · cases h
      · cases h
        exact le_refl _
      · rename_i c hd hl
        split at h
        · rename_i hfit
          split at h
          · cases h
          · exact (ih h).trans (bitBudget_emit_le (Tree.lookup_bits_range hl).1 hfit.2 cap0 hd.symbol)
        · cases h
          exact le_refl _
    · cases h
      exact le_refl _

/-- Engine `e` is there and its budget is at most `n`. -/
def BudgetWithin (s : State) (e n : Nat) : Prop := ∃ en, s.engines[e]? = some en ∧ bitBudget en ≤ n

/-- Setting an engine sets its budget. -/
theorem budgetWithin_setEngine {s : State} {e n : Nat} {en en' : Engine} (he : s.engines[e]? = some en)
    (h : bitBudget en' ≤ n) (r : Response) : BudgetWithin ((s.setEngine e en').respond r) e n :=
  ⟨en', by simp [(List.getElem?_eq_some_iff.1 he).1], h⟩

section
variable {s t : State} {e n : Nat} (hp : s.port = .engine e) (hr : t.lastResponse = some .ok)
include hp hr

/-- RESET leaves no byte and no bit. -/
theorem budgetWithin_of_execReset (ht : execReset s = .next t) : BudgetWithin t e 0 := by
  obtain ⟨en, hen, rfl⟩ := execReset_ok hp hr ht
  exact budgetWithin_setEngine hen (le_refl 0) .ok

/-- INGEST raises the budget by at most 8. -/
theorem BudgetWithin.of_execIngest {b : Byte} (h : BudgetWithin s e n) (ht : execIngest b s = .next t) :
    BudgetWithin t e (n + 8) := by
  obtain ⟨x, hx, hn⟩ := h
  obtain ⟨en, en', hen, hl, rfl⟩ := execIngest_ok hp hr ht
  cases hx.symm.trans hen
  refine budgetWithin_setEngine hen ?_ .ok
  calc bitBudget en' ≤ bitBudget (x.shiftIn b) := bitBudget_ingestLoop_le hl
    _ ≤ bitBudget x + 8 := bitBudget_shiftIn_le x b
    _ ≤ n + 8 := Nat.add_le_add_right hn 8

/-- FINISH does not raise the budget. -/
theorem BudgetWithin.of_execFinish (h : BudgetWithin s e n) (ht : execFinish s = .next t) : BudgetWithin t e n := by
  obtain ⟨x, hx, hn⟩ := h
  obtain ⟨en, en', hen, hl, rfl⟩ := execFinish_ok hp hr ht
  cases hx.symm.trans hen
  exact budgetWithin_setEngine (en' := en'.complete) hen ((bitBudget_finishLoop_le hl).trans hn) .ok

end

/-- The INGESTs of a DECODE raise the budget by at most 8 each, and its FINISH leaves it. -/
theorem BudgetWithin.of_issueAll {s t : State} {e n : Nat} {bytes : List Byte} (h : BudgetWithin s e n)
    (ht : issueAll (.engine e) (bytes.map .ingest ++ [.finish]) s = .next t) (hr : t.lastResponse = some .ok) :
    BudgetWithin t e (n + 8 * bytes.length) := by
  induction bytes generalizing s n with
  | nil =>
    obtain ⟨u, hu, hru, hend⟩ := issueAll_cons_ok ht hr
    cases hend
    exact BudgetWithin.of_execFinish (s := s.present _ _) rfl hr h hu
  | cons b bytes ih =>
    obtain ⟨u, hu, hru, hrest⟩ := issueAll_cons_ok ht hr
    have hstep := BudgetWithin.of_execIngest (s := s.present _ _) rfl hru h hu
    have hlen : n + 8 * (b :: bytes).length = n + 8 + 8 * bytes.length := by
      rw [List.length_cons]
      omega
    rw [hlen]
    exact ih hstep hrest

/-- Settles O47: from RESET's 0 on, the budget is at most 8 for each INGEST, and the result's length is part of it. -/
theorem outputBoundedByInput : Obligations.OutputBoundedByInput := by
  unfold Obligations.OutputBoundedByInput
  intro s t e bytes out _ _ _ ht hout
  obtain ⟨hr, hhost⟩ := decodeResult_output hout
  rw [decodeLiteral_eq] at ht
  obtain ⟨u, hu, hru, hrest⟩ := issueAll_cons_ok ht hr
  have hreset := budgetWithin_of_execReset (s := s.present _ _) rfl hru hu
  obtain ⟨en, hen, hbudget⟩ := hreset.of_issueAll hrest hr
  rw [Nat.zero_add] at hbudget
  calc out.length = en.outLen := length_of_hostOutput hen hhost
    _ ≤ bitBudget en := Nat.le_add_right _ _
    _ ≤ 8 * bytes.length := hbudget

end Sys2Proof.Safety
end

section
/-! SUPPORT. Command words by their two fields (30_encoding.md R70 to R73): which command a word decodes to, and which
words are legal. -/

namespace Sys2Proof

/-- The field `op` of a command's word (30_encoding.md R71). -/
def Instr.opcode : Instr → Byte
  | .build => 0x01#8
  | .reset => 0x02#8
  | .ingest _ => 0x03#8
  | .finish => 0x04#8

/-- The field `arg` of a command's word: the operand of INGEST, 0 where there is none (30_encoding.md R71, R72). -/
def Instr.operand : Instr → Byte
  | .build => 0x00#8
  | .reset => 0x00#8
  | .ingest b => b
  | .finish => 0x00#8

/-- A command's word is its two fields. -/
theorem encode_eq_append (i : Instr) : encode i = i.opcode ++ i.operand := by
  cases i <;> rfl

/-- Every word is its two fields (30_encoding.md R70). -/
theorem opField_append_argField (w : CmdWord) : opField w ++ argField w = w :=
  BitVec.extractLsb'_append_extractLsb'

/-- The field `op` as a number. -/
theorem opField_toNat (w : CmdWord) : (opField w).toNat = w.toNat / 256 := by
  rw [opField, BitVec.extractLsb'_toNat, Nat.shiftRight_eq_div_pow]
  omega

/-- The field `arg` as a number. -/
theorem argField_toNat (w : CmdWord) : (argField w).toNat = w.toNat % 256 := by
  rw [argField, BitVec.extractLsb'_toNat, Nat.shiftRight_zero]

/-- A command without an operand has the fields of the word that it is decoded from. -/
theorem fields_of_decodeBare (i : Instr) {j : Instr} {op arg : Byte} (hop : op = i.opcode) (hi : i.operand = 0#8)
    (h : decodeBare i op arg = .ok j) : op = j.opcode ∧ arg = j.operand := by
  unfold decodeBare at h
  split at h
  case isTrue harg =>
    cases h
    exact ⟨hop, harg.trans hi.symm⟩
  case isFalse => cases h

/-- The command a word decodes to has the word's fields. -/
theorem fields_of_decode {w : CmdWord} {i : Instr} (h : decode w = .ok i) :
    opField w = i.opcode ∧ argField w = i.operand := by
  unfold decode at h
  split at h
  case isTrue hop => exact fields_of_decodeBare .build hop rfl h
  split at h
  case isTrue hop => exact fields_of_decodeBare .reset hop rfl h
  split at h
  case isTrue hop =>
    cases h
    exact ⟨hop, rfl⟩
  split at h
  case isTrue hop => exact fields_of_decodeBare .finish hop rfl h
  case isFalse => cases h

/-- A word that decodes is its command's word. -/
theorem encode_of_decode {w : CmdWord} {i : Instr} (h : decode w = .ok i) : encode i = w := by
  obtain ⟨hop, harg⟩ := fields_of_decode h
  rw [encode_eq_append, ← hop, ← harg, opField_append_argField]

/-- A word decodes to a command exactly when it has the command's fields. -/
theorem decode_eq_ok_iff {w : CmdWord} {i : Instr} :
    decode w = .ok i ↔ opField w = i.opcode ∧ argField w = i.operand := by
  refine ⟨fields_of_decode, fun ⟨hop, harg⟩ => ?_⟩
  rw [← opField_append_argField w, hop, harg, ← encode_eq_append]
  exact Safety.decode_encode i

/-- The word's fields as numbers, where it decodes to a command. -/
theorem decode_eq_ok_iff_toNat {w : CmdWord} {i : Instr} :
    decode w = .ok i ↔ w.toNat / 256 = i.opcode.toNat ∧ w.toNat % 256 = i.operand.toNat := by
  rw [decode_eq_ok_iff, ← BitVec.toNat_inj, ← BitVec.toNat_inj, opField_toNat, argField_toNat]

/-- The legal words are those of the four rows of 30_encoding.md R71. -/
theorem exists_decode_iff {w : CmdWord} {P : Instr → Prop} :
    (∃ i, decode w = .ok i ∧ P i) ↔
      (w.toNat / 256 = 1 ∧ w.toNat % 256 = 0 ∧ P .build) ∨ (w.toNat / 256 = 2 ∧ w.toNat % 256 = 0 ∧ P .reset) ∨
      (w.toNat / 256 = 3 ∧ P (.ingest (argField w))) ∨ (w.toNat / 256 = 4 ∧ w.toNat % 256 = 0 ∧ P .finish) := by
  constructor
  · rintro ⟨i, hw, hP⟩
    obtain ⟨hop, harg⟩ := decode_eq_ok_iff_toNat.1 hw
    cases i with
    | build => exact .inl ⟨hop, harg, hP⟩
    | reset => exact .inr (.inl ⟨hop, harg, hP⟩)
    | ingest b =>
      obtain ⟨-, rfl⟩ := fields_of_decode hw
      exact .inr (.inr (.inl ⟨hop, hP⟩))
    | finish => exact .inr (.inr (.inr ⟨hop, harg, hP⟩))
  · rintro (⟨hop, harg, hP⟩ | ⟨hop, harg, hP⟩ | ⟨hop, hP⟩ | ⟨hop, harg, hP⟩)
    · exact ⟨.build, decode_eq_ok_iff_toNat.2 ⟨hop, harg⟩, hP⟩
    · exact ⟨.reset, decode_eq_ok_iff_toNat.2 ⟨hop, harg⟩, hP⟩
    · exact ⟨.ingest _, decode_eq_ok_iff_toNat.2 ⟨hop, (argField_toNat w).symm⟩, hP⟩
    · exact ⟨.finish, decode_eq_ok_iff_toNat.2 ⟨hop, harg⟩, hP⟩

/-- Settles O2: a word is its two fields, and a command is read off them. -/
theorem decodeAndEncodeAgree : Obligations.DecodeAndEncodeAgree := by
  unfold Obligations.DecodeAndEncodeAgree
  refine ⟨fun i _ => Safety.decode_encode i, fun w i => encode_of_decode, fun w => ?legal⟩
  case legal =>
    have hrows := exists_decode_iff (w := w) (P := fun _ => True)
    simp only [and_true] at hrows
    rw [hrows]
    omega

/-- Settles O1: each word is written out, and the decoder computes. -/
theorem writtenWordsDecode : Obligations.WrittenWordsDecode := by
  unfold Obligations.WrittenWordsDecode
  decide

end Sys2Proof
end

section
/-! SUPPORT. The stored word of a Code Table entry and its fields (30_encoding.md R76). -/

namespace Sys2Proof

/-- Every word of 64 bits is four fields, side by side. -/
theorem entryFields_append (w : EntryWord) :
    w.extractLsb' 47 17 ++ w.extractLsb' 38 9 ++ w.extractLsb' 32 6 ++ w.extractLsb' 0 32 = w := by
  rw [BitVec.extractLsb'_append_extractLsb'_eq_extractLsb' (show 47 = 38 + 9 from rfl),
    BitVec.extractLsb'_append_extractLsb'_eq_extractLsb' (show 38 = 32 + 6 from rfl)]
  exact BitVec.extractLsb'_append_extractLsb'

/-- The four fields of an entry's word. -/
theorem packEntry_fields (x : TableEntry) :
    (packEntry x).extractLsb' 47 17 = 0#17 ∧ (packEntry x).extractLsb' 38 9 = x.symbol ∧
    (packEntry x).extractLsb' 32 6 = x.length ∧ (packEntry x).extractLsb' 0 32 = x.code := by
  unfold packEntry
  refine ⟨?zero, ?symbol, ?length, BitVec.extractLsb'_append_eq_right⟩
  case zero =>
    rw [BitVec.extractLsb'_append_eq_of_le (by decide), BitVec.extractLsb'_append_eq_of_le (by decide)]
    exact BitVec.extractLsb'_append_eq_left
  case symbol =>
    rw [BitVec.extractLsb'_append_eq_of_le (by decide), BitVec.extractLsb'_append_eq_of_le (by decide)]
    exact BitVec.extractLsb'_append_eq_right
  case length =>
    rw [BitVec.extractLsb'_append_eq_of_le (by decide)]
    exact BitVec.extractLsb'_append_eq_right

/-- An entry is held by its own word and by no other. -/
theorem unpackEntry_eq_some_iff {w : EntryWord} {x : TableEntry} : unpackEntry w = some x ↔ packEntry x = w := by
  constructor
  · intro h
    unfold unpackEntry at h
    split at h
    case isTrue hzero =>
      cases h
      rw [packEntry, ← hzero]
      exact entryFields_append w
    case isFalse => cases h
  · rintro rfl
    obtain ⟨hzero, hsymbol, hlength, hcode⟩ := packEntry_fields x
    rw [unpackEntry, if_pos hzero, hsymbol, hlength, hcode]

/-- An entry's word as a number: no field reaches into the one above it. -/
theorem packEntry_toNat (x : TableEntry) :
    (packEntry x).toNat = x.code.toNat + x.length.toNat * 2 ^ 32 + x.symbol.toNat * 2 ^ 38 := by
  simp only [packEntry, BitVec.toNat_append, BitVec.toNat_ofNat, Nat.zero_mod, Nat.zero_shiftLeft, Nat.zero_or]
  rw [← Nat.shiftLeft_add_eq_or_of_lt x.length.isLt, ← Nat.shiftLeft_add_eq_or_of_lt x.code.isLt, Nat.shiftLeft_eq,
    Nat.shiftLeft_eq]
  omega

/-- Settles O3: the word's number is the sum of its fields, and an entry's word is the one that holds it. -/
theorem tableEntryWordLayout : Obligations.TableEntryWordLayout := by
  unfold Obligations.TableEntryWordLayout
  intro x
  exact ⟨packEntry_toNat x, unpackEntry_eq_some_iff.2 rfl, fun w => unpackEntry_eq_some_iff.1⟩

end Sys2Proof
end

section
/-! SUPPORT. The rows of the commands (30_encoding.md R71, R74): the agent a command belongs to, the responses it can give
there, and `ILLEGAL_COMMAND` everywhere else (R73). -/

namespace Sys2Proof.Safety

open Sys2Proof.Machine

/-- The port is one of the command's own agent: the Builder for BUILD, an engine for the others (30_encoding.md R71). -/
def ownPort : Instr → Port → Prop
  | .build, p => p = .builder
  | .reset, p => p ≠ .builder
  | .ingest _, p => p ≠ .builder
  | .finish, p => p ≠ .builder

/-- The responses a command can give on its own agent's port (30_encoding.md R74). -/
def rowResponses : Instr → List Response
  | .build => [.ok, .prefixCodeViolation, .sequenceRefused]
  | .reset => [.ok, .sequenceRefused]
  | .ingest _ => [.ok, .eosDecoded, .emptySlot, .sequenceRefused]
  | .finish => [.ok, .eosDecoded, .invalidPadding, .sequenceRefused]

/-- `t` holds a response that the command can give on the port it was presented on. -/
def RowAnswered (i : Instr) (p : Port) (t : State) : Prop :=
  ∃ r, t.response = some (p, r) ∧ ((¬ ownPort i p ∧ r = .illegalCommand) ∨ (ownPort i p ∧ r ∈ rowResponses i))

/-- `ILLEGAL_COMMAND` is in no row. -/
theorem illegalCommand_notMem_rowResponses (i : Instr) : Response.illegalCommand ∉ rowResponses i := by
  cases i <;> simp [rowResponses]

/-- A command that answers `ILLEGAL_COMMAND` is not on its own agent's port. -/
theorem RowAnswered.ne_illegalCommand {i : Instr} {p : Port} {t : State} (h : RowAnswered i p t) (hp : ownPort i p) :
    t.response ≠ some (p, .illegalCommand) := by
  obtain ⟨r, hr, ⟨hnot, -⟩ | ⟨-, hmem⟩⟩ := h
  · exact absurd hp hnot
  · intro hill
    cases hr.symm.trans hill
    exact illegalCommand_notMem_rowResponses i hmem

section
variable {s t : State} {i : Instr} {r : Response}

/-- A command that is refused as illegal, off its own agent's port, has answered. -/
theorem rowAnswered_illegal (hp : ¬ ownPort i s.port) : RowAnswered i s.port (s.refuse .illegalCommand) :=
  ⟨_, rfl, .inl ⟨hp, rfl⟩⟩

/-- A command that responds as its row allows, on its own agent's port, has answered. -/
theorem rowAnswered_of_response (hp : ownPort i s.port) (ht : t.response = some (s.port, r)) (hr : r ∈ rowResponses i) :
    RowAnswered i s.port t :=
  ⟨r, ht, .inr ⟨hp, hr⟩⟩

/-- BUILD answers as its row allows. -/
theorem execBuild_rowAnswered (h : execBuild s = .next t) : RowAnswered .build s.port t := by
  rcases execBuild_next h with ⟨e, hp, -, rfl⟩ | ⟨hp, -, rfl⟩ | ⟨hp, -, -, ⟨tree, -, rfl⟩ | ⟨-, rfl⟩⟩
  · exact rowAnswered_illegal (by simp [ownPort, hp])
  · exact rowAnswered_of_response hp rfl (by decide)
  · exact rowAnswered_of_response hp rfl (by decide)
  · exact rowAnswered_of_response hp rfl (by decide)

/-- RESET answers as its row allows. -/
theorem execReset_rowAnswered (h : execReset s = .next t) : RowAnswered .reset s.port t := by
  rcases execReset_next h with ⟨hp, rfl⟩ | ⟨e, en, hp, -, ⟨-, rfl⟩ | ⟨-, -, rfl⟩⟩
  · exact rowAnswered_illegal (by simp [ownPort, hp])
  · exact rowAnswered_of_response (by simp [ownPort, hp]) rfl (by decide)
  · exact rowAnswered_of_response (by simp [ownPort, hp]) rfl (by decide)

/-- INGEST answers as its row allows: its loop raises `EMPTY_SLOT` and `EOS_DECODED` alone. -/
theorem execIngest_rowAnswered {b : Byte} (h : execIngest b s = .next t) : RowAnswered (.ingest b) s.port t := by
  rcases execIngest_next h with
    ⟨hp, rfl⟩ | ⟨e, en, hp, -, ⟨-, rfl⟩ | ⟨-, -, ⟨en', -, rfl⟩ | ⟨k, hl, rfl⟩⟩⟩
  · exact rowAnswered_illegal (by simp [ownPort, hp])
  · exact rowAnswered_of_response (by simp [ownPort, hp]) rfl (by simp [rowResponses])
  · exact rowAnswered_of_response (by simp [ownPort, hp]) rfl (by simp [rowResponses])
  · refine rowAnswered_of_response (by simp [ownPort, hp]) rfl ?_
    rcases ingestLoop_raise hl with rfl | rfl
    · simp [rowResponses, EngineFault.response]
    · simp [rowResponses, EngineFault.response]

/-- FINISH answers as its row allows: its loop raises `EOS_DECODED` alone, the Padding Validator `INVALID_PADDING`. -/
theorem execFinish_rowAnswered (h : execFinish s = .next t) : RowAnswered .finish s.port t := by
  rcases execFinish_next h with
    ⟨hp, rfl⟩ | ⟨e, en, hp, -, ⟨-, rfl⟩ | ⟨-, -, ⟨en', -, ⟨-, rfl⟩ | ⟨-, rfl⟩⟩ | ⟨k, hl, rfl⟩⟩⟩
  · exact rowAnswered_illegal (by simp [ownPort, hp])
  · exact rowAnswered_of_response (by simp [ownPort, hp]) rfl (by decide)
  · exact rowAnswered_of_response (by simp [ownPort, hp]) rfl (by decide)
  · exact rowAnswered_of_response (by simp [ownPort, hp]) rfl (by decide)
  · cases finishLoop_raise hl
    exact rowAnswered_of_response (by simp [ownPort, hp]) rfl (by decide)

/-- Every command answers as its row allows. -/
theorem exec_rowAnswered (h : exec i s = .next t) : RowAnswered i s.port t := by
  cases i with
  | build => exact execBuild_rowAnswered h
  | reset => exact execReset_rowAnswered h
  | ingest b => exact execIngest_rowAnswered h
  | finish => exact execFinish_rowAnswered h

/-- Off its own agent's port a command is an illegal word. -/
theorem exec_of_not_ownPort (hp : ¬ ownPort i s.port) : exec i s = s.rejectIllegal := by
  cases i with
  | build =>
    cases hport : s.port with
    | builder => exact absurd hport hp
    | engine e => simp [exec, execBuild, State.onBuilder, hport]
  | reset => simp [exec, execReset, State.onEngine, not_not.1 hp]
  | ingest b => simp [exec, execIngest, State.onEngine, not_not.1 hp]
  | finish => simp [exec, execFinish, State.onEngine, not_not.1 hp]

/-- On a port that exists an illegal word is answered. -/
theorem rejectIllegal_of_portExists (hp : portExists s s.port) : s.rejectIllegal = .next (s.refuse .illegalCommand) := by
  unfold State.rejectIllegal
  split
  · rfl
  · rename_i e he
    rw [he] at hp
    exact if_pos hp

end

/-- Settles O12: each clause is its command's row. -/
theorem responsesOfEachCommand : Obligations.ResponsesOfEachCommand := by
  unfold Obligations.ResponsesOfEachCommand
  intro s t
  refine ⟨fun h => ?build, fun h => ?reset, fun b h => ?ingest, fun h => ?finish⟩
  case build => simpa [RowAnswered, ownPort, rowResponses] using exec_rowAnswered h
  case reset => simpa [RowAnswered, ownPort, rowResponses] using exec_rowAnswered h
  case ingest => simpa [RowAnswered, ownPort, rowResponses] using exec_rowAnswered h
  case finish => simpa [RowAnswered, ownPort, rowResponses] using exec_rowAnswered h

/-- The word decodes to a command that belongs on the port. -/
def LegalOn (w : CmdWord) (p : Port) : Prop := ∃ i, decode w = .ok i ∧ ownPort i p

/-- A word that is not legal on its port, which exists, is refused with `ILLEGAL_COMMAND` (30_encoding.md R73). -/
theorem step_of_not_legalOn {s : State} {p : Port} {w : CmdWord} {rest : List HostEvent}
    (hq : s.pending = .command p w :: rest) (hp : portExists s p) (h : ¬ LegalOn w p) :
    step s = .next ((s.present p rest).refuse .illegalCommand) := by
  have hreject : (s.present p rest).rejectIllegal = .next ((s.present p rest).refuse .illegalCommand) :=
    rejectIllegal_of_portExists (s := s.present p rest) (by cases p <;> exact hp)
  rw [← hreject]
  cases hw : decode w with
  | ok i => rw [step_of_command hq hw, exec_of_not_ownPort fun ho => h ⟨i, hw, ho⟩]
  | error x => simp only [step, hq, hw]

/-- A word that is legal on its port is not answered `ILLEGAL_COMMAND`. -/
theorem LegalOn.response_ne_illegalCommand {s t : State} {p : Port} {w : CmdWord} {rest : List HostEvent}
    (h : LegalOn w p) (hq : s.pending = .command p w :: rest) (ht : step s = .next t) :
    t.response ≠ some (p, .illegalCommand) := by
  obtain ⟨i, hw, hp⟩ := h
  rw [step_of_command hq hw] at ht
  exact (exec_rowAnswered ht).ne_illegalCommand hp

/-- The words that are legal on a port, by their fields. -/
theorem legalOn_iff {w : CmdWord} {p : Port} : LegalOn w p ↔
    (w.toNat / 256 = 1 ∧ w.toNat % 256 = 0 ∧ p = .builder) ∨ (w.toNat / 256 = 2 ∧ w.toNat % 256 = 0 ∧ p ≠ .builder) ∨
    (w.toNat / 256 = 3 ∧ p ≠ .builder) ∨ (w.toNat / 256 = 4 ∧ w.toNat % 256 = 0 ∧ p ≠ .builder) :=
  exists_decode_iff

/-- Settles O8: the illegal cases are those in which the word is not legal on its port. -/
theorem illegalCommandsRefused : Obligations.IllegalCommandsRefused := by
  unfold Obligations.IllegalCommandsRefused
  intro s p w rest hq hp op arg illegal
  have hillegal : illegal ↔ ¬ LegalOn w p := by
    rw [legalOn_iff]
    by_cases hb : p = .builder
    · simp only [illegal, op, arg, hb, ne_eq, eq_self, not_true, and_true, and_false, or_false, false_or]
      omega
    · simp only [illegal, op, arg, hb, ne_eq, not_false_iff, and_true, and_false, or_false, false_or]
      omega
  refine ⟨fun h => step_of_not_legalOn hq hp (hillegal.1 h), fun h t ht => ?_⟩
  exact (not_not.1 (mt hillegal.2 h)).response_ne_illegalCommand hq ht

end Sys2Proof.Safety
end

section
/-! SUPPORT. A Code Table passes the Builder's checks exactly when it is well-formed (30_encoding.md R77), check by
check. -/

namespace Sys2Proof.Safety

open Sys2Proof.Machine

/-- `W_nonempty`. -/
theorem tableNonempty_iff (table : List TableEntry) : tableNonempty table = true ↔ 1 ≤ table.length := by
  cases table <;> simp [tableNonempty]

/-- `W_len`. -/
theorem tableLengthsOk_iff (table : List TableEntry) :
    tableLengthsOk table = true ↔ ∀ x ∈ table, 1 ≤ x.length.toNat ∧ x.length.toNat ≤ 32 := by
  simp only [tableLengthsOk, List.all_eq_true, Bool.and_eq_true, decide_eq_true_eq]

/-- `W_code`. -/
theorem tableCodesOk_iff (table : List TableEntry) :
    tableCodesOk table = true ↔ ∀ x ∈ table, x.code.toNat < 2 ^ x.length.toNat := by
  simp only [tableCodesOk, List.all_eq_true, decide_eq_true_eq]

/-- `W_sym`: a symbol stands at one place of the table at most. -/
theorem tableSymbolsOk_iff (table : List TableEntry) : tableSymbolsOk table = true ↔
    ∀ (i j : Nat) (x y : TableEntry), table[i]? = some x → table[j]? = some y → x.symbol = y.symbol → i = j := by
  rw [tableSymbolsOk, decide_eq_true_eq]
  constructor
  · intro hnodup i j x y hx hy hxy
    have hi : i < (table.map TableEntry.symbol).length := by
      simpa using (List.getElem?_eq_some_iff.1 hx).1
    exact (List.getElem?_inj hi hnodup).1 (by simp [hx, hy, hxy])
  · intro h
    rw [List.nodup_iff_injective_getElem]
    intro i j hij
    have hi : i.1 < table.length := by simpa using i.2
    have hj : j.1 < table.length := by simpa using j.2
    exact Fin.ext (h i j _ _ (List.getElem?_eq_getElem hi) (List.getElem?_eq_getElem hj) (by simpa using hij))

/-- `W_eos`, where no symbol stands twice: `EOS_SYM` stands in the table. -/
theorem tableEosOk_iff {table : List TableEntry} (eos : Symbol) (h : tableSymbolsOk table = true) :
    tableEosOk table eos = true ↔ ∃ x ∈ table, x.symbol = eos := by
  have hnodup : (table.map TableEntry.symbol).Nodup := of_decide_eq_true h
  have hcount : table.countP (fun x => x.symbol == eos) = (table.map TableEntry.symbol).count eos :=
    (List.countP_map (p := (· == eos)) (f := TableEntry.symbol)).symm
  rw [tableEosOk, beq_iff_eq, hcount, hnodup.count]
  simp

/-- `W_byte`. -/
theorem tableBytesOk_iff (table : List TableEntry) (eos : Symbol) :
    tableBytesOk table eos = true ↔ ∀ x ∈ table, x.symbol ≠ eos → x.symbol.toNat ≤ 255 := by
  simp only [tableBytesOk, List.all_eq_true, Bool.or_eq_true, beq_iff_eq, decide_eq_true_eq, or_iff_not_imp_left]

/-- No check is named where the first holds and none of the others is named. -/
theorem ite_some_eq_none_iff {b : Bool} {c : TableCheck} {rest : Option TableCheck} :
    (if b = false then some c else rest) = none ↔ b = true ∧ rest = none := by
  cases b <;> simp

/-- No check is named where all hold. -/
theorem failedTableCheck_eq_none_iff (p : Parameters) : failedTableCheck p = none ↔
    tableNonempty p.table = true ∧ tableLengthsOk p.table = true ∧ tableCodesOk p.table = true ∧
    tableSymbolsOk p.table = true ∧ tableEosOk p.table p.eosSym = true ∧ tableBytesOk p.table p.eosSym = true := by
  simp only [failedTableCheck, ite_some_eq_none_iff, and_true]

/-- The Builder finds no failed check exactly where every rule of R77 holds. -/
theorem failedTableCheck_eq_none_iff_tableOk (p : Parameters) : failedTableCheck p = none ↔ TableOk p := by
  rw [failedTableCheck_eq_none_iff, tableNonempty_iff, tableLengthsOk_iff, tableCodesOk_iff, tableBytesOk_iff]
  constructor
  · rintro ⟨hnonempty, hlen, hcode, hsym, heos, hbyte⟩
    exact ⟨hlen, hcode, (tableSymbolsOk_iff _).1 hsym, (tableEosOk_iff _ hsym).1 heos, hbyte, hnonempty⟩
  · rintro ⟨hlen, hcode, hsym, heos, hbyte, hnonempty⟩
    have hsym := (tableSymbolsOk_iff _).2 hsym
    exact ⟨hnonempty, hlen, hcode, hsym, (tableEosOk_iff _ hsym).2 heos, hbyte⟩

/-- BUILD before the tree is built names the failed check, where there is one. -/
theorem execBuild_refused_iff {s : State} (hp : s.port = .builder) (hu : s.treeState = .unbuilt) (c : TableCheck) :
    execBuild s = .refused (.illFormedTable c) ↔ failedTableCheck s.params = some c := by
  simp only [execBuild, State.onBuilder, hp, acceptsBuild, hu, beq_self_eq_true, if_true]
  split
  · rename_i c' hc
    simp [hc]
  · rename_i hc
    rw [hc]
    split <;> simp

/-- Settles O13: BUILD refuses the table where some check fails, which is where some rule of R77 does. -/
theorem illFormedTableRefused : Obligations.IllFormedTableRefused := by
  unfold Obligations.IllFormedTableRefused
  intro s hp hu
  calc (∃ c, exec .build s = .refused (.illFormedTable c))
      ↔ ∃ c, failedTableCheck s.params = some c := exists_congr (execBuild_refused_iff hp hu)
    _ ↔ failedTableCheck s.params ≠ none := Option.ne_none_iff_exists'.symm
    _ ↔ ¬ TableOk s.params := not_congr (failedTableCheck_eq_none_iff_tableOk s.params)

end Sys2Proof.Safety
end

section
/-! SUPPORT. The bits of codes, of slots and of paths (20_memory.md R50, R51): the slots that BUILD computes
(40_tree_builder.md R103) cut the code into bytes, most significant bit first. -/

namespace Sys2Proof.Safety

open Sys2Proof.Machine

/-- The low `w` bits of a number, most significant first. -/
def natBits (n w : Nat) : List Bool := (List.range w).map fun i => n.testBit (w - 1 - i)

@[simp] theorem length_natBits (n w : Nat) : (natBits n w).length = w := by simp [natBits]

/-- A code's bits are the low `length` bits of its number. -/
theorem codeBits_eq_natBits (x : TableEntry) : codeBits x = natBits x.code.toNat x.length.toNat := rfl

/-- A byte's bits are the low 8 bits of its number. -/
theorem byteBits_eq_natBits (b : Byte) : byteBits b = natBits b.toNat 8 := rfl

/-- The bits of a number are those of its upper part, then those of its lower part. -/
theorem natBits_add (n a b : Nat) : natBits n (a + b) = natBits (n / 2 ^ b) a ++ natBits n b := by
  simp only [natBits, List.range_add, List.map_append, List.map_map, ← Nat.shiftRight_eq_div_pow,
    Nat.testBit_shiftRight]
  congr 1
  · refine List.map_congr_left fun i hi => ?_
    have := List.mem_range.1 hi
    congr 1
    omega
  · refine List.map_congr_left fun i hi => ?_
    rw [Function.comp_apply]
    congr 1
    omega

/-- Two numbers have the same low bits where they agree modulo the power of two. -/
theorem natBits_eq_iff {m n w : Nat} : natBits m w = natBits n w ↔ m % 2 ^ w = n % 2 ^ w := by
  rw [natBits, natBits, List.map_inj_left]
  constructor
  · intro h
    refine Nat.eq_of_testBit_eq fun i => ?_
    rw [Nat.testBit_mod_two_pow, Nat.testBit_mod_two_pow]
    by_cases hi : i < w
    · have := h (w - 1 - i) (List.mem_range.2 (by omega))
      rw [show w - 1 - (w - 1 - i) = i by omega] at this
      rw [this]
    · simp [hi]
  · intro h i hi
    have hw := List.mem_range.1 hi
    have := congrArg (Nat.testBit · (w - 1 - i)) h
    simpa [Nat.testBit_mod_two_pow, show w - 1 - i < w by omega] using this

/-- The bits of a byte taken from a number are its low 8 bits. -/
theorem byteBits_lowByte (n : Nat) : byteBits (lowByte n) = natBits n 8 := by
  rw [byteBits_eq_natBits, natBits_eq_iff, lowByte, BitVec.toNat_ofNat, Nat.mod_mod]

/-- A byte's bits, cut after the first `w`. -/
theorem byteBits_eq_append {w : Nat} (hw : w ≤ 8) (s : Byte) :
    byteBits s = natBits (s.toNat / 2 ^ (8 - w)) w ++ natBits s.toNat (8 - w) := by
  rw [byteBits_eq_natBits, ← natBits_add, Nat.add_sub_cancel' hw]

/-- A byte begins with the low `w` bits of a number where its upper part is that number's lower part. -/
theorem natBits_prefix_byteBits_iff {n w : Nat} (hw : w ≤ 8) (s : Byte) :
    natBits n w <+: byteBits s ↔ s.toNat / 2 ^ (8 - w) = n % 2 ^ w := by
  have hlt : s.toNat / 2 ^ (8 - w) < 2 ^ w := by
    rw [Nat.div_lt_iff_lt_mul (by positivity), ← Nat.pow_add, Nat.add_sub_cancel' hw]
    exact s.isLt
  rw [byteBits_eq_append hw, List.prefix_iff_eq_take, List.take_left' (by simp), natBits_eq_iff, Nat.mod_eq_of_lt hlt,
    eq_comm]

/-- The bits of a code that remain after a full-byte step are cut after the step's slot. -/
theorem natBits_descentSlot (code : BitVec 32) (rem : Nat) :
    natBits code.toNat (8 + rem) = byteBits (descentSlot code rem) ++ natBits code.toNat rem := by
  rw [natBits_add, descentSlot, byteBits_lowByte, Nat.shiftRight_eq_div_pow]

/-- The first slot of a terminal's fan-out has the remaining bits of the code on top and zeros below. -/
theorem fanOutFirst_toNat (code : BitVec 32) {rem : Nat} (hr : rem ≤ 8) :
    (fanOutFirst code rem).toNat = 2 ^ (8 - rem) * (code.toNat % 2 ^ rem) := by
  have h256 : 2 ^ 8 = 2 ^ (8 - rem) * 2 ^ rem := by rw [← Nat.pow_add, Nat.sub_add_cancel hr]
  rw [fanOutFirst, lowByte, BitVec.toNat_ofNat, Nat.shiftLeft_eq, h256, Nat.mul_comm, Nat.mul_mod_mul_left]

/-- The slots of a terminal's fan-out are those that begin with the remaining bits of the code
(40_tree_builder.md R104). -/
theorem mem_fanOutSlots_iff (code : BitVec 32) {rem : Nat} (hr : rem ≤ 8) (s : Byte) :
    s ∈ fanOutSlots code rem ↔ natBits code.toNat rem <+: byteBits s := by
  rw [natBits_prefix_byteBits_iff hr]
  simp only [fanOutSlots, List.mem_map, List.mem_range, Nat.one_shiftLeft, fanOutFirst_toNat code hr]
  have hlt : code.toNat % 2 ^ rem < 2 ^ rem := Nat.mod_lt _ (by positivity)
  have h256 : 2 ^ (8 - rem) * 2 ^ rem = 256 := by rw [← Nat.pow_add, Nat.sub_add_cancel hr]
  generalize code.toNat % 2 ^ rem = q at hlt ⊢
  generalize 2 ^ rem = b at hlt h256
  have hpos : 0 < 2 ^ (8 - rem) := by positivity
  generalize 2 ^ (8 - rem) = a at h256 hpos ⊢
  constructor
  · rintro ⟨i, hi, rfl⟩
    have hsum : a * q + i < 256 := calc
      a * q + i < a * (q + 1) := by rw [Nat.mul_succ]; omega
      _ ≤ a * b := Nat.mul_le_mul_left a hlt
      _ = 256 := h256
    rw [lowByte, BitVec.toNat_ofNat, Nat.mod_eq_of_lt hsum, Nat.mul_add_div hpos, Nat.div_eq_of_lt hi, Nat.add_zero]
  · rintro rfl
    exact ⟨s.toNat % a, Nat.mod_lt _ hpos, by rw [Nat.div_add_mod, lowByte, BitVec.ofNat_toNat, BitVec.setWidth_eq]⟩

/-- Bytes that agree in the first `v` bits begin with the same strings of at most `v` bits. -/
theorem prefix_byteBits_of_div_eq {l : List Bool} {s s' : Byte} {v : Nat} (hv : v ≤ 8) (hl : l.length ≤ v)
    (h : s.toNat / 2 ^ (8 - v) = s'.toNat / 2 ^ (8 - v)) (hs : l <+: byteBits s) : l <+: byteBits s' := by
  rw [byteBits_eq_append hv] at hs ⊢
  rw [← h]
  exact (List.prefix_of_prefix_length_le hs (List.prefix_append _ _) (by simpa using hl)).trans (List.prefix_append _ _)

@[simp] theorem length_byteBits (b : Byte) : (byteBits b).length = 8 := by simp [byteBits]

@[simp] theorem length_codeBits (x : TableEntry) : (codeBits x).length = x.length.toNat := by simp [codeBits]

@[simp] theorem length_streamBits (path : List Byte) : (streamBits path).length = 8 * path.length := by
  simp [streamBits, Nat.mul_comm]

/-- The bits of a path are those of its parts. -/
theorem streamBits_append (path path' : List Byte) : streamBits (path ++ path') = streamBits path ++ streamBits path' :=
  List.flatMap_append

/-- A path's bits, slot by slot. -/
theorem streamBits_snoc (path : List Byte) (s : Byte) : streamBits (path ++ [s]) = streamBits path ++ byteBits s := by
  simp [streamBits]

/-- A byte is its bits. -/
theorem byteBits_injective {s s' : Byte} (h : byteBits s = byteBits s') : s = s' := by
  rw [byteBits_eq_natBits, byteBits_eq_natBits, natBits_eq_iff] at h
  exact BitVec.eq_of_toNat_eq (by rwa [Nat.mod_eq_of_lt s.isLt, Nat.mod_eq_of_lt s'.isLt] at h)

/-- A path is its bits. -/
theorem streamBits_injective {path path' : List Byte} (h : streamBits path = streamBits path') : path = path' := by
  induction path generalizing path' with
  | nil =>
    have := congrArg List.length h
    cases path' with
    | nil => rfl
    | cons s' rest' => simp at this
  | cons s rest ih =>
    cases path' with
    | nil =>
      have := congrArg List.length h
      simp at this
    | cons s' rest' =>
      simp only [streamBits, List.flatMap_cons] at h
      obtain ⟨hs, hrest⟩ := List.append_inj h (by simp)
      rw [byteBits_injective hs, ih hrest]

/-- Of two paths on the way to the same code the longer passes through the shorter. -/
theorem path_prefix_of_prefix {path path' : List Byte} {l : List Bool} (h : streamBits path <+: l)
    (h' : streamBits path' <+: l) (hlen : path.length ≤ path'.length) : path <+: path' := by
  have hsplit := congrArg streamBits (List.take_append_drop path.length path')
  rw [streamBits_append] at hsplit
  have htake : streamBits (path'.take path.length) <+: l := (show _ <+: _ from ⟨_, hsplit⟩).trans h'
  have heq : path = path'.take path.length := streamBits_injective
    ((List.prefix_of_prefix_length_le h htake (by simp; omega)).eq_of_length (by simp; omega))
  rw [heq]
  exact List.take_prefix _ _

/-- Paths of one length that lie on the way to the same code are one path. -/
theorem path_eq_of_prefix {path path' : List Byte} {l : List Bool} (h : streamBits path <+: l)
    (h' : streamBits path' <+: l) (hlen : path.length = path'.length) : path = path' :=
  (path_prefix_of_prefix h h' (Nat.le_of_eq hlen)).eq_of_length hlen

end Sys2Proof.Safety
end

section
/-! SUPPORT. The parts of BUILD as growth of the tree: a full-byte step into an empty slot and the final step each add
one node and put it in empty slots of one node (40_tree_builder.md R103). -/

namespace Sys2Proof.Safety

open Sys2Proof.Machine

/-- `t'` is `t` with the new node `x`, which stands in the slots `slots` of node `cur`; these were empty. -/
structure Grown (t t' : Tree) (cur : Nat) (slots : List Byte) (x : Node) : Prop where
  curInternal : isInternal t cur
  child : ∀ m s c, Tree.child t' m s = .ok (some c) ↔
    (m = cur ∧ s ∈ slots ∧ c = t.length) ∨ Tree.child t m s = .ok (some c)
  header : ∀ m, Tree.header t' m = Tree.header (t ++ [x]) m

/-- What makes a node a given terminal can be read off its header. -/
theorem getElem?_terminal_iff_header (t : Tree) (n : Nat) (sym : Symbol) (k : Fin 8) :
    t[n]? = some (.terminal sym k) ↔ Tree.header t n = .ok (Node.header (.terminal sym k)) := by
  rw [Tree.header_ok_iff]
  refine ⟨fun h => ⟨_, h, rfl⟩, ?_⟩
  rintro ⟨x, hx, hh⟩
  cases x with
  | internal slots => simp at hh
  | terminal sym' k' =>
    simp only [Node.header_terminal, NodeHeader.mk.injEq, true_and] at hh
    obtain ⟨rfl, hbits⟩ := hh
    have := congrArg BitVec.toNat hbits
    rw [terminalBits_toNat, terminalBits_toNat] at this
    rw [hx, Fin.ext (show k'.val = k.val by omega)]

/-- A terminal is not internal. -/
theorem not_isInternal_of_terminal {t : Tree} {n : Nat} {sym : Symbol} {k : Fin 8}
    (h : t[n]? = some (.terminal sym k)) : ¬ isInternal t n := by
  rintro ⟨slots, hn⟩
  simp [h] at hn

/-- A slot of an internal node can be read. -/
theorem isInternal.exists_child {t : Tree} {n : Nat} (h : isInternal t n) (s : Byte) :
    ∃ r, Tree.child t n s = .ok r := by
  obtain ⟨slots, hn⟩ := h
  exact ⟨_, (Tree.child_ok_iff t n s _).2 ⟨slots, hn, rfl⟩⟩

/-- A slot of an internal node can be written. -/
theorem isInternal.exists_writeChild {t : Tree} {n : Nat} (h : isInternal t n) (s : Byte) (c : Nat) :
    ∃ t', Tree.writeChild t n s c = .ok t' := by
  obtain ⟨slots, hn⟩ := h
  exact ⟨_, (Tree.writeChild_ok_iff t n s c _).2 ⟨slots, hn, rfl⟩⟩

/-- The slots of an internal node can be written, one after another. -/
theorem isInternal.exists_writeSlots {t : Tree} {n : Nat} (h : isInternal t n) (c : Nat) (slots : List Byte) :
    ∃ t', writeSlots n c slots t = .ok t' := by
  induction slots generalizing t with
  | nil => exact ⟨t, rfl⟩
  | cons s rest ih =>
    obtain ⟨t₁, ht₁⟩ := h.exists_writeChild s c
    obtain ⟨t', ht'⟩ := ih ((isInternal_congr (Tree.header_writeChild ht₁ n)).2 h)
    exact ⟨t', by simp only [writeSlots, ht₁, ht']⟩

section
variable {t t' : Tree} {cur : Nat} {slots : List Byte} {x : Node}

/-- Old nodes keep their headers. -/
theorem Grown.header_old (g : Grown t t' cur slots x) {m : Nat} (hm : m < t.length) :
    Tree.header t' m = Tree.header t m := by
  rw [g.header]
  simp only [Tree.header, List.getElem?_append_left hm]

/-- The new node has the header of `x`. -/
theorem Grown.header_new (g : Grown t t' cur slots x) : Tree.header t' t.length = .ok (Node.header x) := by
  rw [g.header]
  simp [Tree.header]

/-- Internal nodes stay internal. -/
theorem Grown.isInternal_old (g : Grown t t' cur slots x) {n : Nat} (h : isInternal t n) : isInternal t' n :=
  (isInternal_congr (g.header_old h.lt_length)).2 h

/-- Every internal node is an old one, or it is the new node. -/
theorem Grown.isInternal_iff (g : Grown t t' cur slots x) (n : Nat) :
    isInternal t' n ↔ isInternal t n ∨ (n = t.length ∧ (Node.header x).kind = NodeKind.internal) := by
  rw [isInternal_congr (g.header n)]
  simp only [isInternal, List.getElem?_append]
  split
  · simp only [Nat.ne_of_lt ‹_›, false_and, or_false]
  · rename_i h
    rw [List.getElem?_eq_none (Nat.le_of_not_lt h), List.getElem?_singleton]
    by_cases hn : n = t.length
    · cases x <;> simp [hn]
    · simp [hn, show n - t.length ≠ 0 by omega]

/-- Terminals stay terminals. -/
theorem Grown.terminal_old (g : Grown t t' cur slots x) {n : Nat} {sym : Symbol} {k : Fin 8}
    (h : t[n]? = some (.terminal sym k)) : t'[n]? = some (.terminal sym k) := by
  rw [getElem?_terminal_iff_header] at h ⊢
  rw [g.header_old, h]
  obtain ⟨y, hy, -⟩ := (Tree.header_ok_iff _ _ _).1 h
  exact (List.getElem?_eq_some_iff.1 hy).1

/-- The new node has no slot that holds a child. -/
theorem Grown.child_new (g : Grown t t' cur slots x) (s : Byte) (c : Nat) :
    Tree.child t' t.length s ≠ .ok (some c) := by
  intro h
  rcases (g.child _ _ _).1 h with ⟨heq, -, -⟩ | h
  · exact Nat.ne_of_gt g.curInternal.lt_length heq
  · exact Nat.lt_irrefl _ (isInternal_of_child h).lt_length

/-- Writing a new node, which has no slot that holds a child, into empty slots grows the tree by it. -/
theorem grown_of_writeSlots (hcur : isInternal t cur) (hempty : ∀ s ∈ slots, Tree.child t cur s = .ok none)
    (hx : ∀ m s c, Tree.child (t ++ [x]) m s = .ok (some c) ↔ Tree.child t m s = .ok (some c))
    (hw : writeSlots cur t.length slots (t ++ [x]) = .ok t') : Grown t t' cur slots x where
  curInternal := hcur
  child := fun m s c => by
    obtain ⟨hc, -, -⟩ := writeSlots_ok hw
    rw [hc]
    by_cases hms : m = cur ∧ s ∈ slots
    · obtain ⟨rfl, hs⟩ := hms
      simp [hs, hempty s hs, eq_comm]
    · rw [if_neg hms, hx]
      exact ⟨.inr, Or.rec (fun h => absurd ⟨h.1, h.2.1⟩ hms) id⟩
  header := (writeSlots_ok hw).2.1

end

/-- Everything a full-byte step of BUILD can do: go on at a new internal node, go on at the internal node it finds, end
at a terminal, or stop where a TREE element is missing (40_tree_builder.md R103). -/
theorem descend_succ (code : BitVec 32) (steps : Nat) {rem : Nat} (t : Tree) (cur : Nat) (h8 : 8 < rem) :
    (∃ t₁, Grown t t₁ cur [descentSlot code (rem - 8)] (.internal []) ∧
      descend code (steps + 1) rem t cur = descend code steps (rem - 8) t₁ t.length) ∨
    (∃ c, Tree.child t cur (descentSlot code (rem - 8)) = .ok (some c) ∧ isInternal t c ∧
      descend code (steps + 1) rem t cur = descend code steps (rem - 8) t c) ∨
    (∃ c, Tree.child t cur (descentSlot code (rem - 8)) = .ok (some c) ∧ (∃ sym k, t[c]? = some (.terminal sym k)) ∧
      descend code (steps + 1) rem t cur = .error .violation) ∨
    ((¬ isInternal t cur ∨ ∃ c, Tree.child t cur (descentSlot code (rem - 8)) = .ok (some c) ∧ t[c]? = none) ∧
      ∃ f, descend code (steps + 1) rem t cur = .error (.stop f)) := by
  by_cases hcur : isInternal t cur
  case neg =>
    refine .inr (.inr (.inr ⟨.inl hcur, ?_⟩))
    cases hchild : Tree.child t cur (descentSlot code (rem - 8)) with
    | ok r => exact absurd (isInternal_of_child hchild) hcur
    | error f => exact ⟨f, by simp only [descend, h8, if_true, hchild]⟩
  obtain ⟨r, hr⟩ := hcur.exists_child (descentSlot code (rem - 8))
  cases r with
  | none =>
    obtain ⟨t₁, ht₁⟩ := ((isInternal_newInternal t cur).2 (.inl hcur)).exists_writeChild (descentSlot code (rem - 8))
      t.length
    refine .inl ⟨t₁, grown_of_writeSlots hcur (by simpa using hr) (child_newInternal_some t) ?_, ?_⟩
    · rw [Tree.newInternal] at ht₁
      simp only [writeSlots, ht₁]
    · rw [← show (Tree.newInternal t).2 = t.length from rfl] at ht₁ ⊢
      simp only [descend, h8, if_true, hr, ht₁]
  | some c =>
    cases hc : t[c]? with
    | none =>
      have hh : Tree.header t c = .error (.treeElement c) := by simp only [Tree.header, hc]
      exact .inr (.inr (.inr ⟨.inr ⟨c, hr, hc⟩, .treeElement c, by simp only [descend, h8, if_true, hr, hh]⟩))
    | some x =>
      have hh : Tree.header t c = .ok (Node.header x) := (Tree.header_ok_iff t c _).2 ⟨x, hc, rfl⟩
      cases x with
      | internal slots =>
        exact .inr (.inl ⟨c, hr, ⟨slots, hc⟩, by simp [descend, h8, hr, hh]⟩)
      | terminal sym k =>
        exact .inr (.inr (.inl ⟨c, hr, ⟨sym, k, hc⟩, by simp [descend, h8, hr, hh]⟩))

/-- The final step of an entry starts where at most 8 bits remain. -/
theorem descend_of_le (code : BitVec 32) (steps : Nat) {rem : Nat} (t : Tree) (cur : Nat) (h8 : rem ≤ 8) :
    descend code steps rem t cur = .ok (t, cur, rem) := by
  cases steps with
  | zero => rfl
  | succ steps => exact if_neg (Nat.not_lt.2 h8)

/-- The terminal that the final step makes (40_tree_builder.md R103). -/
def terminalOf (x : TableEntry) (rem : Nat) : Node := .terminal x.symbol (Fin.ofNat 8 (rem - 1))

/-- The test of the final step passes at an internal node, or finds a slot that is occupied. -/
theorem checkEmpty_cases {t : Tree} {cur : Nat} (hcur : isInternal t cur) (slots : List Byte) :
    checkEmpty t cur slots = .ok () ∨
    (checkEmpty t cur slots = .error .violation ∧ ∃ s ∈ slots, ∃ c, Tree.child t cur s = .ok (some c)) := by
  induction slots with
  | nil => exact .inl rfl
  | cons s rest ih =>
    obtain ⟨r, hr⟩ := hcur.exists_child s
    cases r with
    | none =>
      simp only [checkEmpty, hr, List.exists_mem_cons_iff]
      exact ih.imp_right fun ⟨h, hex⟩ => ⟨h, .inr hex⟩
    | some c => exact .inr ⟨by simp only [checkEmpty, hr], s, List.mem_cons_self, c, hr⟩

/-- Everything the final step of an entry can do at an internal node: place the terminal, or find a slot that is
occupied (40_tree_builder.md R103). -/
theorem placeTerminal_cases (x : TableEntry) {t : Tree} {cur : Nat} (rem : Nat) (hcur : isInternal t cur) :
    (∃ t', Grown t t' cur (fanOutSlots x.code rem) (terminalOf x rem) ∧ placeTerminal x t cur rem = .ok t') ∨
    ((∃ s ∈ fanOutSlots x.code rem, ∃ c, Tree.child t cur s = .ok (some c)) ∧
      placeTerminal x t cur rem = .error .violation) := by
  rcases checkEmpty_cases hcur (fanOutSlots x.code rem) with hempty | ⟨hv, hex⟩
  · obtain ⟨t', ht'⟩ := ((isInternal_newTerminal t x.symbol rem cur).2 hcur).exists_writeSlots t.length
      (fanOutSlots x.code rem)
    refine .inl ⟨t', grown_of_writeSlots hcur ((checkEmpty_ok_iff _ _ _).1 hempty) ?_ ht', ?_⟩
    · exact child_newTerminal_some t x.symbol rem
    · rw [placeTerminal, hempty]
      exact ht'
  · exact .inr ⟨hex, by rw [placeTerminal, hv]⟩

end Sys2Proof.Safety
end

section
/-! SUPPORT. What the tree holds while BUILD inserts entries (40_tree_builder.md R107): which paths lead where, what
stands in an occupied slot, and where an inserted entry's terminal stands. -/

namespace Sys2Proof.Safety

open Sys2Proof.Machine

/-- The empty path leads from a node to itself, where it is internal. -/
theorem walkFrom_nil (t : Tree) (n m : Nat) : walkFrom t n [] = some m ↔ n = m ∧ isInternal t n := by
  simp only [walkFrom, isInternal]
  split
  · rename_i h
    simp [h]
  · rename_i h
    simpa using fun _ => h

/-- A path takes its first slot, then the rest. -/
theorem walkFrom_cons (t : Tree) (n : Nat) (s : Byte) (path : List Byte) (c : Nat) :
    walkFrom t n (s :: path) = some c ↔ ∃ m, Tree.child t n s = .ok (some m) ∧ walkFrom t m path = some c := by
  simp only [walkFrom]
  split
  · rename_i m hm
    simp [hm]
  · rename_i h
    simpa using fun m hm => absurd hm (h m)

/-- A path from a node, with one slot more. -/
theorem walkFrom_snoc (t : Tree) (n : Nat) (path : List Byte) (s : Byte) (c : Nat) :
    walkFrom t n (path ++ [s]) = some c ↔
      ∃ m, walkFrom t n path = some m ∧ Tree.child t m s = .ok (some c) ∧ isInternal t c := by
  induction path generalizing n with
  | nil =>
    simp only [List.nil_append, walkFrom_cons, walkFrom_nil]
    constructor
    · rintro ⟨c, hc, rfl, hi⟩
      exact ⟨n, ⟨rfl, isInternal_of_child hc⟩, hc, hi⟩
    · rintro ⟨m, ⟨rfl, -⟩, hc, hi⟩
      exact ⟨c, hc, rfl, hi⟩
  | cons s' rest ih =>
    simp only [List.cons_append, walkFrom_cons, ih]
    exact ⟨fun ⟨m, hm, m', h⟩ => ⟨m', ⟨m, hm, h.1⟩, h.2⟩, fun ⟨m', ⟨m, hm, hw⟩, h⟩ => ⟨m, hm, m', hw, h⟩⟩

/-- The empty path leads to the root, where it is internal. -/
theorem walk_nil (t : Tree) (n : Nat) : walk t [] = some n ↔ n = 0 ∧ isInternal t 0 := by
  rw [walk, walkFrom_nil, eq_comm]

/-- A path from the root, with one slot more. -/
theorem walk_snoc (t : Tree) (path : List Byte) (s : Byte) (c : Nat) : walk t (path ++ [s]) = some c ↔
    ∃ n, walk t path = some n ∧ Tree.child t n s = .ok (some c) ∧ isInternal t c :=
  walkFrom_snoc t 0 path s c

/-- Paths lead to internal nodes. -/
theorem isInternal_of_walk {t : Tree} {path : List Byte} {n : Nat} (h : walk t path = some n) : isInternal t n := by
  cases path using List.reverseRecOn with
  | nil =>
    obtain ⟨rfl, hi⟩ := (walk_nil t n).1 h
    exact hi
  | append_singleton path s =>
    obtain ⟨-, -, -, hi⟩ := (walk_snoc t path s n).1 h
    exact hi

/-- What may stand in the slot `s` of the node at `path`: the terminal of a placed entry whose last bits begin the
slot, or an internal node on the way to a longer code of `onWay`. -/
def Occupant (placed onWay : List TableEntry) (t : Tree) (path : List Byte) (s : Byte) (c : Nat) : Prop :=
  (∃ x ∈ placed, (∃ k, t[c]? = some (.terminal x.symbol k)) ∧
    path.length = (x.length.toNat - 1) / 8 ∧ codeBits x <+: streamBits (path ++ [s])) ∨
  (isInternal t c ∧ ∃ x ∈ onWay, 8 * (path.length + 1) < x.length.toNat ∧ streamBits (path ++ [s]) <+: codeBits x)

/-- The entry's terminal stands, with its remaining bits, in every slot that these begin. -/
def Placed (t : Tree) (x : TableEntry) : Prop :=
  ∃ path n c k, walk t path = some n ∧ path.length = (x.length.toNat - 1) / 8 ∧
    streamBits path <+: codeBits x ∧ t[c]? = some (.terminal x.symbol k) ∧
    k.val + 1 = x.length.toNat - 8 * path.length ∧
    ∀ s : Byte, codeBits x <+: streamBits (path ++ [s]) → Tree.child t n s = .ok (some c)

/-- The tree holds nothing but terminals of `placed` and nodes on the way to codes of `onWay`, and no internal node
twice. -/
structure OnlyCodes (placed onWay : List TableEntry) (t : Tree) : Prop where
  rootInternal : isInternal t 0
  pathUnique : ∀ path path' n, walk t path = some n → walk t path' = some n → path = path'
  occupant : ∀ path n s c, walk t path = some n → Tree.child t n s = .ok (some c) → Occupant placed onWay t path s c

/-- The tree holds the codes of the entries and nothing else. -/
structure HoldsCodes (entries : List TableEntry) (t : Tree) : Prop where
  only : OnlyCodes entries entries t
  placed : ∀ x ∈ entries, Placed t x

section
variable {placed onWay : List TableEntry} {t t' : Tree} {path : List Byte} {cur : Nat} {slots : List Byte} {x : Node}

/-- What stands in a slot is allocated. -/
theorem Occupant.lt_length {s : Byte} {c : Nat} (h : Occupant placed onWay t path s c) : c < t.length := by
  rcases h with ⟨x, -, ⟨k, hk⟩, -⟩ | ⟨hi, -⟩
  · exact (List.getElem?_eq_some_iff.1 hk).1
  · exact hi.lt_length

/-- What may stand in a slot still may when the tree grows and more entries are inserted. -/
theorem Occupant.grow {placed' onWay' : List TableEntry} {s : Byte} {c : Nat} (h : Occupant placed onWay t path s c)
    (g : Grown t t' cur slots x) (hp : placed ⊆ placed') (hw : onWay ⊆ onWay') :
    Occupant placed' onWay' t' path s c := by
  rcases h with ⟨y, hy, ⟨k, hk⟩, hlen, hpre⟩ | ⟨hi, y, hy, hlen, hpre⟩
  · exact .inl ⟨y, hp hy, ⟨k, g.terminal_old hk⟩, hlen, hpre⟩
  · exact .inr ⟨g.isInternal_old hi, y, hw hy, hlen, hpre⟩

/-- Paths lead where they led when the tree grows. -/
theorem Grown.walk_old (g : Grown t t' cur slots x) {q : List Byte} {n : Nat} (h : walk t q = some n) :
    walk t' q = some n := by
  induction q using List.reverseRecOn generalizing n with
  | nil =>
    obtain ⟨rfl, hi⟩ := (walk_nil t n).1 h
    exact (walk_nil t' 0).2 ⟨rfl, g.isInternal_old hi⟩
  | append_singleton q s ih =>
    obtain ⟨m, hm, hc, hi⟩ := (walk_snoc t q s n).1 h
    exact (walk_snoc t' q s n).2 ⟨m, ih hm, (g.child m s n).2 (.inr hc), g.isInternal_old hi⟩

/-- A placed entry stays placed when the tree grows. -/
theorem Placed.grow {y : TableEntry} (h : Placed t y) (g : Grown t t' cur slots x) : Placed t' y := by
  obtain ⟨q, n, c, k, hq, hlen, hpre, hc, hk, hslots⟩ := h
  exact ⟨q, n, c, k, g.walk_old hq, hlen, hpre, g.terminal_old hc, hk,
    fun s hs => (g.child n s c).2 (.inr (hslots s hs))⟩

/-- The new node owns no occupied slot, and every other slot that is newly occupied holds it. -/
theorem OnlyCodes.child_of_grown (h : OnlyCodes placed onWay t) (g : Grown t t' cur slots x) {q : List Byte} {n : Nat}
    (hq : walk t q = some n) (hp : walk t path = some cur) {s : Byte} {c : Nat}
    (hc : Tree.child t' n s = .ok (some c)) :
    (q = path ∧ s ∈ slots ∧ c = t.length) ∨ Tree.child t n s = .ok (some c) := by
  refine ((g.child n s c).1 hc).imp_left ?_
  rintro ⟨rfl, hs, hcl⟩
  exact ⟨h.pathUnique _ _ _ hq hp, hs, hcl⟩

/-- Every path in the grown tree is an old one, or it leads to the new node, which is then internal. -/
theorem OnlyCodes.walk_of_grown (h : OnlyCodes placed onWay t) (g : Grown t t' cur slots x)
    (hp : walk t path = some cur) {q : List Byte} {n : Nat} (hq : walk t' q = some n) :
    walk t q = some n ∨ (n = t.length ∧ (Node.header x).kind = .internal ∧ ∃ s ∈ slots, q = path ++ [s]) := by
  induction q using List.reverseRecOn generalizing n with
  | nil =>
    obtain ⟨rfl, -⟩ := (walk_nil t' n).1 hq
    exact .inl ((walk_nil t 0).2 ⟨rfl, h.rootInternal⟩)
  | append_singleton q s ih =>
    obtain ⟨m, hm, hc, hi⟩ := (walk_snoc t' q s n).1 hq
    rcases ih hm with hm | ⟨rfl, -⟩
    · rcases h.child_of_grown g hm hp hc with ⟨rfl, hs, rfl⟩ | hc
      · refine .inr ⟨rfl, ?_, s, hs, rfl⟩
        exact (((g.isInternal_iff _).1 hi).resolve_left fun h => Nat.lt_irrefl _ h.lt_length).2
      · have hlt := (h.occupant q m s n hm hc).lt_length
        exact .inl ((walk_snoc t q s n).2 ⟨m, hm, hc,
          ((g.isInternal_iff n).1 hi).resolve_right fun h => Nat.ne_of_lt hlt h.1⟩)
    · exact absurd hc (g.child_new s n)

/-- The grown tree holds nothing but codes where the new node may stand in its slots; an internal one stands in one
slot. -/
theorem OnlyCodes.grow {placed' onWay' : List TableEntry} (h : OnlyCodes placed onWay t) (g : Grown t t' cur slots x)
    (hp : walk t path = some cur) (hplaced : placed ⊆ placed') (hway : onWay ⊆ onWay')
    (hone : (Node.header x).kind = .internal → ∀ s ∈ slots, ∀ s' ∈ slots, s = s')
    (hnew : ∀ s ∈ slots, Occupant placed' onWay' t' path s t.length) : OnlyCodes placed' onWay' t' where
  rootInternal := g.isInternal_old h.rootInternal
  pathUnique := fun q q' n hq hq' => by
    have notNew : ∀ q, walk t q ≠ some t.length := fun q hq => Nat.lt_irrefl _ (isInternal_of_walk hq).lt_length
    rcases h.walk_of_grown g hp hq with hq | ⟨rfl, hk, s, hs, rfl⟩
    · rcases h.walk_of_grown g hp hq' with hq' | ⟨rfl, -⟩
      · exact h.pathUnique q q' n hq hq'
      · exact absurd hq (notNew q)
    · rcases h.walk_of_grown g hp hq' with hq' | ⟨-, -, s', hs', rfl⟩
      · exact absurd hq' (notNew q')
      · rw [hone hk s hs s' hs']
  occupant := fun q n s c hq hc => by
    rcases h.walk_of_grown g hp hq with hq | ⟨rfl, -⟩
    · rcases h.child_of_grown g hq hp hc with ⟨rfl, hs, rfl⟩ | hc
      · exact hnew s hs
      · exact (h.occupant q n s c hq hc).grow g hplaced hway
    · exact absurd hc (g.child_new s c)

end

/-- While BUILD inserts the entry `x`: `path` leads to `cur`, its bits are the first of the code's, and the last `rem`
of the code's bits remain. -/
structure AtCode (x : TableEntry) (t : Tree) (path : List Byte) (cur rem : Nat) : Prop where
  walk : walk t path = some cur
  code : codeBits x = streamBits path ++ natBits x.code.toNat rem
  remPos : 1 ≤ rem

section
variable {x : TableEntry} {t : Tree} {path : List Byte} {cur rem : Nat}

/-- The bits of the code that the path takes and those that remain. -/
theorem AtCode.length_eq (h : AtCode x t path cur rem) : x.length.toNat = 8 * path.length + rem := by
  have := congrArg List.length h.code
  simpa using this

/-- A full-byte step takes 8 bits of the code. -/
theorem AtCode.code_step (h : AtCode x t path cur rem) (h8 : 8 < rem) :
    codeBits x = streamBits (path ++ [descentSlot x.code (rem - 8)]) ++ natBits x.code.toNat (rem - 8) := by
  rw [h.code, streamBits_snoc, List.append_assoc, ← natBits_descentSlot, Nat.add_sub_cancel' (Nat.le_of_lt h8)]

/-- The slots of the fan-out are those that the code's last bits begin. -/
theorem AtCode.mem_fanOutSlots_iff (h : AtCode x t path cur rem) (h8 : rem ≤ 8) (s : Byte) :
    s ∈ fanOutSlots x.code rem ↔ codeBits x <+: streamBits (path ++ [s]) := by
  rw [Safety.mem_fanOutSlots_iff x.code h8, h.code, streamBits_snoc, List.prefix_append_right_inj]

end

/-- What the full-byte steps of an entry do: they reach the node of the final step, or meet a terminal whose code begins
the entry's (40_tree_builder.md R103, R105 test (a)). -/
theorem descend_spec {entries : List TableEntry} {x : TableEntry} {steps rem : Nat} {t : Tree} {path : List Byte}
    {cur : Nat} (ht : OnlyCodes entries (entries ++ [x]) t) (hx : AtCode x t path cur rem) (hsteps : rem ≤ steps) :
    (∃ t' path' cur' rem', descend x.code steps rem t cur = .ok (t', cur', rem') ∧
      OnlyCodes entries (entries ++ [x]) t' ∧ (∀ y, Placed t y → Placed t' y) ∧
      AtCode x t' path' cur' rem' ∧ rem' ≤ 8) ∨
    (descend x.code steps rem t cur = .error .violation ∧ ∃ y ∈ entries, codeBits y <+: codeBits x) := by
  induction steps generalizing rem t path cur with
  | zero => exact absurd hx.remPos (by omega)
  | succ steps ih =>
    by_cases h8 : 8 < rem
    case neg =>
      exact .inl ⟨t, path, cur, rem, descend_of_le _ _ _ _ (Nat.le_of_not_lt h8), ht, fun _ h => h, hx,
        Nat.le_of_not_lt h8⟩
    have hcode := hx.code_step h8
    have hpre : streamBits (path ++ [descentSlot x.code (rem - 8)]) <+: codeBits x := ⟨_, hcode.symm⟩
    rcases descend_succ x.code steps t cur h8 with
      ⟨t₁, g, heq⟩ | ⟨c, hc, hi, heq⟩ | ⟨c, hc, ⟨sym, k, hk⟩, heq⟩ | ⟨hmissing, -⟩
    · have hi : isInternal t₁ t.length := (g.isInternal_iff _).2 (.inr ⟨rfl, rfl⟩)
      have hx₁ : AtCode x t₁ (path ++ [descentSlot x.code (rem - 8)]) t.length (rem - 8) :=
        ⟨(walk_snoc _ _ _ _).2 ⟨cur, g.walk_old hx.walk, (g.child _ _ _).2 (.inl ⟨rfl, by simp, rfl⟩), hi⟩, hcode,
          by omega⟩
      have ht₁ : OnlyCodes entries (entries ++ [x]) t₁ :=
        ht.grow g hx.walk (List.Subset.refl _) (List.Subset.refl _) (by simp) fun s hs => by
          rw [List.mem_singleton.1 hs]
          exact .inr ⟨hi, x, by simp, by have := hx.length_eq; omega, hpre⟩
      rw [heq]
      refine (ih ht₁ hx₁ (by omega)).imp_left ?_
      rintro ⟨t', path', cur', rem', hd, hok, hplaced, hat, hle⟩
      exact ⟨t', path', cur', rem', hd, hok, fun y hy => hplaced y (hy.grow g), hat, hle⟩
    · rw [heq]
      exact ih ht ⟨(walk_snoc _ _ _ _).2 ⟨cur, hx.walk, hc, hi⟩, hcode, by omega⟩ (by omega)
    · refine .inr ⟨heq, ?_⟩
      rcases ht.occupant _ _ _ _ hx.walk hc with ⟨y, hy, -, -, hyx⟩ | ⟨hi, -⟩
      · exact ⟨y, hy, hyx.trans hpre⟩
      · exact absurd hi (not_isInternal_of_terminal hk)
    · rcases hmissing with hcur | ⟨c, hc, hnone⟩
      · exact absurd (isInternal_of_walk hx.walk) hcur
      · exact absurd (ht.occupant _ _ _ _ hx.walk hc).lt_length (by simpa using hnone)

/-- What the final step of an entry does: it places the entry's terminal, or meets a slot that belongs to a code which
begins with the entry's or begins it (40_tree_builder.md R103, R105 test (b)). -/
theorem placeTerminal_spec {entries : List TableEntry} {x : TableEntry} {rem : Nat} {t : Tree} {path : List Byte}
    {cur : Nat} (ht : OnlyCodes entries (entries ++ [x]) t) (hx : AtCode x t path cur rem) (h8 : rem ≤ 8) :
    (∃ t', placeTerminal x t cur rem = .ok t' ∧ OnlyCodes (entries ++ [x]) (entries ++ [x]) t' ∧ Placed t' x ∧
      ∀ y, Placed t y → Placed t' y) ∨
    (placeTerminal x t cur rem = .error .violation ∧
      ∃ y ∈ entries, codeBits y <+: codeBits x ∨ codeBits x <+: codeBits y) := by
  have hpos := hx.remPos
  have hlen := hx.length_eq
  rcases placeTerminal_cases x rem (isInternal_of_walk hx.walk) with ⟨t', g, heq⟩ | ⟨⟨s, hs, c, hc⟩, heq⟩
  · have hterm : t'[t.length]? = some (.terminal x.symbol (Fin.ofNat 8 (rem - 1))) :=
      (getElem?_terminal_iff_header _ _ _ _).2 g.header_new
    have hbits : (Fin.ofNat 8 (rem - 1)).val + 1 = rem := by
      simp only [Fin.ofNat]
      omega
    refine .inl ⟨t', heq, ht.grow g hx.walk (by simp) (List.Subset.refl _) (by simp [terminalOf]) fun s hs => ?_, ?_,
      fun y hy => hy.grow g⟩
    · exact .inl ⟨x, by simp, ⟨_, hterm⟩, by omega, (hx.mem_fanOutSlots_iff h8 s).1 hs⟩
    · exact ⟨path, cur, t.length, _, g.walk_old hx.walk, by omega, ⟨_, hx.code.symm⟩, hterm, by omega,
        fun s hs => (g.child _ _ _).2 (.inl ⟨rfl, (hx.mem_fanOutSlots_iff h8 s).2 hs, rfl⟩)⟩
  · refine .inr ⟨heq, ?_⟩
    have hxs := (hx.mem_fanOutSlots_iff h8 s).1 hs
    rcases ht.occupant _ _ _ _ hx.walk hc with ⟨y, hy, -, -, hys⟩ | ⟨-, y, hy, hlt, hsy⟩
    · exact ⟨y, hy, List.prefix_or_prefix_of_prefix hys hxs⟩
    · refine ⟨y, (List.mem_append.1 hy).resolve_right fun h => ?_, .inr (hxs.trans hsy)⟩
      rw [List.mem_singleton.1 h] at hlt
      omega

/-- A well-formed table passes every check of 30_encoding.md R77. -/
theorem tableOk_of_tableWellFormed {p : Parameters} (h : p.tableWellFormed = true) : TableOk p :=
  (failedTableCheck_eq_none_iff_tableOk p).1 (Option.isNone_iff_eq_none.1 h)

/-- More entries may lie on the way. -/
theorem OnlyCodes.mono_onWay {placed onWay onWay' : List TableEntry} {t : Tree} (h : OnlyCodes placed onWay t)
    (hw : onWay ⊆ onWay') : OnlyCodes placed onWay' t :=
  ⟨h.rootInternal, h.pathUnique, fun path n s c hp hc =>
    (h.occupant path n s c hp hc).imp_right fun ⟨hi, y, hy, hrest⟩ => ⟨hi, y, hw hy, hrest⟩⟩

/-- Inserting an entry places it, or finds an inserted one whose code begins with its code or begins it. -/
theorem insertEntry_spec {entries : List TableEntry} {t : Tree} (ht : HoldsCodes entries t) {x : TableEntry}
    (hx : 1 ≤ x.length.toNat) :
    (∃ t', insertEntry x t = .ok t' ∧ HoldsCodes (entries ++ [x]) t') ∨
    (insertEntry x t = .error .violation ∧ ∃ y ∈ entries, codeBits y <+: codeBits x ∨ codeBits x <+: codeBits y) := by
  have hstart : AtCode x t [] 0 x.length.toNat := ⟨(walk_nil t 0).2 ⟨rfl, ht.only.rootInternal⟩, rfl, hx⟩
  rcases descend_spec (ht.only.mono_onWay (List.subset_append_left _ [x])) hstart (Nat.le_refl _) with
    ⟨t₁, path, cur, rem, hd, ht₁, hplaced₁, hat, h8⟩ | ⟨hd, y, hy, hyx⟩
  · have heq : insertEntry x t = placeTerminal x t₁ cur rem := by rw [insertEntry, hd]
    rw [heq]
    refine (placeTerminal_spec ht₁ hat h8).imp_left ?_
    rintro ⟨t', hok, honly, hxp, hplaced⟩
    refine ⟨t', hok, honly, fun y hy => ?_⟩
    rcases List.mem_append.1 hy with hy | hy
    · exact hplaced y (hplaced₁ y (ht.placed y hy))
    · rw [List.mem_singleton.1 hy]
      exact hxp
  · exact .inr ⟨by rw [insertEntry, hd], y, hy, .inl hyx⟩

/-- Where an entry's code begins with a later one's or begins it, the table fails R105. -/
theorem not_prefixFree_append {entries rest : List TableEntry} {x y : TableEntry} (hy : y ∈ entries) (hx : x ∈ rest)
    (h : codeBits y <+: codeBits x ∨ codeBits x <+: codeBits y) : ¬ prefixFree (entries ++ rest) := by
  intro hfree
  obtain ⟨hyx, hxy⟩ := (List.pairwise_append.1 hfree).2.2 y hy x hx
  exact h.elim hyx hxy

/-- Inserting the entries of a table holds them all, or the table fails 40_tree_builder.md R105. -/
theorem insertAll_spec {rest entries : List TableEntry} {t : Tree} (ht : HoldsCodes entries t)
    (hrest : ∀ x ∈ rest, 1 ≤ x.length.toNat) :
    (∃ t', insertAll rest t = .ok t' ∧ HoldsCodes (entries ++ rest) t') ∨
    (insertAll rest t = .error .violation ∧ ¬ prefixFree (entries ++ rest)) := by
  induction rest generalizing entries t with
  | nil => exact .inl ⟨t, rfl, by rwa [List.append_nil]⟩
  | cons x rest ih =>
    rcases insertEntry_spec ht (hrest x List.mem_cons_self) with ⟨t₁, hok, ht₁⟩ | ⟨hv, y, hy, hyx⟩
    · have := ih ht₁ fun y hy => hrest y (List.mem_cons_of_mem x hy)
      rwa [List.append_assoc, List.singleton_append, ← show insertAll (x :: rest) t = insertAll rest t₁ by
        rw [insertAll, hok]] at this
    · exact .inr ⟨by rw [insertAll, hv], not_prefixFree_append hy List.mem_cons_self hyx⟩

/-- The tree BUILD starts from: the root alone. -/
theorem holdsCodes_rootTree : HoldsCodes [] (Tree.newInternal []).1 := by
  have noChild : ∀ m s c, Tree.child (Tree.newInternal []).1 m s ≠ .ok (some c) := fun m s c hm =>
    absurd (isInternal_of_child ((child_newInternal_some [] m s c).1 hm)).lt_length (Nat.not_lt_zero m)
  have onlyRoot : ∀ path n, walk (Tree.newInternal []).1 path = some n → path = [] := fun path n hp => by
    cases path using List.reverseRecOn with
    | nil => rfl
    | append_singleton path s =>
      obtain ⟨m, -, hc, -⟩ := (walk_snoc _ path s n).1 hp
      exact absurd hc (noChild m s n)
  exact ⟨⟨⟨[], rfl⟩, fun path path' n hp hp' => (onlyRoot path n hp).trans (onlyRoot path' n hp').symm,
    fun path n s c _ hc => absurd hc (noChild n s c)⟩, fun x hx => absurd hx List.not_mem_nil⟩

/-- BUILD's tree of a well-formed table holds the table's codes, or the table fails 40_tree_builder.md R105. -/
theorem buildTree_spec {p : Parameters} (hp : p.tableWellFormed = true) :
    (∃ t, buildTree p.table = .ok t ∧ HoldsCodes p.table t) ∨
    (buildTree p.table = .error .violation ∧ ¬ prefixFree p.table) :=
  insertAll_spec holdsCodes_rootTree fun x hx => ((tableOk_of_tableWellFormed hp).wLen x hx).1

/-- What BUILD makes of a well-formed table holds the table's codes. -/
theorem holdsCodes_of_buildTree {p : Parameters} {t : Tree} (hp : p.tableWellFormed = true)
    (h : buildTree p.table = .ok t) : HoldsCodes p.table t := by
  rcases buildTree_spec hp with ⟨t', ht', hold⟩ | ⟨hv, -⟩
  · cases h.symm.trans ht'
    exact hold
  · cases h.symm.trans hv

end Sys2Proof.Safety
end

section
/-! SUPPORT. What follows for a tree that holds a table's codes: no code begins another, a terminal stands in every slot
that its bits begin, and the shape BUILD's tree has (40_tree_builder.md R105, R107). -/

namespace Sys2Proof.Safety

open Sys2Proof.Machine

/-- A way to a node passes through nodes. -/
theorem exists_walk_of_walk_append {t : Tree} {path rest : List Byte} {n : Nat} (h : walk t (path ++ rest) = some n) :
    ∃ m, walk t path = some m := by
  induction rest using List.reverseRecOn generalizing n with
  | nil => exact ⟨n, by rwa [List.append_nil] at h⟩
  | append_singleton rest s ih =>
    rw [← List.append_assoc] at h
    obtain ⟨m, hm, -⟩ := (walk_snoc _ _ _ _).1 h
    exact ih hm

/-- The first slot of the fan-out begins with the remaining bits of the code. -/
theorem natBits_prefix_fanOutFirst (code : BitVec 32) {rem : Nat} (hr : rem ≤ 8) :
    natBits code.toNat rem <+: byteBits (fanOutFirst code rem) := by
  rw [natBits_prefix_byteBits_iff hr, fanOutFirst_toNat code hr, Nat.mul_div_cancel_left _ (by positivity)]

/-- A code of at most 8 bits more than a path on its way begins a slot there. -/
theorem exists_slot_of_code {x : TableEntry} {path : List Byte} (hp : streamBits path <+: codeBits x)
    (hlen : x.length.toNat ≤ 8 * (path.length + 1)) : ∃ s, codeBits x <+: streamBits (path ++ [s]) := by
  obtain ⟨rem, hrem⟩ := Nat.le.dest (show 8 * path.length ≤ x.length.toNat by simpa using hp.length_le)
  have hcode : codeBits x = natBits (x.code.toNat / 2 ^ rem) (8 * path.length) ++ natBits x.code.toNat rem := by
    rw [← natBits_add, hrem, codeBits_eq_natBits]
  have hpath : streamBits path = natBits (x.code.toNat / 2 ^ rem) (8 * path.length) :=
    (List.prefix_of_prefix_length_le hp ⟨_, hcode.symm⟩ (by simp)).eq_of_length (by simp)
  refine ⟨fanOutFirst x.code rem, ?_⟩
  rw [streamBits_snoc, hcode, ← hpath, List.prefix_append_right_inj]
  exact natBits_prefix_fanOutFirst x.code (by omega)

section
variable {entries : List TableEntry} {t : Tree}

/-- Of two entries with different symbols in the tree, neither's code begins the other's. -/
theorem HoldsCodes.not_prefix (h : HoldsCodes entries t) {x y : TableEntry} (hx : x ∈ entries) (hy : y ∈ entries)
    (hne : x.symbol ≠ y.symbol) : ¬ codeBits x <+: codeBits y := by
  intro hxy
  obtain ⟨p, n, c, k, hp, hplen, hpx, hc, hk, hslots⟩ := h.placed x hx
  obtain ⟨q, m, d, j, hq, hqlen, hqy, hd, hj, hslots'⟩ := h.placed y hy
  have hlen : x.length.toNat ≤ y.length.toNat := by simpa using hxy.length_le
  obtain ⟨rest, rfl⟩ := path_prefix_of_prefix (hpx.trans hxy) hqy (by omega)
  cases rest with
  | nil =>
    -- both terminals stand in the slots of one node
    rw [List.append_nil] at hq hqy hslots'
    cases hp.symm.trans hq
    obtain ⟨s, hs⟩ := exists_slot_of_code hqy (by simp at hqlen; omega)
    cases (hslots s (hxy.trans hs)).symm.trans (hslots' s hs)
    have hterm := hc.symm.trans hd
    simp only [Option.some.injEq, Node.terminal.injEq] at hterm
    exact hne hterm.1
  | cons s rest =>
    -- the way to `y`'s node passes through the slot of `x`'s terminal
    rw [← List.singleton_append, ← List.append_assoc] at hq hqy
    obtain ⟨m', hm'⟩ := exists_walk_of_walk_append hq
    obtain ⟨n', hn', hchild, hi⟩ := (walk_snoc _ _ _ _).1 hm'
    cases hp.symm.trans hn'
    rw [streamBits_append] at hqy
    have hxs : codeBits x <+: streamBits (p ++ [s]) :=
      List.prefix_of_prefix_length_le hxy ((List.prefix_append _ _).trans hqy) (by simp; omega)
    cases (hslots s hxs).symm.trans hchild
    exact not_isInternal_of_terminal hc hi

/-- A table whose symbols differ and whose codes a tree holds satisfies 40_tree_builder.md R105. -/
theorem HoldsCodes.prefixFree (h : HoldsCodes entries t) (hsym : (entries.map TableEntry.symbol).Nodup) :
    prefixFree entries :=
  (List.pairwise_map.1 hsym).imp_of_mem fun hx hy hne => ⟨h.not_prefix hx hy hne, h.not_prefix hy hx hne.symm⟩

/-- Internal nodes lie as deep as codes of at most 32 bits lead (10_state.md R22). -/
theorem HoldsCodes.depth_le (h : HoldsCodes entries t) (hlen : ∀ x ∈ entries, x.length.toNat ≤ 32) {path : List Byte}
    {n : Nat} (hp : walk t path = some n) : path.length ≤ 3 := by
  cases path using List.reverseRecOn with
  | nil => simp
  | append_singleton path s =>
    obtain ⟨m, hm, hc, hi⟩ := (walk_snoc _ _ _ _).1 hp
    rcases h.only.occupant path m s n hm hc with ⟨_, -, ⟨k, hk⟩, -⟩ | ⟨-, x, hx, hlt, -⟩
    · exact absurd hi (not_isInternal_of_terminal hk)
    · have := hlen x hx
      rw [List.length_append, List.length_singleton]
      omega

/-- Where a terminal stands in a slot, its entry's code is the way there with `bits` bits more, and it stands in every
slot that these begin. -/
theorem HoldsCodes.terminal_slots (h : HoldsCodes entries t) {path : List Byte} {n c : Nat} {s : Byte} {sym : Symbol}
    {k : Fin 8} (hp : walk t path = some n) (hc : Tree.child t n s = .ok (some c))
    (hk : t[c]? = some (.terminal sym k)) :
    ∃ l : List Bool, l.length = k.val + 1 ∧ l <+: byteBits s ∧
      ∀ s' : Byte, l <+: byteBits s' → Tree.child t n s' = .ok (some c) := by
  rcases h.only.occupant path n s c hp hc with ⟨x, hx, -, hlen, hxs⟩ | ⟨hi, -⟩
  · obtain ⟨path', n', c', k', hp', hlen', hpre, hk', hbits, hslots⟩ := h.placed x hx
    rw [← hlen] at hlen'
    have hpath : streamBits path <+: codeBits x :=
      List.prefix_of_prefix_length_le (streamBits_snoc path s ▸ List.prefix_append _ _) hxs (by simp; omega)
    cases path_eq_of_prefix hpre hpath hlen'
    cases hp.symm.trans hp'
    cases hc.symm.trans (hslots s hxs)
    cases hk.symm.trans hk'
    obtain ⟨l, hl⟩ := hpath
    have hlen := congrArg List.length hl
    simp only [List.length_append, length_streamBits, length_codeBits] at hlen
    simp only [← hl, streamBits_snoc, List.prefix_append_right_inj] at hxs hslots
    exact ⟨l, by omega, hxs, hslots⟩
  · exact absurd hi (not_isInternal_of_terminal hk)

end

/-- The symbols of a well-formed table are pairwise distinct (30_encoding.md R77, `W_sym`). -/
theorem symbols_nodup_of_tableWellFormed {p : Parameters} (h : p.tableWellFormed = true) :
    (p.table.map TableEntry.symbol).Nodup := by
  obtain ⟨-, -, -, hsym, -⟩ := (failedTableCheck_eq_none_iff p).1 (Option.isNone_iff_eq_none.1 h)
  exact of_decide_eq_true hsym

section
variable {s : State}

/-- BUILD answers `OK` where the tree is made. -/
theorem execBuild_of_ok {t : Tree} (hp : s.port = .builder) (hu : s.treeState = .unbuilt)
    (hwf : s.params.tableWellFormed = true) (ht : buildTree s.params.table = .ok t) :
    execBuild s = .next (s.finishBuild t) := by
  have hnone : failedTableCheck s.params = none := Option.isNone_iff_eq_none.1 hwf
  simp [execBuild, State.onBuilder, hp, acceptsBuild, hu, hnone, ht]

/-- BUILD raises its fault where an insertion finds a violation. -/
theorem execBuild_of_violation (hp : s.port = .builder) (hu : s.treeState = .unbuilt)
    (hwf : s.params.tableWellFormed = true) (hv : buildTree s.params.table = .error .violation) :
    execBuild s = .next s.raisePrefixCodeViolation := by
  have hnone : failedTableCheck s.params = none := Option.isNone_iff_eq_none.1 hwf
  simp [execBuild, State.onBuilder, hp, acceptsBuild, hu, hnone, hv]

/-- What a successful BUILD leaves, field by field. -/
theorem finishBuild_eq (hp : s.port = .builder) (t : Tree) :
    s.finishBuild t = { s with tree := t, treeState := .built, response := some (.builder, .ok) } := by
  simp [State.finishBuild, State.respond, hp]

/-- What a failed BUILD leaves, field by field (60_exceptions.md R184). -/
theorem raisePrefixCodeViolation_eq (hp : s.port = .builder) : s.raisePrefixCodeViolation =
    { s with tree := Config.freeTree s.freeEpoch true, treeState := .buildFailed,
             response := some (.builder, .prefixCodeViolation) } := by
  simp [State.raisePrefixCodeViolation, State.respond, hp]

end

/-- Settles O14: by induction over the table, BUILD ends in a tree that holds the codes, none of which then begins
another, or in a violation, which two codes of which one begins the other cause. -/
theorem buildSucceedsIffPrefixFree : Obligations.BuildSucceedsIffPrefixFree := by
  unfold Obligations.BuildSucceedsIffPrefixFree
  intro s hp hu hwf
  rcases buildTree_spec hwf with ⟨t, ht, hold⟩ | ⟨hv, hnot⟩
  · have hfree : prefixFree s.params.table := hold.prefixFree (symbols_nodup_of_tableWellFormed hwf)
    exact ⟨fun _ => ⟨t, (execBuild_of_ok hp hu hwf ht).trans (congrArg _ (finishBuild_eq hp t))⟩,
      fun hnot => absurd hfree hnot⟩
  · exact ⟨fun hfree => absurd hfree hnot,
      fun _ => ⟨_, (execBuild_of_violation hp hu hwf hv).trans (congrArg _ (raisePrefixCodeViolation_eq hp))⟩⟩

/-- Settles O15: the tree BUILD makes holds the codes. -/
theorem treeHoldsExactlyTheCodes : Obligations.TreeHoldsExactlyTheCodes := by
  unfold Obligations.TreeHoldsExactlyTheCodes
  intro p t hp ht
  have h := holdsCodes_of_buildTree hp ht
  exact ⟨(walk_nil t 0).2 ⟨rfl, h.only.rootInternal⟩,
    fun path n => h.depth_le fun x hx => length_le_of_tableWellFormed hp hx, h.placed, h.only.occupant⟩

/-- Settles O28: a slot that agrees in the first `v` bits begins with the terminal's bits too. -/
theorem fittingTerminalStandsInEverySlot : Obligations.FittingTerminalStandsInEverySlot := by
  unfold Obligations.FittingTerminalStandsInEverySlot
  intro p t path n c v s s' sym k hp ht hn _ hv hss hc hk hkv
  obtain ⟨l, hl, hls, hslots⟩ := (holdsCodes_of_buildTree hp ht).terminal_slots hn hc hk
  exact hslots s' (prefix_byteBits_of_div_eq (by omega) (by omega) hss hls)

end Sys2Proof.Safety
end

section
/-! SUPPORT. How many nodes BUILD makes (40_tree_builder.md R109), counted by their headers. -/

namespace Sys2Proof.Safety

open Sys2Proof.Machine

/-- The number of nodes of a kind. -/
def kindCount (k : NodeKind) (t : Tree) : Nat := t.countP fun n => (Node.header n).kind == k

/-- The nodes of the tree are of two kinds. -/
theorem kindCount_add (t : Tree) : kindCount .internal t + kindCount .terminal t = t.length := by
  rw [kindCount, kindCount, List.length_eq_countP_add_countP fun n => (Node.header n).kind == .internal]
  congr 2
  funext n
  cases n <;> simp

/-- Appending a node counts it. -/
theorem kindCount_append (k : NodeKind) (t : Tree) (x : Node) :
    kindCount k (t ++ [x]) = kindCount k t + if (Node.header x).kind = k then 1 else 0 := by
  simp [kindCount, List.countP_append, List.countP_singleton]

/-- The counts are read off the headers. -/
theorem kindCount_congr (k : NodeKind) {t t' : Tree} (h : ∀ m, Tree.header t' m = Tree.header t m) :
    kindCount k t' = kindCount k t := by
  have hread : ∀ (t : Tree) (m : Nat), (t.map Node.header)[m]? = (Tree.header t m).toOption := fun t m => by
    rw [List.getElem?_map, Tree.header]
    cases t[m]? <;> rfl
  have hmap : t'.map Node.header = t.map Node.header := List.ext_getElem? fun m => by rw [hread, hread, h]
  have hcount : ∀ t : Tree, kindCount k t = (t.map Node.header).countP fun n => n.kind == k := fun t => by
    rw [List.countP_map]
    rfl
  rw [hcount, hcount, hmap]

/-- The full-byte steps make no terminal, and at most one internal node each. -/
theorem descend_kindCount {code : BitVec 32} {steps rem : Nat} {t t' : Tree} {cur cur' rem' : Nat}
    (h : descend code steps rem t cur = .ok (t', cur', rem')) :
    kindCount .terminal t' = kindCount .terminal t ∧
      kindCount .internal t' + (rem' - 1) / 8 ≤ kindCount .internal t + (rem - 1) / 8 := by
  induction steps generalizing rem t cur with
  | zero =>
    cases h
    exact ⟨rfl, Nat.le_refl _⟩
  | succ steps ih =>
    by_cases h8 : 8 < rem
    case neg =>
      cases (descend_of_le code (steps + 1) t cur (Nat.le_of_not_lt h8)).symm.trans h
      exact ⟨rfl, Nat.le_refl _⟩
    have hdiv : (rem - 1) / 8 = (rem - 8 - 1) / 8 + 1 := by omega
    rcases descend_succ code steps t cur h8 with
      ⟨t₁, g, heq⟩ | ⟨c, -, -, heq⟩ | ⟨c, -, -, heq⟩ | ⟨-, f, heq⟩
    · obtain ⟨hterm, hint⟩ := ih (heq.symm.trans h)
      rw [kindCount_congr .terminal g.header, kindCount_append] at hterm
      rw [kindCount_congr .internal g.header, kindCount_append] at hint
      simp only [Node.header_internal, reduceCtorEq, if_false, if_true] at hterm hint
      exact ⟨hterm, by omega⟩
    · obtain ⟨hterm, hint⟩ := ih (heq.symm.trans h)
      exact ⟨hterm, by omega⟩
    · cases heq.symm.trans h
    · cases heq.symm.trans h

/-- The final step makes one terminal, and no internal node. -/
theorem placeTerminal_kindCount {x : TableEntry} {t t' : Tree} {cur rem : Nat}
    (h : placeTerminal x t cur rem = .ok t') :
    kindCount .terminal t' = kindCount .terminal t + 1 ∧ kindCount .internal t' = kindCount .internal t := by
  rw [placeTerminal] at h
  split at h
  · cases h
  · obtain ⟨-, hheader, -⟩ := writeSlots_ok h
    have happend : ∀ m, Tree.header t' m = Tree.header (t ++ [terminalOf x rem]) m := hheader
    rw [kindCount_congr _ happend, kindCount_congr _ happend, kindCount_append, kindCount_append]
    exact ⟨rfl, rfl⟩

/-- Inserting an entry makes one terminal, and at most `(len-1) div 8` internal nodes. -/
theorem insertEntry_kindCount {x : TableEntry} {t t' : Tree} (h : insertEntry x t = .ok t') :
    kindCount .terminal t' = kindCount .terminal t + 1 ∧
      kindCount .internal t' ≤ kindCount .internal t + (x.length.toNat - 1) / 8 := by
  rw [insertEntry] at h
  split at h
  · cases h
  · obtain ⟨hterm, hint⟩ := placeTerminal_kindCount h
    obtain ⟨hterm₁, hint₁⟩ := descend_kindCount ‹_›
    omega

/-- Inserting entries makes one terminal for each, and at most `(len-1) div 8` internal nodes. -/
theorem insertAll_kindCount {table : List TableEntry} {t t' : Tree} (h : insertAll table t = .ok t') :
    kindCount .terminal t' = kindCount .terminal t + table.length ∧
      kindCount .internal t' ≤ kindCount .internal t + (table.map fun x => (x.length.toNat - 1) / 8).sum := by
  induction table generalizing t with
  | nil =>
    cases h
    exact ⟨rfl, Nat.le_refl _⟩
  | cons x rest ih =>
    rw [insertAll] at h
    split at h
    · cases h
    · obtain ⟨hterm, hint⟩ := ih h
      obtain ⟨hterm₁, hint₁⟩ := insertEntry_kindCount ‹_›
      rw [List.length_cons, List.map_cons, List.sum_cons]
      omega

/-- Codes of at most 32 bits take at most 3 internal nodes each. -/
theorem sum_depths_le {table : List TableEntry} (h : ∀ x ∈ table, x.length.toNat ≤ 32) :
    (table.map fun x => (x.length.toNat - 1) / 8).sum ≤ 3 * table.length := by
  have hle : ∀ d ∈ table.map fun x => (x.length.toNat - 1) / 8, d ≤ 3 := by
    rintro d hd
    obtain ⟨x, hx, rfl⟩ := List.mem_map.1 hd
    have := h x hx
    omega
  simpa [Nat.mul_comm] using List.sum_le_card_nsmul _ 3 hle

/-- Settles O16: by induction over the insertions, from the root. -/
theorem builtTreeSize : Obligations.BuiltTreeSize := by
  unfold Obligations.BuiltTreeSize
  intro p t hp ht
  obtain ⟨hterm, hint⟩ := insertAll_kindCount ht
  have hroot : kindCount .terminal (Tree.newInternal []).1 = 0 ∧ kindCount .internal (Tree.newInternal []).1 = 1 :=
    ⟨rfl, rfl⟩
  rw [hroot.1, Nat.zero_add] at hterm
  rw [hroot.2] at hint
  have hsum := sum_depths_le fun x hx => length_le_of_tableWellFormed hp hx
  have htotal := kindCount_add t
  exact ⟨hterm, hint, by omega⟩

end Sys2Proof.Safety
end

section
/-! SUPPORT. What BUILD leaves alone, and what a failed BUILD leaves possible (40_tree_builder.md R100, R106). -/

namespace Sys2Proof.Safety

open Sys2Proof.Machine

/-- The Host reads OUT from the engines alone. -/
theorem hostOutByte_congr {s t : State} (h : t.engines = s.engines) (e i : Nat) :
    t.hostOutByte e i = s.hostOutByte e i := by
  rw [State.hostOutByte, State.hostOutByte, h]

/-- Settles O17: BUILD is refused, writes the tree or enters its fault, and none of these touches an engine. -/
theorem buildFrame : Obligations.BuildFrame := by
  unfold Obligations.BuildFrame
  intro s t ht
  have hframe : t.engines = s.engines ∧ t.params = s.params ∧ t.pending = s.pending ∧ t.port = s.port ∧
      t.freeEpoch = s.freeEpoch := by
    rcases execBuild_next ht with ⟨_, -, -, rfl⟩ | ⟨-, -, rfl⟩ | ⟨-, -, -, ⟨tree, -, rfl⟩ | ⟨-, rfl⟩⟩
    · exact ⟨rfl, rfl, rfl, rfl, rfl⟩
    · exact ⟨rfl, rfl, rfl, rfl, rfl⟩
    · exact ⟨rfl, rfl, rfl, rfl, rfl⟩
    · exact ⟨rfl, rfl, rfl, rfl, rfl⟩
  obtain ⟨he, hparams, hpending, hport, hepoch⟩ := hframe
  exact ⟨he, hparams, hpending, hport, hepoch, hostOutByte_congr he⟩

/-- Once BUILD has failed, every command is refused: each is accepted in `UNBUILT` or in `BUILT` only (60_exceptions.md
R187). -/
theorem exec_next_of_buildFailed {i : Instr} {s t : State} (hf : s.treeState = .buildFailed)
    (h : exec i s = .next t) : ∃ r, t = s.refuse r ∧ (r = .sequenceRefused ∨ r = .illegalCommand) := by
  have hunbuilt : s.treeState ≠ .unbuilt := by simp [hf]
  have hbuilt : s.treeState ≠ .built := by simp [hf]
  cases i with
  | build =>
    rcases execBuild_next h with ⟨_, -, -, ht⟩ | ⟨-, -, ht⟩ | ⟨-, hu, -⟩
    · exact ⟨_, ht, .inr rfl⟩
    · exact ⟨_, ht, .inl rfl⟩
    · exact absurd hu hunbuilt
  | reset =>
    rcases execReset_next h with ⟨-, ht⟩ | ⟨_, _, -, -, ⟨-, ht⟩ | ⟨hb, -⟩⟩
    · exact ⟨_, ht, .inr rfl⟩
    · exact ⟨_, ht, .inl rfl⟩
    · exact absurd hb hbuilt
  | ingest b =>
    rcases execIngest_next h with ⟨-, ht⟩ | ⟨_, _, -, -, ⟨-, ht⟩ | ⟨hb, -⟩⟩
    · exact ⟨_, ht, .inr rfl⟩
    · exact ⟨_, ht, .inl rfl⟩
    · exact absurd hb hbuilt
  | finish =>
    rcases execFinish_next h with ⟨-, ht⟩ | ⟨_, _, -, -, ⟨-, ht⟩ | ⟨hb, -⟩⟩
    · exact ⟨_, ht, .inr rfl⟩
    · exact ⟨_, ht, .inl rfl⟩
    · exact absurd hb hbuilt

/-- Settles O32: a word is illegal, or its command is refused. -/
theorem buildFailureIsFinal : Obligations.BuildFailureIsFinal := by
  unfold Obligations.BuildFailureIsFinal
  intro s t p w rest hf hq ht
  have hrefused : ∃ r, t = (s.present p rest).refuse r ∧ (r = .sequenceRefused ∨ r = .illegalCommand) := by
    cases hw : decode w with
    | ok i => exact exec_next_of_buildFailed (s := s.present p rest) hf ((step_of_command hq hw).symm.trans ht)
    | error x =>
      have hreject : (s.present p rest).rejectIllegal = .next t := by
        rw [← ht]
        simp only [step, hq, hw]
      exact ⟨_, (State.rejectIllegal_next hreject).1, .inr rfl⟩
  obtain ⟨r, rfl, rfl | rfl⟩ := hrefused
  · exact ⟨hf, rfl, .inl rfl⟩
  · exact ⟨hf, rfl, .inr rfl⟩

end Sys2Proof.Safety
end

section
/-! SUPPORT. A complete code (30_encoding.md R78) leaves no slot empty: by the Kraft inequality every bit string begins
a code or is begun by one, and the tree holds something in the slot of every such string (41_engine_ingest.md R129). -/

namespace Sys2Proof.Safety

open Sys2Proof.Machine

/-- Words of which none begins another are uniquely decodable. -/
theorem uniquelyDecodable_of_prefixFree {S : Set (List Bool)} (hnil : [] ∉ S)
    (hfree : ∀ u ∈ S, ∀ v ∈ S, u <+: v → u = v) : InformationTheory.UniquelyDecodable S := by
  intro L₁
  induction L₁ with
  | nil =>
    intro L₂ _ h₂ heq
    cases L₂ with
    | nil => rfl
    | cons v L₂ =>
      have hv : v = [] := (List.append_eq_nil_iff.1 heq.symm).1
      exact absurd (h₂ v List.mem_cons_self) (hv ▸ hnil)
  | cons u L₁ ih =>
    intro L₂ h₁ h₂ heq
    have hu : u ∈ S := h₁ u List.mem_cons_self
    cases L₂ with
    | nil =>
      have hnil' : u = [] := (List.append_eq_nil_iff.1 heq).1
      exact absurd hu (hnil' ▸ hnil)
    | cons v L₂ =>
      have hv : v ∈ S := h₂ v List.mem_cons_self
      rw [List.flatten_cons, List.flatten_cons] at heq
      have huv : u = v := by
        rcases List.prefix_or_prefix_of_prefix ⟨L₁.flatten, rfl⟩ ⟨L₂.flatten, heq.symm⟩ with h | h
        · exact hfree u hu v hv h
        · exact (hfree v hv u hu h).symm
      subst huv
      rw [ih L₂ (fun w hw => h₁ w (List.mem_cons_of_mem u hw)) (fun w hw => h₂ w (List.mem_cons_of_mem u hw))
        (List.append_cancel_left heq)]

/-- The Kraft inequality for a list of words of which none begins another. -/
theorem kraft_sum_le_one {words : List (List Bool)} (hnil : [] ∉ words)
    (hfree : words.Pairwise fun u v => ¬ u <+: v ∧ ¬ v <+: u) :
    (words.map fun w => (1 / 2 : ℝ) ^ w.length).sum ≤ 1 := by
  have hnodup : words.Nodup := hfree.imp fun {u v} h (heq : u = v) => h.1 (heq ▸ List.prefix_refl u)
  have hS : InformationTheory.UniquelyDecodable (words.toFinset : Set (List Bool)) := by
    refine uniquelyDecodable_of_prefixFree (by simpa using hnil) fun u hu v hv huv => ?_
    by_contra hne
    have hsymm : Std.Symm fun u v : List Bool => ¬ u <+: v ∧ ¬ v <+: u := ⟨fun _ _ => And.symm⟩
    exact (hfree.forall (by simpa using hu) (by simpa using hv) hne).1 huv
  simpa [List.sum_toFinset _ hnodup] using InformationTheory.kraft_mcmillan_inequality hS

/-- With a complete code the Kraft sum of the codes is 1. -/
theorem kraft_sum_of_codeComplete {table : List TableEntry} (hlen : ∀ x ∈ table, x.length.toNat ≤ 32)
    (h : codeComplete table) : (table.map fun x => (1 / 2 : ℝ) ^ (codeBits x).length).sum = 1 := by
  have hscale : ∀ x ∈ table, (1 / 2 : ℝ) ^ (codeBits x).length * 2 ^ 32 = ((2 ^ (32 - x.length.toNat) : Nat) : ℝ) := by
    intro x hx
    rw [length_codeBits, ← Nat.add_sub_cancel' (hlen x hx), pow_add, ← mul_assoc, ← mul_pow]
    simp
  have hsum : (table.map fun x => (1 / 2 : ℝ) ^ (codeBits x).length).sum * 2 ^ 32 = 2 ^ 32 := by
    have hcast := congrArg (Nat.cast (R := ℝ)) h
    rw [Nat.cast_list_sum, List.map_map] at hcast
    rw [← List.sum_map_mul_right, List.map_congr_left hscale]
    exact hcast.trans (by norm_num)
  exact mul_right_cancel₀ (by positivity) (hsum.trans (one_mul _).symm)

/-- With a complete code of which none begins another every bit string is begun by a code or begins one. -/
theorem exists_code_of_codeComplete {table : List TableEntry}
    (hlen : ∀ x ∈ table, 1 ≤ x.length.toNat ∧ x.length.toNat ≤ 32) (hfree : prefixFree table)
    (h : codeComplete table) {l : List Bool} (hl : l ≠ []) : ∃ x ∈ table, codeBits x <+: l ∨ l <+: codeBits x := by
  by_contra hnone
  push Not at hnone
  have hnil : [] ∉ l :: table.map codeBits := by
    rw [List.mem_cons, List.mem_map]
    rintro (heq | ⟨x, hx, heq⟩)
    · exact hl heq.symm
    · have := (hlen x hx).1
      rw [← length_codeBits, heq] at this
      exact absurd this (by decide)
  have hwords : (l :: table.map codeBits).Pairwise fun u v => ¬ u <+: v ∧ ¬ v <+: u := by
    refine List.pairwise_cons.2 ⟨fun w hw => ?_, List.pairwise_map.2 hfree⟩
    obtain ⟨x, hx, rfl⟩ := List.mem_map.1 hw
    exact (hnone x hx).symm
  have hkraft := kraft_sum_le_one hnil hwords
  rw [List.map_cons, List.sum_cons, List.map_map] at hkraft
  have hone := kraft_sum_of_codeComplete (fun x hx => (hlen x hx).2) h
  have hpos : (0 : ℝ) < (1 / 2) ^ l.length := by positivity
  exact absurd (hone ▸ hkraft) (not_le.2 (lt_add_of_pos_left _ hpos))

/-- A path passes through an internal node in each of its slots. -/
theorem exists_child_of_walk_append_cons {t : Tree} {path rest : List Byte} {s : Byte} {n : Nat}
    (h : walk t (path ++ s :: rest) = some n) :
    ∃ m c, walk t path = some m ∧ Tree.child t m s = .ok (some c) ∧ isInternal t c := by
  rw [← List.singleton_append, ← List.append_assoc] at h
  obtain ⟨c, hc⟩ := exists_walk_of_walk_append h
  obtain ⟨m, hm, hchild, hi⟩ := (walk_snoc _ _ _ _).1 hc
  exact ⟨m, c, hm, hchild, hi⟩

/-- A node at a depth is reached by a path. -/
theorem exists_walk_of_atDepth {t : Tree} {d n : Nat} (h : atDepth t d n) : ∃ path, walk t path = some n := by
  induction d generalizing n with
  | zero => exact ⟨[], (walk_nil t n).2 ⟨h.1, h.1 ▸ h.2⟩⟩
  | succ d ih =>
    obtain ⟨hi, m, s, hm, hc⟩ := h
    obtain ⟨path, hp⟩ := ih hm
    exact ⟨path ++ [s], (walk_snoc _ _ _ _).2 ⟨m, hp, hc, hi⟩⟩

section
variable {entries : List TableEntry} {t : Tree} {path : List Byte} {n : Nat} {s : Byte} {x : TableEntry}

/-- A slot that a code begins holds that code's terminal. -/
theorem HoldsCodes.child_of_code_prefix (h : HoldsCodes entries t) (hp : walk t path = some n) (hx : x ∈ entries)
    (hxs : codeBits x <+: streamBits (path ++ [s])) : ∃ c, Tree.child t n s = .ok (some c) := by
  obtain ⟨q, m, c, k, hq, hqlen, hqx, hc, -, hslots⟩ := h.placed x hx
  have hlen : x.length.toNat ≤ 8 * (path.length + 1) := by simpa using hxs.length_le
  obtain ⟨rest, rfl⟩ := path_prefix_of_prefix (hqx.trans hxs)
    (streamBits_snoc path s ▸ List.prefix_append _ _) (by omega)
  cases rest with
  | nil =>
    rw [List.append_nil] at hp hxs
    cases hp.symm.trans hq
    exact ⟨c, hslots s hxs⟩
  | cons s' rest =>
    -- the path would pass through the code's terminal
    obtain ⟨m', c', hm', hchild, hi⟩ := exists_child_of_walk_append_cons hp
    cases hq.symm.trans hm'
    have hxs' : codeBits x <+: streamBits (q ++ [s']) := by
      refine List.prefix_of_prefix_length_le hxs ⟨streamBits (rest ++ [s]), ?_⟩ (by simp; omega)
      rw [← streamBits_append]
      simp
    cases (hslots s' hxs').symm.trans hchild
    exact absurd hi (not_isInternal_of_terminal hc)

/-- A slot on the way to a code holds a node. -/
theorem HoldsCodes.child_of_prefix_code (h : HoldsCodes entries t) (hp : walk t path = some n) (hx : x ∈ entries)
    (hsx : streamBits (path ++ [s]) <+: codeBits x) : ∃ c, Tree.child t n s = .ok (some c) := by
  have hlen : 8 * (path.length + 1) ≤ x.length.toNat := by simpa using hsx.length_le
  rcases Nat.eq_or_lt_of_le hlen with heq | hlt
  · have hcode : streamBits (path ++ [s]) = codeBits x := hsx.eq_of_length (by simpa using heq)
    exact h.child_of_code_prefix hp hx (hcode ▸ List.prefix_refl _)
  · obtain ⟨q, m, -, -, hq, hqlen, hqx, -⟩ := h.placed x hx
    obtain ⟨rest, rfl⟩ := path_prefix_of_prefix hsx hqx (by simp; omega)
    rw [List.append_assoc, List.singleton_append] at hq
    obtain ⟨n', c, hn', hchild, -⟩ := exists_child_of_walk_append_cons hq
    cases hp.symm.trans hn'
    exact ⟨c, hchild⟩

/-- With a complete code every slot of the tree is occupied. -/
theorem HoldsCodes.child_of_codeComplete (h : HoldsCodes entries t)
    (hlen : ∀ x ∈ entries, 1 ≤ x.length.toNat ∧ x.length.toNat ≤ 32) (hfree : Machine.prefixFree entries)
    (hcomplete : codeComplete entries) (hp : walk t path = some n) (s : Byte) :
    ∃ c, Tree.child t n s = .ok (some c) := by
  have hne : streamBits (path ++ [s]) ≠ [] := List.ne_nil_of_length_pos (by simp)
  obtain ⟨x, hx, hxs | hsx⟩ := exists_code_of_codeComplete hlen hfree hcomplete hne
  · exact h.child_of_code_prefix hp hx hxs
  · exact h.child_of_prefix_code hp hx hsx

end

/-- Where INGEST's loop raises `EMPTY_SLOT`, a path of the tree leads to an empty slot. -/
theorem exists_empty_slot_of_ingestLoop {t : Tree} {eos : Symbol} {cap0 passes : Nat} {en : Engine} {path : List Byte}
    (h : ingestLoop t eos cap0 passes en = .raise .emptySlot) (hroot : isInternal t 0)
    (hp : walk t path = some en.node) : ∃ path n s, walk t path = some n ∧ Tree.child t n s = .ok none := by
  induction passes generalizing en path with
  | zero => cases h
  | succ passes ih =>
    rw [ingestLoop_succ] at h
    split at h
    · split at h
      · cases h
      · exact ⟨path, en.node, ingestSlot en, hp, (Tree.lookup_empty_iff _ _ _).1 ‹_›⟩
      · rename_i c hd hl
        obtain ⟨hchild, hheader⟩ := (Tree.lookup_node_iff _ _ _ _ _).1 hl
        split at h
        · split at h
          · cases h
          · exact ih h ((walk_nil t 0).2 ⟨rfl, hroot⟩)
        · rename_i hk
          have hi : isInternal t c := (isInternal_iff_header t c).2 ⟨hd, hheader, hk⟩
          exact ih h ((walk_snoc t path _ c).2 ⟨en.node, hp, hchild, hi⟩)
    · cases h

/-- With a complete code INGEST's loop finds no empty slot from any engine with a decode in flight. -/
theorem ingestLoop_ne_emptySlot {s : State} {e passes : Nat} {en : Engine} (h : Inv s)
    (hcomplete : codeComplete s.params.table) (hen : s.engines[e]? = some en) (ha : en.status = .active) (b : Byte) :
    ingestLoop s.tree s.params.eosSym (s.cap0 e) passes (en.shiftIn b) ≠ .raise .emptySlot := by
  intro hl
  have hok := h.engineOk e en hen
  obtain ⟨hwf, htree⟩ := h.treeIsBuilt (hok.built_of_active ha)
  have hold := holdsCodes_of_buildTree hwf htree
  obtain ⟨d, -, hat, -⟩ := (hok.live ha).cursor
  obtain ⟨path, hp⟩ := exists_walk_of_atDepth hat
  obtain ⟨path', n, slot, hn, hempty⟩ := exists_empty_slot_of_ingestLoop hl hold.only.rootInternal hp
  obtain ⟨c, hc⟩ := hold.child_of_codeComplete (tableOk_of_tableWellFormed hwf).wLen
    (hold.prefixFree (symbols_nodup_of_tableWellFormed hwf)) hcomplete hn slot
  cases hempty.symm.trans hc

/-- A response that the command's row does not hold is not given, `ILLEGAL_COMMAND` apart. -/
theorem RowAnswered.lastResponse_ne {i : Instr} {p : Port} {t : State} {r : Response} (h : RowAnswered i p t)
    (hr : r ∉ rowResponses i) (hill : r ≠ .illegalCommand) : t.lastResponse ≠ some r := by
  intro hlast
  obtain ⟨r', ht, hrow⟩ := h
  rw [State.lastResponse, ht] at hlast
  cases hlast
  rcases hrow with ⟨-, rfl⟩ | ⟨-, hmem⟩
  · exact hill rfl
  · exact hr hmem

/-- Settles O50: of the four commands INGEST alone can answer `EMPTY_SLOT`, at an empty slot of the tree, and by the
Kraft inequality the tree of a complete code has none. -/
theorem completeCodeHasNoEmptySlot : Obligations.CompleteCodeHasNoEmptySlot := by
  unfold Obligations.CompleteCodeHasNoEmptySlot
  intro s t i h hcomplete ht
  have hrow := exec_rowAnswered ht
  cases i with
  | build => exact hrow.lastResponse_ne (by decide) (by decide)
  | reset => exact hrow.lastResponse_ne (by decide) (by decide)
  | finish => exact hrow.lastResponse_ne (by decide) (by decide)
  | ingest b =>
    rcases execIngest_next ht with
      ⟨-, rfl⟩ | ⟨e, en, -, hen, ⟨-, rfl⟩ | ⟨-, ha, ⟨en', -, rfl⟩ | ⟨k, hl, rfl⟩⟩⟩
    · simp [State.lastResponse]
    · simp [State.lastResponse]
    · simp
    · rcases ingestLoop_raise hl with rfl | rfl
      · exact absurd hl (ingestLoop_ne_emptySlot h hcomplete hen ha b)
      · simp [State.lastResponse, EngineFault.response]

end Sys2Proof.Safety
end

section
/-! SUPPORT. The passes of INGEST written out register by register (41_engine_ingest.md R123) are the passes of its
loop, and 8 of them are enough (R130). -/

namespace Sys2Proof.Safety

open Sys2Proof.Machine

/-- INGEST's first step, register by register. -/
theorem ingested_eq_shiftIn (b : Byte) (en : Engine) : ingested b en = en.shiftIn b := by
  have hacc : BitVec.ofNat 16 (en.acc.toNat * 256 + b.toNat) = (en.acc <<< 8) ||| b.setWidth 16 := by
    have hdisjoint : (en.acc <<< 8) &&& b.setWidth 16 = 0#16 := by
      refine BitVec.eq_of_getLsbD_eq fun i hi => ?_
      simp only [BitVec.getLsbD_and, BitVec.getLsbD_shiftLeft, BitVec.getLsbD_setWidth, BitVec.getLsbD_zero]
      by_cases h8 : i < 8
      · simp [h8]
      · simp [BitVec.getLsbD_of_ge b i (by omega)]
    rw [← BitVec.add_eq_or_of_and_eq_zero _ _ hdisjoint]
    refine BitVec.eq_of_toNat_eq ?_
    simp only [BitVec.toNat_ofNat, BitVec.toNat_add, BitVec.toNat_shiftLeft, BitVec.toNat_setWidth,
      Nat.shiftLeft_eq]
    omega
  have hvalid : BitVec.ofNat 4 (en.validBits.toNat + 8) = en.validBits + 8#4 := by
    rw [BitVec.ofNat_add, BitVec.ofNat_toNat, BitVec.setWidth_eq]
  have hsym : BitVec.ofNat 6 (en.symBits.toNat + 8) = en.symBits + 8#6 := by
    rw [BitVec.ofNat_add, BitVec.ofNat_toNat, BitVec.setWidth_eq]
  rw [ingested, hacc, hvalid, hsym, Engine.shiftIn]

/-- `acc` after INGEST's first step, as a number (R123). -/
theorem shiftIn_acc_toNat (b : Byte) (en : Engine) :
    (en.shiftIn b).acc.toNat = (en.acc.toNat * 256 + b.toNat) % 65536 := by
  rw [← ingested_eq_shiftIn, ingested, BitVec.toNat_ofNat]

/-- Taking bits off `valid_bits`, as the register holds it. -/
theorem consume_validBits_eq_ofNat {en : Engine} {bits : BitVec 4} (h : bits.toNat ≤ en.validBits.toNat) :
    (en.consume bits).validBits = BitVec.ofNat 4 (en.validBits.toNat - bits.toNat) := by
  refine BitVec.eq_of_toNat_eq ?_
  rw [Engine.consume_validBits_toNat h, BitVec.toNat_ofNat]
  exact (Nat.mod_eq_of_lt (Nat.lt_of_le_of_lt (Nat.sub_le _ _) en.validBits.isLt)).symm

/-- A completed symbol, register by register. -/
theorem symbolCompleted_eq_emit (cap0 : Nat) (sym : Symbol) {bits : BitVec 4} {en : Engine}
    (h : bits.toNat ≤ en.validBits.toNat) :
    symbolCompleted cap0 sym bits.toNat en = (en.consume bits).emit cap0 sym := by
  have hvalid := consume_validBits_eq_ofNat h
  have hsym : BitVec.ofNat 6 (en.validBits.toNat - bits.toNat) = (en.consume bits).validBits.setWidth 6 := by
    rw [← Engine.consume_validBits_toNat h, BitVec.ofNat_toNat]
  have hbyte : BitVec.ofNat 8 sym.toNat = outputByte sym := rfl
  rw [symbolCompleted, ← hvalid, hsym, hbyte]
  rfl

/-- The slot INGEST looks up holds what its lookup reads. -/
theorem ingestChild_iff (t : Tree) (en : Engine) (child : Option Nat) :
    ingestChild t en child ↔ Tree.child t en.node (ingestSlot en) = .ok child := by
  have hslot : (ingestSlot en).toNat = en.acc.toNat / 2 ^ (en.validBits.toNat - 8) % 256 := by
    rw [ingestSlot, lowByte, BitVec.toNat_ofNat, Nat.shiftRight_eq_div_pow]
  rw [Tree.child_ok_iff, hslot, ingestChild]

section
variable {t : Tree} {eos : Symbol} {cap0 : Nat} {en en' : Engine}

/-- INGEST's lookup finds the node that the slot leads to. -/
theorem lookup_of_ingestChild {c : Nat} {x : Node} (hc : ingestChild t en (some c)) (hx : t[c]? = some x) :
    Tree.lookup t en.node (ingestSlot en) = .ok (.node c (Node.header x)) :=
  (Tree.lookup_node_iff _ _ _ _ _).2 ⟨(ingestChild_iff t en _).1 hc, (Tree.header_ok_iff _ _ _).2 ⟨x, hx, rfl⟩⟩

/-- A pass takes at least one bit, and the loop goes on from the engine it leaves. -/
theorem IngestPass.ingestLoop_eq (h : IngestPass t eos cap0 en en') (passes : Nat) :
    8 ≤ en.validBits.toNat ∧ en'.validBits.toNat < en.validBits.toNat ∧
      ingestLoop t eos cap0 (passes + 1) en = ingestLoop t eos cap0 passes en' := by
  cases h with
  | symbol c sym k h8 hc hk hne =>
    have hbits : (terminalBits k).toNat ≤ en.validBits.toNat := by
      rw [terminalBits_toNat]
      omega
    rw [← terminalBits_toNat, symbolCompleted_eq_emit cap0 sym hbits]
    refine ⟨h8, ?_, ?_⟩
    · rw [Engine.emit_validBits, Engine.consume_validBits_toNat hbits, terminalBits_toNat]
      omega
    · rw [ingestLoop_succ, if_pos h8, lookup_of_ingestChild hc hk]
      exact if_neg hne
  | descend c h8 hc hi =>
    obtain ⟨slots, hx⟩ := hi
    rw [← show (8#4).toNat = 8 from rfl, ← consume_validBits_eq_ofNat (bits := 8#4) h8]
    refine ⟨h8, ?_, ?_⟩
    · have := Engine.consume_validBits_toNat (bits := 8#4) h8
      simp only [this]
      exact Nat.sub_lt (by omega) (by decide)
    · rw [ingestLoop_succ, if_pos h8, lookup_of_ingestChild hc hx]
      rfl

/-- After any number of passes the loop goes on, with as many passes left as the bits can take. -/
theorem IngestPasses.ingestLoop_eq (h : IngestPasses t eos cap0 en en') {passes : Nat}
    (hp : en.validBits.toNat ≤ 7 + passes) : ∃ left, en'.validBits.toNat ≤ 7 + left ∧
      ingestLoop t eos cap0 passes en = ingestLoop t eos cap0 left en' := by
  induction h using Relation.ReflTransGen.head_induction_on generalizing passes with
  | refl => exact ⟨passes, hp, rfl⟩
  | head hpass _ ih =>
    obtain ⟨passes, rfl⟩ : ∃ n, passes = n + 1 := ⟨passes - 1, by have := (hpass.ingestLoop_eq 0).1; omega⟩
    obtain ⟨-, hlt, heq⟩ := hpass.ingestLoop_eq passes
    rw [heq]
    exact ih (by omega)

/-- After any number of passes from INGEST's first step, the loop of INGEST goes on: `valid_bits` has 4 bits. -/
theorem IngestPasses.ingestLoop_shiftIn {b : Byte} (h : IngestPasses t eos cap0 (ingested b en) en') :
    ∃ left, en'.validBits.toNat ≤ 7 + left ∧
      ingestLoop t eos cap0 8 (en.shiftIn b) = ingestLoop t eos cap0 left en' := by
  rw [ingested_eq_shiftIn] at h
  exact h.ingestLoop_eq (Nat.le_of_lt_succ (en.shiftIn b).validBits.isLt)

/-- The loop ends normally where fewer than 8 bits are valid. -/
theorem ingestLoop_of_few (passes : Nat) (h : en.validBits.toNat < 8) : ingestLoop t eos cap0 passes en = .ok en := by
  cases passes with
  | zero => rfl
  | succ passes => rw [ingestLoop_succ, if_neg (Nat.not_le.2 h)]

/-- The loop raises `EMPTY_SLOT` at an empty slot. -/
theorem ingestLoop_of_empty (passes : Nat) (h8 : 8 ≤ en.validBits.toNat) (hc : ingestChild t en none) :
    ingestLoop t eos cap0 (passes + 1) en = .raise .emptySlot := by
  rw [ingestLoop_succ, if_pos h8, (Tree.lookup_empty_iff _ _ _).2 ((ingestChild_iff t en none).1 hc)]

/-- The loop raises `EOS_DECODED` at the terminal of the EOS symbol. -/
theorem ingestLoop_of_eos (passes : Nat) {c : Nat} {k : Fin 8} (h8 : 8 ≤ en.validBits.toNat)
    (hc : ingestChild t en (some c)) (hk : t[c]? = some (.terminal eos k)) :
    ingestLoop t eos cap0 (passes + 1) en = .raise .eosDecoded := by
  rw [ingestLoop_succ, if_pos h8, lookup_of_ingestChild hc hk]
  exact if_pos rfl

end

section
variable {s : State} {e : Nat} {en : Engine}

/-- Setting the engine of the port and responding is the answer of its command. -/
theorem setEngine_respond_eq_answered (ha : addressed s e en) (en' : Engine) (r : Response) :
    (s.setEngine e en').respond r = answered s e en' r :=
  congrArg (fun p => { s.setEngine e en' with response := some (p, r) }) ha.1

/-- Raising a fault of the engine of the port is fault entry (60_exceptions.md R183). -/
theorem faultEntered_raiseEngineFault (ha : addressed s e en) (k : EngineFault) :
    faultEntered s e k k.response (s.raiseEngineFault e en k) :=
  ⟨Engine.unspecified (nextDraw en.freeKey) .faulted (some k), rfl, rfl, setEngine_respond_eq_answered ha _ _⟩

end

/-- Settles O20: the passes are those of the loop, which ends where fewer than 8 bits are valid. -/
theorem ingestCompletes : Obligations.IngestCompletes := by
  unfold Obligations.IngestCompletes
  intro s e en en' b ha hb hst hpasses hfew
  obtain ⟨left, -, hloop⟩ := hpasses.ingestLoop_shiftIn
  rw [← setEngine_respond_eq_answered ha]
  exact execIngest_of_ok ha hb hst (hloop.trans (ingestLoop_of_few left hfew))

/-- Settles O21: the passes are those of the loop, and one is left for the lookup of the empty slot. -/
theorem ingestRaisesEmptySlot : Obligations.IngestRaisesEmptySlot := by
  unfold Obligations.IngestRaisesEmptySlot
  intro s e en en' b ha hb hst hpasses h8 hc
  obtain ⟨left, hleft, hloop⟩ := hpasses.ingestLoop_shiftIn
  obtain ⟨left, rfl⟩ : ∃ n, left = n + 1 := ⟨left - 1, by omega⟩
  exact ⟨_, execIngest_of_raise ha hb hst (hloop.trans (ingestLoop_of_empty left h8 hc)),
    faultEntered_raiseEngineFault ha .emptySlot⟩

/-- Settles O22: the passes are those of the loop, and one is left for the lookup of the terminal. -/
theorem ingestRaisesEosDecoded : Obligations.IngestRaisesEosDecoded := by
  unfold Obligations.IngestRaisesEosDecoded
  intro s e en en' b c k ha hb hst hpasses h8 hc hk
  obtain ⟨left, hleft, hloop⟩ := hpasses.ingestLoop_shiftIn
  obtain ⟨left, rfl⟩ : ∃ n, left = n + 1 := ⟨left - 1, by omega⟩
  exact ⟨_, execIngest_of_raise ha hb hst (hloop.trans (ingestLoop_of_eos left h8 hc hk)),
    faultEntered_raiseEngineFault ha .eosDecoded⟩

end Sys2Proof.Safety
end

section
/-! SUPPORT. What a completed INGEST leaves unchanged (41_engine_ingest.md R123, R130), and what RESET does (R120, R122,
R127). -/

namespace Sys2Proof.Safety

open Sys2Proof.Machine

/-- `en'` has at most `n` bytes more than `en`, and every other index of OUT is listed as before. -/
def AppendedAtMost (n : Nat) (en en' : Engine) : Prop :=
  en.outLen ≤ en'.outLen ∧ en'.outLen ≤ en.outLen + n ∧
    ∀ a, a < en.outLen ∨ en'.outLen ≤ a → Memory.read en'.out a = Memory.read en.out a

/-- An engine with the same output has nothing more. -/
theorem appendedAtMost_refl (n : Nat) (en : Engine) : AppendedAtMost n en en :=
  ⟨Nat.le_refl _, Nat.le_add_right _ _, fun _ _ => rfl⟩

/-- A completed symbol appends one byte, before those that follow. -/
theorem AppendedAtMost.of_emit {n cap0 : Nat} {sym : Symbol} {en en' : Engine}
    (h : AppendedAtMost n (en.emit cap0 sym) en') : AppendedAtMost (n + 1) en en' := by
  obtain ⟨hle, hn, hread⟩ := h
  rw [Engine.emit_outLen] at hle hn hread
  refine ⟨by omega, by omega, fun a ha => ?_⟩
  rw [hread a (by omega), Engine.emit_out, Memory.read_write_other en.out _ (by omega)]

/-- INGEST's loop appends at most one byte in each pass. -/
theorem appendedAtMost_of_ingestLoop {t : Tree} {eos : Symbol} {cap0 passes : Nat} {en en' : Engine}
    (h : ingestLoop t eos cap0 passes en = .ok en') : AppendedAtMost passes en en' := by
  induction passes generalizing en with
  | zero =>
    cases h
    exact appendedAtMost_refl 0 _
  | succ passes ih =>
    rw [ingestLoop_succ] at h
    split at h
    · split at h
      · cases h
      · cases h
      · rename_i c hd _
        split at h
        · split at h
          · cases h
          · exact (ih h).of_emit (en := en.consume hd.bits)
        · obtain ⟨hle, hn, hread⟩ := ih h
          exact ⟨hle, Nat.le_succ_of_le hn, hread⟩
    · cases h
      exact appendedAtMost_refl _ _

/-- Settles O23: INGEST answers `OK` with the engine that its loop of 8 passes leaves. -/
theorem ingestFrame : Obligations.IngestFrame := by
  unfold Obligations.IngestFrame
  intro s t e en b ha ht hr
  obtain ⟨x, en', hx, hl, rfl⟩ := execIngest_ok ha.1 (congrArg (Option.map Prod.snd) hr) ht
  cases ha.2.symm.trans hx
  obtain ⟨hacc, hst, hft, hkey⟩ := ingestLoop_keeps hl
  obtain ⟨hle, h8, hread⟩ := appendedAtMost_of_ingestLoop hl
  refine ⟨en', setEngine_respond_eq_answered ha en' .ok, hst, hft, ?_, hle, h8, fun a ha => ?_⟩
  · rw [hacc, shiftIn_acc_toNat]
  · exact ⟨hread a ha, Engine.outByte_congr hkey (hread a ha)⟩

/-- An engine command that is not accepted is refused. -/
theorem onEngine_of_not_accepted {s : State} {e : Nat} {en : Engine} {accepts : TreeState → EngineStatus → Bool}
    {run : Nat → Engine → Result} (ha : addressed s e en) (h : accepts s.treeState en.status = false) :
    s.onEngine accepts run = .next (s.refuse .sequenceRefused) := by
  simp [State.onEngine, ha.1, ha.2, h]

/-- RESET is refused where the tree is not built (R122). -/
theorem execReset_of_not_built {s : State} {e : Nat} {en : Engine} (ha : addressed s e en)
    (hb : s.treeState ≠ .built) : execReset s = .next (s.refuse .sequenceRefused) :=
  onEngine_of_not_accepted ha (by simpa [acceptsReset] using hb)

/-- Settles O18: RESET restarts its engine, or is refused. -/
theorem resetStartsDecode : Obligations.ResetStartsDecode := by
  unfold Obligations.ResetStartsDecode
  intro s e en ha
  refine ⟨fun hb hc => ⟨[], nextDraw en.freeKey, ?_⟩, execReset_of_not_built ha⟩
  exact (execReset_of_built ha hb hc).trans (congrArg _ (setEngine_respond_eq_answered ha _ _))

/-- Settles O19: RESET is the command that takes `CAP0` into a register. -/
theorem zeroCapacityRefused : Obligations.ZeroCapacityRefused := by
  unfold Obligations.ZeroCapacityRefused
  intro s e en ha hb hc
  exact execReset_of_zeroCapacity ha hb hc

end Sys2Proof.Safety
end

section
/-! SUPPORT. The output buffer append by append (41_engine_ingest.md R126, R127). -/

namespace Sys2Proof.Safety

open Sys2Proof.Machine

/-- The output buffer holds the bytes, in order, and its capacity follows the growth law. -/
structure HoldsBytes (cap0 : Nat) (bytes : List Byte) (en : Engine) : Prop where
  length : en.outLen = bytes.length
  capacity : en.outCap = grownCapacity cap0 bytes.length
  read : ∀ i, Memory.read en.out i = bytes[i]?

/-- RESET leaves a buffer that holds no byte. -/
theorem holdsBytes_restart {cap0 : Nat} (h : 1 ≤ cap0) (en : Engine) : HoldsBytes cap0 [] (en.restart cap0) where
  length := rfl
  capacity := (grownCapacity_zero h).symm
  read := fun _ => rfl

/-- An append puts its byte behind the others. -/
theorem HoldsBytes.append {cap0 : Nat} {bytes : List Byte} {en : Engine} (h : HoldsBytes cap0 bytes en)
    (hcap : 1 ≤ cap0) (b : Byte) : HoldsBytes cap0 (bytes ++ [b]) (en.append cap0 b) where
  length := by rw [Engine.append_outLen, h.length, List.length_append, List.length_singleton]
  capacity := by
    rw [Engine.append_outCap, h.length, h.capacity, List.length_append, List.length_singleton, grownCapacity_succ hcap]
  read := fun i => by
    rw [Engine.append_out, Memory.read_write, h.length, h.read]
    rcases Nat.lt_trichotomy i bytes.length with hlt | heq | hgt
    · rw [if_neg (Nat.ne_of_lt hlt), List.getElem?_append_left hlt]
    · rw [if_pos heq, heq, List.getElem?_concat_length]
    · rw [if_neg (Nat.ne_of_gt hgt), List.getElem?_eq_none (Nat.le_of_lt hgt), List.getElem?_eq_none (by simp; omega)]

/-- Appends from RESET on leave a buffer that holds their bytes. -/
theorem holdsBytes_of_appends {cap0 : Nat} (h : 1 ≤ cap0) (bytes : List Byte) (en : Engine) :
    HoldsBytes cap0 bytes (bytes.foldl (fun x b => x.append cap0 b) (en.restart cap0)) := by
  induction bytes using List.reverseRecOn with
  | nil => exact holdsBytes_restart h en
  | append_singleton bytes b ih =>
    rw [List.foldl_append]
    exact ih.append h b

/-- Settles O42: by induction over the appends, from RESET on. -/
theorem linearGrowth : Obligations.LinearGrowth := by
  unfold Obligations.LinearGrowth
  rintro cap0 bytes en₀ en hcap rfl
  obtain ⟨hlen, hcapacity, hread⟩ := holdsBytes_of_appends hcap bytes en₀
  exact ⟨hlen, hcapacity, hread, fun i b hb => Engine.outByte_of_written ((hread i).trans hb)⟩

end Sys2Proof.Safety
end

section
/-! SUPPORT. DECODE does not depend on what the engines held before (41_engine_ingest.md R121, 70_reset_and_hazards.md
R214): after RESET two engines differ in their draw of free values alone, which no loop reads and an ordered buffer does
not show. -/

namespace Sys2Proof.Safety

open Sys2Proof.Machine

/-- The engine with another draw of free values. -/
def withKey (key : Config.FreeKey) (en : Engine) : Engine := { en with freeKey := key }

@[simp] theorem withKey_validBits (key : Config.FreeKey) (en : Engine) :
    (withKey key en).validBits = en.validBits := rfl

/-- The end of a loop with another draw of free values in the engine it leaves. -/
def walkWithKey (key : Config.FreeKey) : Walk → Walk
  | .ok en => .ok (withKey key en)
  | .raise k => .raise k
  | .stop f => .stop f

/-- INGEST's loop reads no free value. -/
theorem ingestLoop_withKey (key : Config.FreeKey) (t : Tree) (eos : Symbol) (cap0 passes : Nat) (en : Engine) :
    ingestLoop t eos cap0 passes (withKey key en) = walkWithKey key (ingestLoop t eos cap0 passes en) := by
  induction passes generalizing en with
  | zero => rfl
  | succ passes ih =>
    have hlookup : Tree.lookup t (withKey key en).node (ingestSlot (withKey key en)) =
        Tree.lookup t en.node (ingestSlot en) := rfl
    rw [ingestLoop_succ, ingestLoop_succ, hlookup, withKey_validBits]
    by_cases h8 : 8 ≤ en.validBits.toNat
    case neg => rw [if_neg h8, if_neg h8, walkWithKey]
    rw [if_pos h8, if_pos h8]
    cases Tree.lookup t en.node (ingestSlot en) with
    | error f => rfl
    | ok l =>
      cases l with
      | empty => rfl
      | node c hd =>
        cases hk : hd.kind with
        | terminal =>
          by_cases he : hd.symbol = eos
          · simp only [hk, he, if_true, walkWithKey]
          · simp only [hk, if_neg he]
            exact ih ((en.consume hd.bits).emit cap0 hd.symbol)
        | internal =>
          simp only [hk]
          exact ih { en.consume hd.bits with node := c }

/-- FINISH's loop reads no free value. -/
theorem finishLoop_withKey (key : Config.FreeKey) (t : Tree) (eos : Symbol) (cap0 passes : Nat) (en : Engine) :
    finishLoop t eos cap0 passes (withKey key en) = walkWithKey key (finishLoop t eos cap0 passes en) := by
  induction passes generalizing en with
  | zero => rfl
  | succ passes ih =>
    have hlookup : Tree.lookup t (withKey key en).node (finishSlot (withKey key en)) =
        Tree.lookup t en.node (finishSlot en) := rfl
    rw [finishLoop_succ, finishLoop_succ, hlookup, withKey_validBits]
    by_cases h0 : 0 < en.validBits.toNat
    case neg => rw [if_neg h0, if_neg h0, walkWithKey]
    rw [if_pos h0, if_pos h0]
    cases Tree.lookup t en.node (finishSlot en) with
    | error f => rfl
    | ok l =>
      cases l with
      | empty => rfl
      | node c hd =>
        by_cases hfit : hd.kind = .terminal ∧ hd.bits.toNat ≤ en.validBits.toNat
        case neg => simp only [if_neg hfit, walkWithKey]
        by_cases he : hd.symbol = eos
        · simp only [if_pos hfit, he, if_true, walkWithKey]
        · simp only [if_pos hfit, if_neg he]
          exact ih ((en.consume hd.bits).emit cap0 hd.symbol)

section
variable {t : Tree} {eos : Symbol} {cap0 passes : Nat} {en en' : Engine}

/-- INGEST's loop keeps the buffer in order, on any tree. -/
theorem BufferOk.of_ingestLoop (h : BufferOk cap0 en) (hl : ingestLoop t eos cap0 passes en = .ok en') :
    BufferOk cap0 en' :=
  ingestLoop_induction (P := BufferOk cap0)
    (fun x hd _ hP => (hP.congr (en' := x.consume hd.bits) rfl rfl rfl).emit hd.symbol)
    (fun _ _ _ _ _ _ _ hP => hP.congr rfl rfl rfl) hl h

/-- FINISH's loop keeps the buffer in order, on any tree. -/
theorem BufferOk.of_finishLoop (h : BufferOk cap0 en) (hl : finishLoop t eos cap0 passes en = .ok en') :
    BufferOk cap0 en' :=
  finishLoop_induction (P := BufferOk cap0)
    (fun x hd _ hP => (hP.congr (en' := x.consume hd.bits) rfl rfl rfl).emit hd.symbol) hl h

end

/-- The engines are both `FAULTED`, or they differ in their draw of free values alone and their buffer is in order. -/
def EnginesAlike (cap0 : Nat) (en₁ en₂ : Engine) : Prop :=
  (en₁.status = .faulted ∧ en₂.status = .faulted) ∨ (BufferOk cap0 en₁ ∧ ∃ key, en₂ = withKey key en₁)

/-- The blocks agree on all that their engines share, and both have engine `e`. -/
structure SharedAlike (e : Nat) (s₁ s₂ : State) : Prop where
  params : s₁.params = s₂.params
  treeState : s₁.treeState = s₂.treeState
  tree : s₁.tree = s₂.tree
  left : e < s₁.engines.length
  right : e < s₂.engines.length

/-- The blocks agree on all that their engines share and on the last response, and their engines `e` are alike. -/
structure BlocksAlike (e : Nat) (s₁ s₂ : State) : Prop where
  shared : SharedAlike e s₁ s₂
  response : s₁.lastResponse = s₂.lastResponse
  engine : ∃ en₁ en₂, s₁.engines[e]? = some en₁ ∧ s₂.engines[e]? = some en₂ ∧ EnginesAlike (s₁.cap0 e) en₁ en₂

/-- Where the first answers a next state, the second answers one alike. -/
def FollowedBy (e : Nat) (r₁ r₂ : Result) : Prop :=
  ∀ t₁, r₁ = .next t₁ → ∃ t₂, r₂ = .next t₂ ∧ BlocksAlike e t₁ t₂

section
variable {e : Nat} {s₁ s₂ : State} {en₁ en₂ : Engine}

/-- Blocks that agree on what is shared have the same `CAP0`. -/
theorem SharedAlike.cap0_eq (h : SharedAlike e s₁ s₂) : s₂.cap0 e = s₁.cap0 e := by
  rw [State.cap0, State.cap0, h.params]

/-- Next states that are alike follow each other. -/
theorem BlocksAlike.followedBy (h : BlocksAlike e s₁ s₂) : FollowedBy e (.next s₁) (.next s₂) := by
  intro t₁ ht
  cases ht
  exact ⟨s₂, rfl, h⟩

/-- Setting engine `e` alike, with the same response, leaves blocks alike. -/
theorem SharedAlike.setEngine (h : SharedAlike e s₁ s₂) (hen : EnginesAlike (s₁.cap0 e) en₁ en₂) (r : Response) :
    BlocksAlike e ((s₁.setEngine e en₁).respond r) ((s₂.setEngine e en₂).respond r) where
  shared := ⟨h.params, h.treeState, h.tree, by simpa using h.left, by simpa using h.right⟩
  response := rfl
  engine := ⟨en₁, en₂, by simp [h.left], by simp [h.right], hen⟩

/-- Refusing with the same response leaves blocks alike. -/
theorem BlocksAlike.refuse (h : BlocksAlike e s₁ s₂) (r : Response) : BlocksAlike e (s₁.refuse r) (s₂.refuse r) where
  shared := ⟨h.shared.params, h.shared.treeState, h.shared.tree, h.shared.left, h.shared.right⟩
  response := rfl
  engine := h.engine

/-- Presenting a word leaves blocks alike. -/
theorem BlocksAlike.present (h : BlocksAlike e s₁ s₂) (p : Port) (rest₁ rest₂ : List HostEvent) :
    BlocksAlike e (s₁.present p rest₁) (s₂.present p rest₂) where
  shared := ⟨h.shared.params, h.shared.treeState, h.shared.tree, h.shared.left, h.shared.right⟩
  response := h.response
  engine := h.engine

/-- A command that a `FAULTED` engine does not accept answers alike where it does on engines that differ in their draw
of free values alone. -/
theorem BlocksAlike.onEngine (h : BlocksAlike e s₁ s₂) (hp₁ : s₁.port = .engine e) (hp₂ : s₂.port = .engine e)
    {accepts : TreeState → EngineStatus → Bool} (hfaulted : ∀ ts, accepts ts .faulted = false)
    {run₁ run₂ : Nat → Engine → Result}
    (hrun : ∀ en key, BufferOk (s₁.cap0 e) en → FollowedBy e (run₁ e en) (run₂ e (withKey key en))) :
    FollowedBy e (s₁.onEngine accepts run₁) (s₂.onEngine accepts run₂) := by
  obtain ⟨en₁, en₂, hen₁, hen₂, hen⟩ := h.engine
  have hrefused := (h.refuse .sequenceRefused).followedBy
  rcases hen with ⟨hf₁, hf₂⟩ | ⟨hbuf, key, rfl⟩
  · rw [onEngine_of_not_accepted ⟨hp₁, hen₁⟩ (by rw [hf₁, hfaulted]),
      onEngine_of_not_accepted ⟨hp₂, hen₂⟩ (by rw [hf₂, hfaulted])]
    exact hrefused
  · have hsame : accepts s₂.treeState (withKey key en₁).status = accepts s₁.treeState en₁.status := by
      rw [h.shared.treeState]
      rfl
    cases hacc : accepts s₁.treeState en₁.status with
    | true =>
      rw [State.onEngine_run hp₁ hen₁ hacc, State.onEngine_run hp₂ hen₂ (hsame.trans hacc)]
      exact hrun en₁ key hbuf
    | false =>
      rw [onEngine_of_not_accepted ⟨hp₁, hen₁⟩ hacc, onEngine_of_not_accepted ⟨hp₂, hen₂⟩ (hsame.trans hacc)]
      exact hrefused

/-- Raising the same fault leaves blocks alike. -/
theorem SharedAlike.raiseEngineFault (h : SharedAlike e s₁ s₂) (en₁ en₂ : Engine) (k : EngineFault) :
    FollowedBy e (.next (s₁.raiseEngineFault e en₁ k)) (.next (s₂.raiseEngineFault e en₂ k)) :=
  (h.setEngine (en₁ := Engine.unspecified (nextDraw en₁.freeKey) .faulted (some k))
    (en₂ := Engine.unspecified (nextDraw en₂.freeKey) .faulted (some k)) (.inl ⟨rfl, rfl⟩) k.response).followedBy

/-- INGEST answers alike on blocks that are alike. -/
theorem BlocksAlike.execIngest (h : BlocksAlike e s₁ s₂) (hp₁ : s₁.port = .engine e) (hp₂ : s₂.port = .engine e)
    (b : Byte) : FollowedBy e (execIngest b s₁) (execIngest b s₂) := by
  refine h.onEngine hp₁ hp₂ (fun ts => by simp [acceptsIngest]) fun en key hbuf => ?_
  have hloop := ingestLoop_withKey key s₁.tree s₁.params.eosSym (s₁.cap0 e) 8 (en.shiftIn b)
  have hshift : (withKey key en).shiftIn b = withKey key (en.shiftIn b) := rfl
  rw [← h.shared.params, ← h.shared.tree, h.shared.cap0_eq, hshift, hloop]
  cases hl : ingestLoop s₁.tree s₁.params.eosSym (s₁.cap0 e) 8 (en.shiftIn b) with
  | ok en' =>
    have hbuf' : BufferOk (s₁.cap0 e) en' := (hbuf.congr (en' := en.shiftIn b) rfl rfl rfl).of_ingestLoop hl
    exact (h.shared.setEngine (.inr ⟨hbuf', key, rfl⟩) .ok).followedBy
  | raise k => exact h.shared.raiseEngineFault en (withKey key en) k
  | stop f => exact fun t₁ ht => nomatch ht

/-- FINISH answers alike on blocks that are alike. -/
theorem BlocksAlike.execFinish (h : BlocksAlike e s₁ s₂) (hp₁ : s₁.port = .engine e) (hp₂ : s₂.port = .engine e) :
    FollowedBy e (execFinish s₁) (execFinish s₂) := by
  refine h.onEngine hp₁ hp₂ (fun ts => by simp [acceptsFinish]) fun en key hbuf => ?_
  have hloop := finishLoop_withKey key s₁.tree s₁.params.eosSym (s₁.cap0 e) en.validBits.toNat en
  rw [← h.shared.params, ← h.shared.tree, h.shared.cap0_eq, withKey_validBits, hloop]
  cases hl : finishLoop s₁.tree s₁.params.eosSym (s₁.cap0 e) en.validBits.toNat en with
  | ok en' =>
    have hpad : paddingValid (withKey key en') = paddingValid en' := rfl
    simp only [walkWithKey, hpad]
    split
    · have hbuf' : BufferOk (s₁.cap0 e) en'.complete := (hbuf.of_finishLoop hl).congr rfl rfl rfl
      exact (h.shared.setEngine (.inr ⟨hbuf', key, rfl⟩) .ok).followedBy
    · exact h.shared.raiseEngineFault en (withKey key en) .invalidPadding
  | raise k => exact h.shared.raiseEngineFault en (withKey key en) k
  | stop f => exact fun t₁ ht => nomatch ht

/-- RESET leaves blocks alike that agree on what is shared, whatever their engines held. -/
theorem SharedAlike.execReset (h : SharedAlike e s₁ s₂) (hp₁ : s₁.port = .engine e) (hp₂ : s₂.port = .engine e)
    (hb : s₁.treeState = .built) : FollowedBy e (execReset s₁) (execReset s₂) := by
  have ha₁ : addressed s₁ e (s₁.engines[e]'h.left) := ⟨hp₁, List.getElem?_eq_getElem h.left⟩
  have ha₂ : addressed s₂ e (s₂.engines[e]'h.right) := ⟨hp₂, List.getElem?_eq_getElem h.right⟩
  by_cases hc : s₁.cap0 e = 0
  · rw [execReset_of_zeroCapacity ha₁ hb hc]
    exact fun t₁ ht => nomatch ht
  · rw [execReset_of_built ha₁ hb hc, execReset_of_built ha₂ (h.treeState ▸ hb) (h.cap0_eq ▸ hc), h.cap0_eq]
    exact (h.setEngine (.inr ⟨BufferOk.restart (Nat.pos_of_ne_zero hc) _, _, rfl⟩)
      .ok).followedBy

end

/-- DECODE goes on after a command that answers `OK`, and ends after any other (30_encoding.md R86). -/
theorem issueAll_cons_of_next {p : Port} {i : Instr} {rest : List Instr} {s u : State}
    (h : exec i (s.present p s.pending) = .next u) :
    issueAll p (i :: rest) s = if u.lastResponse = some .ok then issueAll p rest u else .next u := by
  rw [issueAll, issue_eq, h]

/-- Where commands in order answer a next state, the first of them does. -/
theorem exec_of_issueAll_cons {p : Port} {i : Instr} {rest : List Instr} {s t : State}
    (h : issueAll p (i :: rest) s = .next t) : ∃ u, exec i (s.present p s.pending) = .next u := by
  rw [issueAll, issue_eq] at h
  split at h
  · exact ⟨_, ‹_›⟩
  · cases h
  · cases h

section
variable {e : Nat} {s₁ s₂ : State}

/-- Commands in order answer alike where the first and the others do. -/
theorem followedBy_issueAll_cons {i : Instr} {rest : List Instr}
    (hfirst : FollowedBy e (exec i (s₁.present (.engine e) s₁.pending)) (exec i (s₂.present (.engine e) s₂.pending)))
    (hrest : ∀ u₁ u₂, BlocksAlike e u₁ u₂ →
      FollowedBy e (issueAll (.engine e) rest u₁) (issueAll (.engine e) rest u₂)) :
    FollowedBy e (issueAll (.engine e) (i :: rest) s₁) (issueAll (.engine e) (i :: rest) s₂) := by
  intro t₁ ht
  obtain ⟨u₁, hu₁⟩ := exec_of_issueAll_cons ht
  obtain ⟨u₂, hu₂, halike⟩ := hfirst u₁ hu₁
  rw [issueAll_cons_of_next hu₁] at ht
  rw [issueAll_cons_of_next hu₂, ← halike.response]
  split
  · rw [if_pos ‹_›] at ht
    exact hrest u₁ u₂ halike t₁ ht
  · rw [if_neg ‹_›] at ht
    exact halike.followedBy t₁ ht

/-- The INGESTs of a DECODE and its FINISH answer alike on blocks that are alike. -/
theorem BlocksAlike.issueAll (h : BlocksAlike e s₁ s₂) (bytes : List Byte) :
    FollowedBy e (issueAll (.engine e) (bytes.map .ingest ++ [.finish]) s₁)
      (issueAll (.engine e) (bytes.map .ingest ++ [.finish]) s₂) := by
  induction bytes generalizing s₁ s₂ with
  | nil =>
    exact followedBy_issueAll_cons ((h.present _ s₁.pending s₂.pending).execFinish rfl rfl)
      fun u₁ u₂ hu => hu.followedBy
  | cons b bytes ih =>
    exact followedBy_issueAll_cons ((h.present _ s₁.pending s₂.pending).execIngest rfl rfl b) fun u₁ u₂ hu => ih hu

/-- The Host reads the same result from blocks that are alike. -/
theorem BlocksAlike.hostOutput_eq (h : BlocksAlike e s₁ s₂) : s₂.hostOutput e = s₁.hostOutput e := by
  obtain ⟨en₁, en₂, hen₁, hen₂, hen⟩ := h.engine
  rw [Safety.hostOutput_eq hen₁, Safety.hostOutput_eq hen₂]
  rcases hen with ⟨hf₁, hf₂⟩ | ⟨hbuf, key, rfl⟩
  · simp [hf₁, hf₂]
  · have hbuf' : BufferOk (s₁.cap0 e) (withKey key en₁) := hbuf.congr rfl rfl rfl
    have hbytes : (withKey key en₁).outBytes (withKey key en₁).outLen = en₁.outBytes en₁.outLen :=
      List.ext_getElem? fun i => (hbuf'.outBytes_getElem? i).trans (hbuf.outBytes_getElem? i).symm
    rw [hbytes]
    rfl

/-- The Host reads the same capacity from blocks that are alike. -/
theorem BlocksAlike.hostOutCap_eq (h : BlocksAlike e s₁ s₂) : s₂.hostOutCap e = s₁.hostOutCap e := by
  obtain ⟨en₁, en₂, hen₁, hen₂, hen⟩ := h.engine
  rw [Safety.hostOutCap_eq hen₁, Safety.hostOutCap_eq hen₂]
  rcases hen with ⟨hf₁, hf₂⟩ | ⟨-, key, rfl⟩
  · simp [hf₁, hf₂]
  · rfl

/-- A DECODE answers the same from blocks that are alike. -/
theorem BlocksAlike.decodeResult_eq (h : BlocksAlike e s₁ s₂) : s₂.decodeResult e = s₁.decodeResult e := by
  rw [State.decodeResult, State.decodeResult, h.response, h.hostOutput_eq]

/-- Where the tree is built, a DECODE leaves blocks alike that agree on what is shared. -/
theorem SharedAlike.decodeLiteral (h : SharedAlike e s₁ s₂) (hb : s₁.treeState = .built) (bytes : List Byte) :
    FollowedBy e (decodeLiteral e bytes s₁) (decodeLiteral e bytes s₂) := by
  have hpresent : SharedAlike e (s₁.present (.engine e) s₁.pending) (s₂.present (.engine e) s₂.pending) :=
    ⟨h.params, h.treeState, h.tree, h.left, h.right⟩
  exact followedBy_issueAll_cons (hpresent.execReset rfl rfl hb) fun u₁ u₂ hu => hu.issueAll bytes

end

/-- Where the tree is not built, DECODE ends at its RESET, which is refused. -/
theorem decodeLiteral_of_not_built {s : State} {e : Nat} (he : e < s.engines.length) (hb : s.treeState ≠ .built)
    (bytes : List Byte) : ∃ t, decodeLiteral e bytes s = .next t ∧ t.lastResponse = some .sequenceRefused := by
  have ha : addressed (s.present (.engine e) s.pending) e s.engines[e] := ⟨rfl, List.getElem?_eq_getElem he⟩
  refine ⟨_, (issueAll_cons_of_next (i := .reset) (execReset_of_not_built ha hb)).trans (if_neg ?_), rfl⟩
  simp [State.lastResponse]

/-- Settles O46: on a built tree RESET makes the blocks alike and the other commands keep them so; on any other DECODE
is refused. -/
theorem decodeForgetsThePast : Obligations.DecodeForgetsThePast := by
  unfold Obligations.DecodeForgetsThePast
  intro s₁ s₂ t₁ e bytes hparams hts htree he₁ he₂ ht₁
  by_cases hb : s₁.treeState = .built
  · obtain ⟨t₂, ht₂, h⟩ := SharedAlike.decodeLiteral ⟨hparams, hts, htree, he₁, he₂⟩ hb bytes t₁ ht₁
    exact ⟨t₂, ht₂, h.response.symm, fun _ => ⟨h.decodeResult_eq, h.hostOutCap_eq⟩⟩
  · obtain ⟨u₁, hu₁, hr₁⟩ := decodeLiteral_of_not_built he₁ hb bytes
    obtain ⟨t₂, ht₂, hr₂⟩ := decodeLiteral_of_not_built he₂ (hts ▸ hb) bytes
    cases hu₁.symm.trans ht₁
    exact ⟨t₂, ht₂, hr₂.trans hr₁.symm, fun hb' => absurd hb' hb⟩

end Sys2Proof.Safety
end

section
/-! SUPPORT. The passes of FINISH written out register by register (42_engine_finish.md R141) are the passes of its
loop, and as many as there are valid bits are enough; the Padding Validator bit by bit (R143). -/

namespace Sys2Proof.Safety

open Sys2Proof.Machine

/-- The header that FINISH completes a symbol with, of what its lookup reached: that of a terminal that needs no more
than the `v` bits that remain (42_engine_finish.md R141, R142). -/
def fittingHeader (v : Nat) : Lookup → Option NodeHeader
  | .empty => none
  | .node _ h => if h.kind = .terminal ∧ h.bits.toNat ≤ v then some h else none

/-- A lookup that reaches a header FINISH completes a symbol with. -/
theorem fittingHeader_eq_some_iff {v : Nat} {l : Lookup} {h : NodeHeader} :
    fittingHeader v l = some h ↔ (∃ c, l = .node c h) ∧ h.kind = .terminal ∧ h.bits.toNat ≤ v := by
  cases l with
  | empty => simp [fittingHeader]
  | node c h' =>
    rw [fittingHeader, Option.ite_none_right_eq_some]
    constructor
    · rintro ⟨hfit, heq⟩
      cases heq
      exact ⟨⟨c, rfl⟩, hfit⟩
    · rintro ⟨⟨c', heq⟩, hfit⟩
      cases heq
      exact ⟨hfit, rfl⟩

/-- What is made of a node that a lookup reached turns on whether its header fits. -/
theorem fittingHeader_node_elim {α : Type} (v c : Nat) (h : NodeHeader) (a : α) (f : NodeHeader → α) :
    (fittingHeader v (.node c h)).elim a f = if h.kind = .terminal ∧ h.bits.toNat ≤ v then f h else a := by
  rw [fittingHeader, apply_ite (Option.elim · a f), Option.elim_some, Option.elim_none]

/-- The slot FINISH looks up holds what its lookup reads. -/
theorem finishChild_iff (t : Tree) (en : Engine) (child : Option Nat) :
    finishChild t en child ↔ Tree.child t en.node (finishSlot en) = .ok child := by
  have hslot : (finishSlot en).toNat = en.acc.toNat * 2 ^ (8 - en.validBits.toNat) % 256 := by
    rw [finishSlot, lowByte, BitVec.toNat_ofNat, Nat.shiftLeft_eq]
  rw [Tree.child_ok_iff, hslot, finishChild]

/-- The Padding Validator accepts at most 7 bits since the last symbol, all of them 1. -/
theorem paddingValid_iff (en : Engine) : paddingValid en = true ↔
    en.symBits.toNat ≤ 7 ∧ ∀ i, i < en.symBits.toNat → en.acc.getLsbD i = true := by
  rw [paddingValid, Bool.and_eq_true, decide_eq_true_eq, decide_eq_true_eq, Nat.one_shiftLeft]
  refine and_congr_right fun _ => ?_
  have hbit : ∀ i, (en.acc.toNat &&& (2 ^ en.symBits.toNat - 1)).testBit i = (2 ^ en.symBits.toNat - 1).testBit i ↔
      (i < en.symBits.toNat → en.acc.getLsbD i = true) := fun i => by
    rw [Nat.testBit_and, Nat.testBit_two_pow_sub_one, BitVec.testBit_toNat]
    by_cases hi : i < en.symBits.toNat <;> simp [hi]
  exact ⟨fun h i => (hbit i).1 (by rw [h]), fun h => Nat.eq_of_testBit_eq fun i => (hbit i).2 (h i)⟩

section
variable {t : Tree} {eos : Symbol} {cap0 : Nat} {en en' : Engine}

/-- FINISH's lookup finds the node that the slot leads to. -/
theorem lookup_of_finishChild {c : Nat} {x : Node} (hc : finishChild t en (some c)) (hx : t[c]? = some x) :
    Tree.lookup t en.node (finishSlot en) = .ok (.node c (Node.header x)) :=
  (Tree.lookup_node_iff _ _ _ _ _).2 ⟨(finishChild_iff t en _).1 hc, (Tree.header_ok_iff _ _ _).2 ⟨x, hx, rfl⟩⟩

/-- One pass of FINISH's loop where its lookup answers: it turns on the fitting header alone. -/
theorem finishLoop_of_lookup {l : Lookup} (hv : 0 < en.validBits.toNat)
    (hl : Tree.lookup t en.node (finishSlot en) = .ok l) (passes : Nat) :
    finishLoop t eos cap0 (passes + 1) en = (fittingHeader en.validBits.toNat l).elim (.ok en) fun h =>
      if h.symbol = eos then .raise .eosDecoded
      else finishLoop t eos cap0 passes ((en.consume h.bits).emit cap0 h.symbol) := by
  rw [finishLoop_succ, if_pos hv, hl]
  cases l with
  | empty => rfl
  | node c h => simp only [fittingHeader_node_elim]

/-- One pass of FINISH's loop at a terminal that fits. -/
theorem finishLoop_of_terminal {c : Nat} {sym : Symbol} {k : Fin 8} (hc : finishChild t en (some c))
    (hk : t[c]? = some (.terminal sym k)) (hfit : k.val + 1 ≤ en.validBits.toNat) (passes : Nat) :
    finishLoop t eos cap0 (passes + 1) en = if sym = eos then .raise .eosDecoded
      else finishLoop t eos cap0 passes (symbolCompleted cap0 sym (k.val + 1) en) := by
  have hbits : (terminalBits k).toNat ≤ en.validBits.toNat := by rwa [terminalBits_toNat]
  have hsome : fittingHeader en.validBits.toNat (.node c (Node.header (.terminal sym k))) =
      some (Node.header (.terminal sym k)) := fittingHeader_eq_some_iff.2 ⟨⟨c, rfl⟩, rfl, hbits⟩
  rw [finishLoop_of_lookup (by omega) (lookup_of_finishChild hc hk), hsome, ← terminalBits_toNat,
    symbolCompleted_eq_emit cap0 sym hbits]
  rfl

/-- Where FINISH's loop stops with bits left, its lookup answers and reaches no fitting header. -/
theorem exists_lookup_of_finishStops (h : finishStops t en) (hv : 0 < en.validBits.toNat) :
    ∃ l, Tree.lookup t en.node (finishSlot en) = .ok l ∧ fittingHeader en.validBits.toNat l = none := by
  rcases h with h0 | hnone | ⟨c, hc, slots, hslots⟩ | ⟨c, sym, k, hc, hk, hlt⟩
  · omega
  · exact ⟨.empty, (Tree.lookup_empty_iff _ _ _).2 ((finishChild_iff t en none).1 hnone), rfl⟩
  · exact ⟨_, lookup_of_finishChild hc hslots, rfl⟩
  · refine ⟨_, lookup_of_finishChild hc hk, if_neg fun ⟨_, hle⟩ => ?_⟩
    rw [Node.header_terminal, terminalBits_toNat] at hle
    omega

/-- The loop ends normally where it stops. -/
theorem finishLoop_of_stops (passes : Nat) (h : finishStops t en) : finishLoop t eos cap0 passes en = .ok en := by
  cases passes with
  | zero => rfl
  | succ passes =>
    by_cases hv : 0 < en.validBits.toNat
    · obtain ⟨l, hl, hnone⟩ := exists_lookup_of_finishStops h hv
      rw [finishLoop_of_lookup hv hl, hnone, Option.elim_none]
    · rw [finishLoop_succ, if_neg hv]

/-- A pass takes at least one bit, and the loop goes on from the engine it leaves. -/
theorem FinishPass.finishLoop_eq (h : FinishPass t eos cap0 en en') (passes : Nat) :
    en'.validBits.toNat < en.validBits.toNat ∧
      finishLoop t eos cap0 (passes + 1) en = finishLoop t eos cap0 passes en' := by
  obtain ⟨c, sym, k, hc, hk, hfit, hne⟩ := h
  refine ⟨?_, (finishLoop_of_terminal hc hk hfit passes).trans (if_neg hne)⟩
  rw [symbolCompleted, BitVec.toNat_ofNat]
  exact Nat.lt_of_le_of_lt (Nat.mod_le _ _) (by omega)

/-- After any number of passes the loop goes on, with as many passes left as the bits can take. -/
theorem FinishPasses.finishLoop_eq (h : FinishPasses t eos cap0 en en') {passes : Nat}
    (hp : en.validBits.toNat ≤ passes) : ∃ left, en'.validBits.toNat ≤ left ∧
      finishLoop t eos cap0 passes en = finishLoop t eos cap0 left en' := by
  induction h using Relation.ReflTransGen.head_induction_on generalizing passes with
  | refl => exact ⟨passes, hp, rfl⟩
  | head hpass _ ih =>
    obtain ⟨passes, rfl⟩ : ∃ n, passes = n + 1 := ⟨passes - 1, by have := (hpass.finishLoop_eq 0).1; omega⟩
    obtain ⟨hlt, heq⟩ := hpass.finishLoop_eq passes
    rw [heq]
    exact ih (by omega)

/-- Where the passes lead to an engine at which the loop stops, the loop of FINISH ends with it. -/
theorem FinishPasses.finishLoop_eq_ok (h : FinishPasses t eos cap0 en en') (hstop : finishStops t en') :
    finishLoop t eos cap0 en.validBits.toNat en = .ok en' := by
  obtain ⟨left, -, hloop⟩ := h.finishLoop_eq (Nat.le_refl _)
  exact hloop.trans (finishLoop_of_stops left hstop)

end

/-- Settles O24: the passes are those of the loop, and the Padding Validator accepts what they leave. -/
theorem finishCompletes : Obligations.FinishCompletes := by
  unfold Obligations.FinishCompletes
  intro s e en en' ha hb hst hpasses hstop h7 hones
  have hpad : paddingValid en' = true := (paddingValid_iff en').2 ⟨h7, hones⟩
  have hrun := execFinish_of_ok ha hb hst (hpasses.finishLoop_eq_ok hstop)
  rw [if_pos hpad, setEngine_respond_eq_answered ha] at hrun
  exact hrun

/-- Settles O25: the passes are those of the loop, and the Padding Validator rejects what they leave. -/
theorem finishRaisesInvalidPadding : Obligations.FinishRaisesInvalidPadding := by
  unfold Obligations.FinishRaisesInvalidPadding
  intro s e en en' ha hb hst hpasses hstop hbad
  have hpad : ¬ paddingValid en' = true := by
    rw [paddingValid_iff]
    rintro ⟨h7, hones⟩
    rcases hbad with hlong | ⟨i, hi, hzero⟩
    · omega
    · exact Bool.false_ne_true (hzero.symm.trans (hones i hi))
  have hrun := execFinish_of_ok ha hb hst (hpasses.finishLoop_eq_ok hstop)
  rw [if_neg hpad] at hrun
  exact ⟨_, hrun, faultEntered_raiseEngineFault ha .invalidPadding⟩

/-- Settles O26: the passes are those of the loop, and one is left for the lookup of the terminal. -/
theorem finishRaisesEosDecoded : Obligations.FinishRaisesEosDecoded := by
  unfold Obligations.FinishRaisesEosDecoded
  intro s e en en' c k ha hb hst hpasses hc hk hfit
  obtain ⟨left, hleft, hloop⟩ := hpasses.finishLoop_eq (Nat.le_refl _)
  obtain ⟨left, rfl⟩ : ∃ n, left = n + 1 := ⟨left - 1, by omega⟩
  have hraise := hloop.trans ((finishLoop_of_terminal hc hk hfit left).trans (if_pos rfl))
  exact ⟨_, execFinish_of_raise ha hb hst hraise, faultEntered_raiseEngineFault ha .eosDecoded⟩

/-- FINISH's loop appends at most one byte in each pass. -/
theorem appendedAtMost_of_finishLoop {t : Tree} {eos : Symbol} {cap0 passes : Nat} {en en' : Engine}
    (h : finishLoop t eos cap0 passes en = .ok en') : AppendedAtMost passes en en' := by
  induction passes generalizing en with
  | zero =>
    cases h
    exact appendedAtMost_refl 0 _
  | succ passes ih =>
    rw [finishLoop_succ] at h
    split at h
    · split at h
      · cases h
      · cases h
        exact appendedAtMost_refl _ _
      · rename_i c hd _
        split at h
        · split at h
          · cases h
          · exact (ih h).of_emit (en := en.consume hd.bits)
        · cases h
          exact appendedAtMost_refl _ _
    · cases h
      exact appendedAtMost_refl _ _

/-- Settles O27: FINISH answers `OK` with the engine that its loop, of as many passes as valid bits, leaves. -/
theorem finishFrame : Obligations.FinishFrame := by
  unfold Obligations.FinishFrame
  intro s t e en ha ht hr
  obtain ⟨x, en', hx, hl, rfl⟩ := execFinish_ok ha.1 (congrArg (Option.map Prod.snd) hr) ht
  cases ha.2.symm.trans hx
  obtain ⟨hacc, -, hft, hkey⟩ := finishLoop_keeps hl
  obtain ⟨hle, hbits, hread⟩ := appendedAtMost_of_finishLoop hl
  exact ⟨en'.complete, setEngine_respond_eq_answered ha en'.complete .ok, rfl, hft, hacc, hle, hbits,
    fun a ha => ⟨hread a ha, Engine.outByte_congr (en' := en'.complete) hkey (hread a ha)⟩⟩

end Sys2Proof.Safety
end

section
/-! SUPPORT. The bits FINISH fills in on the right cannot be observed (42_engine_finish.md R142 a): a terminal that fits
in the remaining bits stands in every slot that begins with them, so any fill reaches it or none does. -/

namespace Sys2Proof.Safety

open Sys2Proof.Machine

section
variable {t : Tree} {path : List Byte} {n : Nat}

/-- At a node on a path of a tree that holds codes every lookup answers. -/
theorem HoldsCodes.exists_lookup {entries : List TableEntry} (h : HoldsCodes entries t) (hn : walk t path = some n)
    (s : Byte) : ∃ l, Tree.lookup t n s = .ok l := by
  obtain ⟨slots, hslots⟩ := isInternal_of_walk hn
  have hchild : Tree.child t n s = .ok (Memory.read slots s.toNat) :=
    (Tree.child_ok_iff _ _ _ _).2 ⟨slots, hslots, rfl⟩
  cases hr : Memory.read slots s.toNat with
  | none => exact ⟨.empty, (Tree.lookup_empty_iff _ _ _).2 (hr ▸ hchild)⟩
  | some c =>
    rw [hr] at hchild
    have hx := List.getElem?_eq_getElem (h.only.occupant path n s c hn hchild).lt_length
    exact ⟨_, (Tree.lookup_node_iff _ _ _ _ _).2 ⟨hchild, (Tree.header_ok_iff _ _ _).2 ⟨_, hx, rfl⟩⟩⟩

variable {p : Parameters} {v : Nat} {s s' : Byte} {l l' : Lookup} (hp : p.tableWellFormed = true)
  (ht : buildTree p.table = .ok t) (hn : walk t path = some n) (h1 : 1 ≤ v) (h7 : v ≤ 7)
  (hl : Tree.lookup t n s = .ok l) (hl' : Tree.lookup t n s' = .ok l')
include hp ht hn h1 h7 hl hl'

/-- A header that fits in the `v` bits a slot begins with is reached from every slot that begins with them. -/
theorem fittingHeader_of_agree {h : NodeHeader} (hss : s.toNat / 2 ^ (8 - v) = s'.toNat / 2 ^ (8 - v))
    (hfit : fittingHeader v l = some h) : fittingHeader v l' = some h := by
  obtain ⟨⟨c, rfl⟩, hkind, hbits⟩ := fittingHeader_eq_some_iff.1 hfit
  obtain ⟨hc, hh⟩ := (Tree.lookup_node_iff t n s c h).1 hl
  obtain ⟨x, hx, rfl⟩ := (Tree.header_ok_iff t c h).1 hh
  cases x with
  | internal slots => cases hkind
  | terminal sym k =>
    rw [Node.header_terminal, terminalBits_toNat] at hbits
    have hc' := fittingTerminalStandsInEverySlot p t path n c v s s' sym k hp ht hn h1 h7 hss hc hx hbits
    cases hl'.symm.trans ((Tree.lookup_node_iff t n s' c _).2 ⟨hc', hh⟩)
    exact hfit

/-- Lookups in slots that begin with the same `v` bits reach the same fitting header, or both none. -/
theorem fittingHeader_congr (hss : s.toNat / 2 ^ (8 - v) = s'.toNat / 2 ^ (8 - v)) :
    fittingHeader v l = fittingHeader v l' :=
  Option.ext fun _ => ⟨fittingHeader_of_agree hp ht hn h1 h7 hl hl' hss,
    fittingHeader_of_agree hp ht hn h1 h7 hl' hl hss.symm⟩

end

/-- Whatever is filled in on the right, the slot begins with the remaining bits. -/
theorem filledSlot_div_eq (fill : Nat) {en : Engine} (h : en.validBits.toNat ≤ 7) :
    (finishSlot en).toNat / 2 ^ (8 - en.validBits.toNat) =
      (filledSlot fill en).toNat / 2 ^ (8 - en.validBits.toNat) := by
  have h256 : 2 ^ 8 = 2 ^ (8 - en.validBits.toNat) * 2 ^ en.validBits.toNat := by
    rw [← Nat.pow_add, Nat.sub_add_cancel (by omega)]
  have hpos : 0 < 2 ^ (8 - en.validBits.toNat) := by positivity
  rw [finishSlot, lowByte, filledSlot, BitVec.toNat_ofNat, BitVec.toNat_ofNat, Nat.shiftLeft_eq, h256,
    Nat.mod_mul_right_div_self, Nat.mod_mul_right_div_self, Nat.mul_div_cancel _ hpos, Nat.mul_comm en.acc.toNat,
    Nat.mul_add_div hpos, Nat.div_eq_of_lt (Nat.mod_lt fill hpos), Nat.add_zero]

/-- One pass of the loop with any fill bits where its lookup answers: it turns on the fitting header alone. -/
theorem finishLoopFilled_of_lookup {fill : Engine → Nat} {t : Tree} {eos : Symbol} {cap0 : Nat} {en : Engine}
    {l : Lookup} (hv : 0 < en.validBits.toNat) (hl : Tree.lookup t en.node (filledSlot (fill en) en) = .ok l)
    (passes : Nat) :
    finishLoopFilled fill t eos cap0 (passes + 1) en =
      (fittingHeader en.validBits.toNat l).elim (.ok en) fun h =>
        if h.symbol = eos then .raise .eosDecoded
        else finishLoopFilled fill t eos cap0 passes (symbolCompleted cap0 h.symbol h.bits.toNat en) := by
  rw [finishLoopFilled, if_neg (Nat.ne_of_gt hv), hl]
  cases l with
  | empty => rfl
  | node c h => simp only [fittingHeader_node_elim]

/-- On a built tree FINISH's loop ends as it does with any fill bits: every pass turns on the same header. -/
theorem finishLoop_eq_filled (fill : Engine → Nat) {p : Parameters} {t : Tree} (hp : p.tableWellFormed = true)
    (ht : buildTree p.table = .ok t) (eos : Symbol) (cap0 passes : Nat) {en : Engine} {path : List Byte}
    (hn : walk t path = some en.node) (h7 : en.validBits.toNat ≤ 7) :
    finishLoop t eos cap0 passes en = finishLoopFilled fill t eos cap0 passes en := by
  have hold := holdsCodes_of_buildTree hp ht
  induction passes generalizing en path with
  | zero => rfl
  | succ passes ih =>
    by_cases hv : 0 < en.validBits.toNat
    · obtain ⟨l, hl⟩ := hold.exists_lookup hn (finishSlot en)
      obtain ⟨l', hl'⟩ := hold.exists_lookup hn (filledSlot (fill en) en)
      have hsame := fittingHeader_congr hp ht hn hv h7 hl hl' (filledSlot_div_eq (fill en) h7)
      rw [finishLoop_of_lookup hv hl, finishLoopFilled_of_lookup hv hl', ← hsame]
      cases hfit : fittingHeader en.validBits.toNat l with
      | none => rfl
      | some h =>
        obtain ⟨-, -, hbits⟩ := fittingHeader_eq_some_iff.1 hfit
        simp only [Option.elim_some]
        rw [symbolCompleted_eq_emit cap0 h.symbol hbits]
        refine if_congr Iff.rfl rfl (ih (path := []) ((walk_nil t 0).2 ⟨rfl, hold.only.rootInternal⟩) ?_)
        rw [Engine.emit_validBits, Engine.consume_validBits_toNat hbits]
        omega
    · rw [finishLoop_succ, if_neg hv, finishLoopFilled, if_pos (Nat.eq_zero_of_not_pos hv)]

/-- Settles O29: the loop of FINISH and the loop with other fill bits end alike, and what follows is the same. -/
theorem finishFillUnobservable : Obligations.FinishFillUnobservable := by
  unfold Obligations.FinishFillUnobservable
  intro fill s e en h ha hb hst
  obtain ⟨hp, ht⟩ := h.treeIsBuilt hb
  obtain ⟨-, h7, d, -, hat, -⟩ := (h.engineOk e en ha.2).live hst
  obtain ⟨path, hn⟩ := exists_walk_of_atDepth hat
  have hloop := finishLoop_eq_filled fill hp ht s.params.eosSym (s.cap0 e) en.validBits.toNat hn h7
  rw [exec, finishFilled, ← hloop]
  cases hl : finishLoop s.tree s.params.eosSym (s.cap0 e) en.validBits.toNat en with
  | ok en' =>
    rw [execFinish_of_ok ha hb hst hl, setEngine_respond_eq_answered ha, apply_ite Host.Outcome.next]
    rfl
  | raise k => exact execFinish_of_raise ha hb hst hl
  | stop f => exact execFinish_of_stop ha hb hst hl

end Sys2Proof.Safety
end

section
/-! SUPPORT. The reference semantics of DECODE (43_decode_sequence.md R164) on bit strings, one code at a time, and its
answer where no code is complete. -/

namespace Sys2Proof.Safety

open Sys2Proof.Machine

section
variable {table : List TableEntry} {x y : TableEntry} {bits : List Bool}

/-- In a table that satisfies 40_tree_builder.md R105 an entry whose code begins another's is that entry. -/
theorem eq_of_code_prefix (h : prefixFree table) (hx : x ∈ table) (hy : y ∈ table)
    (hxy : codeBits x <+: codeBits y) : x = y := by
  by_contra hne
  have hsymm : Std.Symm fun x y : TableEntry => ¬ codeBits x <+: codeBits y ∧ ¬ codeBits y <+: codeBits x :=
    ⟨fun _ _ => And.symm⟩
  exact (h.forall hx hy hne).1 hxy

/-- At most one code begins a bit string. -/
theorem eq_of_codes_prefix (h : prefixFree table) (hx : x ∈ table) (hy : y ∈ table) (hxb : codeBits x <+: bits)
    (hyb : codeBits y <+: bits) : x = y := by
  rcases List.prefix_or_prefix_of_prefix hxb hyb with hxy | hyx
  · exact eq_of_code_prefix h hx hy hxy
  · exact (eq_of_code_prefix h hy hx hyx).symm

/-- The entry found is the one whose code begins the bits. -/
theorem entryAt_eq_some (h : prefixFree table) (hx : x ∈ table) (hxb : codeBits x <+: bits) :
    entryAt table bits = some x := by
  cases hfind : entryAt table bits with
  | none => simpa [hxb] using List.find?_eq_none.1 hfind x hx
  | some y =>
    have hyb : codeBits y <+: bits := by simpa using List.find?_some hfind
    rw [eq_of_codes_prefix h hx (List.mem_of_find?_eq_some hfind) hxb hyb]

/-- No entry is found where no code begins the bits. -/
theorem entryAt_eq_none (h : ∀ x ∈ table, ¬ codeBits x <+: bits) : entryAt table bits = none :=
  List.find?_eq_none.2 fun x hx => by simpa using h x hx

/-- Bits begin a code where some entry's code begins with them. -/
theorem beginsCode_iff : beginsCode table bits = true ↔ ∃ x ∈ table, bits <+: codeBits x := by
  simp [beginsCode]

/-- What begins a bit string that begins a code begins that code. -/
theorem beginsCode_of_prefix {bits' : List Bool} (h : bits' <+: bits) (hb : beginsCode table bits = true) :
    beginsCode table bits' = true := by
  obtain ⟨x, hx, hxb⟩ := beginsCode_iff.1 hb
  exact beginsCode_iff.2 ⟨x, hx, h.trans hxb⟩

/-- The agreement is at least any number of bits that begin a code. -/
theorem le_agreement {m n : Nat} (hmn : m ≤ n) (h : beginsCode table (bits.take m) = true) :
    m ≤ agreement table bits n := by
  induction n with
  | zero => exact hmn
  | succ n ih =>
    rw [agreement]
    split
    · exact hmn
    · rcases Nat.eq_or_lt_of_le hmn with rfl | hlt
      · contradiction
      · exact ih (Nat.le_of_lt_succ hlt)

/-- The agreement is less than any positive number of bits that begin no code. -/
theorem agreement_lt {m n : Nat} (hm : 0 < m) (h : beginsCode table (bits.take m) = false) :
    agreement table bits n < m := by
  induction n with
  | zero => exact hm
  | succ n ih =>
    rw [agreement]
    split
    · rename_i hn
      by_contra hle
      have hmn := beginsCode_of_prefix (List.take_prefix_take_left (l := bits) (Nat.le_of_not_lt hle)) hn
      exact Bool.false_ne_true (h.symm.trans hmn)
    · exact ih

/-- Bits that leave the codes within their first `d + 1` whole bytes leave the tree in a lookup of INGEST. -/
theorem judgeRemainder_of_left {d : Nat} (h : beginsCode table (bits.take (8 * (d + 1))) = false)
    (hd : 8 * (d + 1) ≤ bits.length) (out : List Byte) : judgeRemainder table bits out = .failed .emptySlot := by
  have hagree : agreement table bits bits.length < 8 * (d + 1) := agreement_lt (Nat.succ_pos _) h
  have hbits : beginsCode table bits = false := by
    by_contra hb
    rw [beginsCode_of_prefix (List.take_prefix _ _) (Bool.eq_true_of_not_eq_false hb)] at h
    cases h
  exact if_pos ⟨hbits, List.ne_nil_of_length_pos (by omega), by omega⟩

/-- Bits that agree with a code up to their last, unfinished byte are judged by the padding rule. -/
theorem judgeRemainder_of_inside {m : Nat} (h : beginsCode table (bits.take m) = true) (hm : m ≤ bits.length)
    (hlast : bits.length < 8 * (m / 8) + 8) (out : List Byte) :
    judgeRemainder table bits out = if paddingBits bits then .output out else .failed .invalidPadding := by
  have hagree : m ≤ agreement table bits bits.length := le_agreement hm h
  exact if_neg fun ⟨_, _, hle⟩ => by omega

end

/-- The reference semantics answers `r` where `bits` follow the output `out`, with a step for each bit at least. -/
def ReferenceAnswers (p : Parameters) (bits : List Bool) (out : List Byte) (r : DecodeResult) : Prop :=
  ∃ n, bits.length ≤ n ∧ referenceBits p n bits out = r

/-- The reference semantics of DECODE answers on the stream's bits, with no output before them. -/
theorem referenceAnswers_decode (p : Parameters) (bytes : List Byte) :
    ReferenceAnswers p (streamBits bytes) [] (referenceDecode p bytes) :=
  ⟨_, Nat.le_of_eq (length_streamBits bytes), rfl⟩

section
variable {p : Parameters} {x : TableEntry} {bits : List Bool} {out : List Byte} {r : DecodeResult}

/-- Where no code begins the bits they are the remainder. -/
theorem ReferenceAnswers.eq_judgeRemainder (h : ReferenceAnswers p bits out r)
    (hnone : ∀ x ∈ p.table, ¬ codeBits x <+: bits) : r = judgeRemainder p.table bits out := by
  obtain ⟨n, -, rfl⟩ := h
  cases n with
  | zero => rfl
  | succ n => rw [referenceBits, entryAt_eq_none hnone]

variable (hok : TableOk p) (hfree : prefixFree p.table) (hx : x ∈ p.table)
include hok hfree hx

/-- Where a code begins the bits, the answer is that of the code's symbol. -/
theorem ReferenceAnswers.of_code (h : ReferenceAnswers p (codeBits x ++ bits) out r) :
    if x.symbol = p.eosSym then r = .failed .eosDecoded
    else ReferenceAnswers p bits (out ++ [outputByte x.symbol]) r := by
  obtain ⟨n, hn, rfl⟩ := h
  have hpos := (hok.wLen x hx).1
  rw [List.length_append, length_codeBits] at hn
  obtain ⟨n, rfl⟩ : ∃ m, n = m + 1 := ⟨n - 1, by omega⟩
  have hstep : referenceBits p (n + 1) (codeBits x ++ bits) out = if x.symbol = p.eosSym then .failed .eosDecoded
      else referenceBits p n bits (out ++ [outputByte x.symbol]) := by
    simp only [referenceBits, entryAt_eq_some hfree hx (List.prefix_append _ _), List.drop_left' (length_codeBits x)]
  rw [hstep]
  split
  · rfl
  · exact ⟨n, by omega, rfl⟩

/-- The EOS code ends the decode. -/
theorem ReferenceAnswers.eq_eosDecoded (h : ReferenceAnswers p (codeBits x ++ bits) out r)
    (heos : x.symbol = p.eosSym) : r = .failed .eosDecoded := by
  simpa only [if_pos heos] using h.of_code hok hfree hx

/-- Any other code gives its symbol. -/
theorem ReferenceAnswers.of_symbol (h : ReferenceAnswers p (codeBits x ++ bits) out r)
    (hne : x.symbol ≠ p.eosSym) : ReferenceAnswers p bits (out ++ [outputByte x.symbol]) r := by
  simpa only [if_neg hne] using h.of_code hok hfree hx

end

end Sys2Proof.Safety
end

section
/-! SUPPORT. What a lookup in a built tree says of the table's codes (40_tree_builder.md R107): where the path and the
slot lead to an internal node they lie within a code, at a terminal a code begins them, and an empty slot agrees with
no code. -/

namespace Sys2Proof.Safety

open Sys2Proof.Machine

/-- `t` holds the codes of the table of `p`, which is well-formed and satisfies 40_tree_builder.md R105. -/
structure TreeOf (p : Parameters) (t : Tree) : Prop where
  table : TableOk p
  prefixFree : prefixFree p.table
  codes : HoldsCodes p.table t

/-- The tree of a block that meets the invariant holds the codes of its table. -/
theorem Inv.treeOf {s : State} (h : Inv s) (hb : s.treeState = .built) : TreeOf s.params s.tree := by
  obtain ⟨hwf, htree⟩ := h.treeIsBuilt hb
  have hold := holdsCodes_of_buildTree hwf htree
  exact ⟨tableOk_of_tableWellFormed hwf, hold.prefixFree (symbols_nodup_of_tableWellFormed hwf), hold⟩

/-- A terminal in a slot is that of an entry whose code is the way there with `bits` bits of the slot. -/
theorem HoldsCodes.exists_code_of_terminal {entries : List TableEntry} {t : Tree} (h : HoldsCodes entries t)
    {path : List Byte} {n c : Nat} {s : Byte} {sym : Symbol} {k : Fin 8} (hn : walk t path = some n)
    (hc : Tree.child t n s = .ok (some c)) (hk : t[c]? = some (.terminal sym k)) :
    ∃ x ∈ entries, x.symbol = sym ∧ x.length.toNat = 8 * path.length + (k.val + 1) ∧
      codeBits x <+: streamBits (path ++ [s]) := by
  rcases h.only.occupant path n s c hn hc with ⟨x, hx, ⟨j, hj⟩, hlen, hxs⟩ | ⟨hi, -⟩
  · obtain ⟨q, m, d, i, hq, hqlen, hqx, hd, hi, hslots⟩ := h.placed x hx
    have hpath : streamBits q <+: streamBits (path ++ [s]) := hqx.trans hxs
    cases path_eq_of_prefix hpath (streamBits_snoc path s ▸ List.prefix_append _ _) (hqlen.trans hlen.symm)
    cases hn.symm.trans hq
    cases hc.symm.trans (hslots s hxs)
    cases hk.symm.trans hd
    have hle : 8 * path.length ≤ x.length.toNat := by simpa using hqx.length_le
    exact ⟨x, hx, rfl, by omega, hxs⟩
  · exact absurd hi (not_isInternal_of_terminal hk)

/-- What the lookup of the slot `s` at the node of `path` says of the codes of the table. -/
inductive LookupSays (table : List TableEntry) (t : Tree) (path : List Byte) (s : Byte) : Lookup → Prop where
  | empty : (∀ x ∈ table, ¬ codeBits x <+: streamBits (path ++ [s])) →
      beginsCode table (streamBits (path ++ [s])) = false → LookupSays table t path s .empty
  | internal (c : Nat) (h : NodeHeader) : h.kind = .internal → h.bits = 8#4 → walk t (path ++ [s]) = some c →
      LookupSays table t path s (.node c h)
  | terminal (c : Nat) (h : NodeHeader) (x : TableEntry) : h.kind = .terminal → x ∈ table → x.symbol = h.symbol →
      x.length.toNat = 8 * path.length + h.bits.toNat → codeBits x <+: streamBits (path ++ [s]) →
      LookupSays table t path s (.node c h)

section
variable {p : Parameters} {t : Tree} (ht : TreeOf p t) {path : List Byte} {n : Nat} (hn : walk t path = some n)
include ht hn

/-- The way to an internal node lies within a code that is longer. -/
theorem TreeOf.path_within_code :
    ∃ x ∈ p.table, 8 * path.length < x.length.toNat ∧ streamBits path <+: codeBits x := by
  cases path using List.reverseRecOn with
  | nil =>
    obtain ⟨x, hx, -⟩ := ht.table.wEos
    exact ⟨x, hx, (ht.table.wLen x hx).1, List.nil_prefix⟩
  | append_singleton q s =>
    obtain ⟨m, hm, hc, hi⟩ := (walk_snoc t q s n).1 hn
    rcases ht.codes.only.occupant q m s n hm hc with ⟨_, -, ⟨k, hk⟩, -⟩ | ⟨-, x, hx, hlt, hpre⟩
    · exact absurd hi (not_isInternal_of_terminal hk)
    · exact ⟨x, hx, by simpa using hlt, hpre⟩

/-- The way to an internal node begins a code. -/
theorem TreeOf.beginsCode_path : beginsCode p.table (streamBits path) = true := by
  obtain ⟨x, hx, -, hpre⟩ := ht.path_within_code hn
  exact beginsCode_iff.2 ⟨x, hx, hpre⟩

/-- No code begins the way to an internal node. -/
theorem TreeOf.not_code_prefix_path {x : TableEntry} (hx : x ∈ p.table) : ¬ codeBits x <+: streamBits path := by
  intro hxp
  obtain ⟨y, hy, hlt, hpre⟩ := ht.path_within_code hn
  have hxy : x = y := eq_of_code_prefix ht.prefixFree hx hy (hxp.trans hpre)
  have hle := hxp.length_le
  rw [length_codeBits, length_streamBits, hxy] at hle
  omega

/-- What a lookup says of the codes, case by case. -/
theorem TreeOf.lookupSays {s : Byte} {l : Lookup} (hl : Tree.lookup t n s = .ok l) :
    LookupSays p.table t path s l := by
  cases l with
  | empty =>
    have hempty := (Tree.lookup_empty_iff t n s).1 hl
    refine .empty (fun x hx hxs => ?_) (Bool.eq_false_iff.2 fun hbegins => ?_)
    · obtain ⟨c, hc⟩ := ht.codes.child_of_code_prefix hn hx hxs
      cases hempty.symm.trans hc
    · obtain ⟨x, hx, hsx⟩ := beginsCode_iff.1 hbegins
      obtain ⟨c, hc⟩ := ht.codes.child_of_prefix_code hn hx hsx
      cases hempty.symm.trans hc
  | node c h =>
    obtain ⟨hc, hh⟩ := (Tree.lookup_node_iff t n s c h).1 hl
    obtain ⟨node, hnode, rfl⟩ := (Tree.header_ok_iff t c h).1 hh
    cases node with
    | internal slots => exact .internal c _ rfl rfl ((walk_snoc t path s c).2 ⟨n, hn, hc, slots, hnode⟩)
    | terminal sym k =>
      obtain ⟨x, hx, hsym, hlen, hxs⟩ := ht.codes.exists_code_of_terminal hn hc hnode
      exact .terminal c _ x rfl hx hsym (by rwa [Node.header_terminal, terminalBits_toNat]) hxs

end

end Sys2Proof.Safety
end

section
/-! SUPPORT. The registers of an engine as bits of the stream (10_state.md R21 to R25): the valid bits of `acc`, and what
the slots of INGEST and FINISH (20_memory.md R55) are of them. -/

namespace Sys2Proof.Safety

open Sys2Proof.Machine

/-- The bits an engine holds that no lookup has taken: the valid bits of `acc`, oldest first. -/
def heldBits (en : Engine) : List Bool := natBits en.acc.toNat en.validBits.toNat

@[simp] theorem length_heldBits (en : Engine) : (heldBits en).length = en.validBits.toNat := length_natBits _ _

section
variable {en : Engine}

/-- No bit is held where none is valid. -/
theorem heldBits_eq_nil (h : en.validBits.toNat = 0) : heldBits en = [] :=
  List.length_eq_zero_iff.1 ((length_heldBits en).trans h)

/-- INGEST's first step puts the byte's bits behind those held. -/
theorem heldBits_shiftIn (b : Byte) (h7 : en.validBits.toNat ≤ 7) :
    heldBits (en.shiftIn b) = heldBits en ++ byteBits b := by
  have hlow : (en.acc.toNat * 256 + b.toNat) % 65536 / 2 ^ 8 % 2 ^ 8 = en.acc.toNat % 2 ^ 8 := by
    have := b.isLt
    omega
  have hdvd : 2 ^ en.validBits.toNat ∣ 2 ^ 8 := Nat.pow_dvd_pow 2 (by omega)
  rw [heldBits, shiftIn_validBits_toNat b h7, natBits_add, shiftIn_acc_toNat, heldBits, byteBits_eq_natBits]
  congr 1
  · rw [natBits_eq_iff, ← Nat.mod_mod_of_dvd _ hdvd, hlow, Nat.mod_mod_of_dvd _ hdvd]
  · rw [natBits_eq_iff]
    omega

/-- Taking bits takes the oldest. -/
theorem drop_heldBits {bits : BitVec 4} (h : bits.toNat ≤ en.validBits.toNat) :
    (heldBits en).drop bits.toNat = heldBits (en.consume bits) := by
  obtain ⟨w, hw⟩ := Nat.le.dest h
  rw [heldBits, heldBits, Engine.consume_validBits_toNat h, ← hw, natBits_add, List.drop_left' (length_natBits _ _),
    Nat.add_sub_cancel_left, Engine.consume_acc]

/-- The slot INGEST looks up is the oldest 8 bits held (20_memory.md R55). -/
theorem heldBits_eq_ingestSlot_append (h8 : 8 ≤ en.validBits.toNat) :
    heldBits en = byteBits (ingestSlot en) ++ heldBits (en.consume 8#4) := by
  have hslot : byteBits (ingestSlot en) = natBits (en.acc.toNat / 2 ^ (en.validBits.toNat - 8)) 8 := by
    rw [ingestSlot, byteBits_lowByte, Nat.shiftRight_eq_div_pow]
  have hrest : heldBits (en.consume 8#4) = natBits en.acc.toNat (en.validBits.toNat - 8) := by
    rw [heldBits, Engine.consume_validBits_toNat (bits := 8#4) h8]
    rfl
  rw [hslot, hrest, ← natBits_add, Nat.add_sub_cancel' h8, heldBits]

/-- The slot FINISH looks up begins with the bits held (20_memory.md R55). -/
theorem heldBits_prefix_finishSlot (h : en.validBits.toNat ≤ 8) : heldBits en <+: byteBits (finishSlot en) := by
  have hslot : byteBits (finishSlot en) =
      natBits (en.acc.toNat <<< (8 - en.validBits.toNat)) (en.validBits.toNat + (8 - en.validBits.toNat)) := by
    rw [finishSlot, byteBits_lowByte, Nat.add_sub_cancel' h]
  rw [hslot, natBits_add, Nat.shiftLeft_eq, Nat.mul_div_cancel _ (by positivity)]
  exact List.prefix_append _ _

/-- The bits held are all 1 where the valid bits of `acc` are. -/
theorem all_heldBits_iff : (heldBits en).all id = true ↔ ∀ i, i < en.validBits.toNat → en.acc.getLsbD i = true := by
  simp only [heldBits, natBits, List.all_map, List.all_eq_true, List.mem_range, Function.comp_apply, id_eq,
    BitVec.testBit_toNat]
  constructor
  · intro h i hi
    have := h (en.validBits.toNat - 1 - i) (by omega)
    rwa [show en.validBits.toNat - 1 - (en.validBits.toNat - 1 - i) = i by omega] at this
  · intro h i hi
    exact h _ (by omega)

end

/-- The Host reads the bytes that an engine's buffer holds. -/
theorem HoldsBytes.outBytes_eq {cap0 : Nat} {bytes : List Byte} {en : Engine} (h : HoldsBytes cap0 bytes en) :
    en.outBytes en.outLen = bytes := by
  refine List.ext_getElem? fun i => ?_
  rw [Engine.outBytes_getElem?, h.length]
  split
  · have hread := (h.read i).trans (List.getElem?_eq_getElem ‹i < bytes.length›)
    rw [Engine.outByte_of_written hread, List.getElem?_eq_getElem ‹i < bytes.length›]
  · rw [List.getElem?_eq_none (Nat.le_of_not_lt ‹_›)]

/-- What an engine's buffer holds is in OUT, `out_len` and `out_cap` alone. -/
theorem HoldsBytes.congr {cap0 : Nat} {bytes : List Byte} {en en' : Engine} (h : HoldsBytes cap0 bytes en)
    (ho : en'.out = en.out) (hl : en'.outLen = en.outLen) (hc : en'.outCap = en.outCap) : HoldsBytes cap0 bytes en' :=
  ⟨hl.trans h.length, hc.trans h.capacity, fun i => by rw [ho, h.read]⟩

/-- A completed symbol appends its byte (41_engine_ingest.md R128). -/
theorem HoldsBytes.emit {cap0 : Nat} {bytes : List Byte} {en : Engine} (h : HoldsBytes cap0 bytes en)
    (hcap : 1 ≤ cap0) (sym : Symbol) : HoldsBytes cap0 (bytes ++ [outputByte sym]) (en.emit cap0 sym) :=
  (h.append hcap (outputByte sym)).congr rfl rfl rfl

end Sys2Proof.Safety
end

section
/-! SUPPORT. DECODE computes the reference semantics (43_decode_sequence.md R164): between passes of the loops the bits
of the path to `node`, those held and those to come are what the reference semantics has yet to answer on. -/

namespace Sys2Proof.Safety

open Sys2Proof.Machine

/-- A decode in flight that the reference semantics answers with `r`: the engine has gone the `path` since the last
symbol, holds the output `out`, and the stream has the bits `later` after those it holds. -/
structure InFlight (p : Parameters) (t : Tree) (cap0 : Nat) (later : List Bool) (r : DecodeResult) (path : List Byte)
    (out : List Byte) (en : Engine) : Prop where
  active : en.status = .active
  walk : walk t path = some en.node
  output : HoldsBytes cap0 out en
  symBits : en.symBits.toNat = en.validBits.toNat + 8 * path.length
  answer : ReferenceAnswers p (streamBits path ++ heldBits en ++ later) out r

/-- RESET starts the decode of the stream to come. -/
theorem inFlight_restart {p : Parameters} {t : Tree} (hroot : isInternal t 0) {cap0 : Nat} (hcap : 1 ≤ cap0)
    {later : List Bool} {r : DecodeResult} (h : ReferenceAnswers p later [] r) (en : Engine) :
    InFlight p t cap0 later r [] [] (en.restart cap0) where
  active := rfl
  walk := (walk_nil t 0).2 ⟨rfl, hroot⟩
  output := holdsBytes_restart hcap en
  symBits := rfl
  answer := h

section
variable {p : Parameters} {t : Tree} (ht : TreeOf p t) {cap0 : Nat} (hcap : 1 ≤ cap0) {later : List Bool}
  {r : DecodeResult} {path out : List Byte} {en : Engine}

/-- INGEST's first step takes a byte of the stream. -/
theorem InFlight.shiftIn {b : Byte} (h : InFlight p t cap0 (byteBits b ++ later) r path out en)
    (hdepth : path.length ≤ 3) (h7 : en.validBits.toNat ≤ 7) : InFlight p t cap0 later r path out (en.shiftIn b) where
  active := h.active
  walk := h.walk
  output := h.output.congr rfl rfl rfl
  symBits := by
    rw [shiftIn_validBits_toNat b h7, Engine.shiftIn_symBits, BitVec.toNat_add, h.symBits, BitVec.toNat_ofNat]
    omega
  answer := by
    rw [heldBits_shiftIn b h7]
    simpa using h.answer

/-- A step to an internal node takes 8 bits of those held into the path. -/
theorem InFlight.descend (h : InFlight p t cap0 later r path out en) (h8 : 8 ≤ en.validBits.toNat) {c : Nat}
    (hc : Safety.walk t (path ++ [ingestSlot en]) = some c) :
    InFlight p t cap0 later r (path ++ [ingestSlot en]) out { en.consume 8#4 with node := c } where
  active := h.active
  walk := hc
  output := h.output.congr rfl rfl rfl
  symBits := by
    have hbits : (en.consume 8#4).validBits.toNat = en.validBits.toNat - 8 := Engine.consume_validBits_toNat h8
    simp only [Engine.consume_symBits, hbits, h.symBits, List.length_append, List.length_singleton]
    omega
  answer := by
    have hanswer := h.answer
    rw [heldBits_eq_ingestSlot_append h8, ← List.append_assoc, ← streamBits_snoc] at hanswer
    exact hanswer

section
variable {x : TableEntry} {bits : BitVec 4} (hx : x ∈ p.table) (hbits : bits.toNat ≤ en.validBits.toNat)
  (hlen : x.length.toNat = 8 * path.length + bits.toNat) (hpre : codeBits x <+: streamBits path ++ heldBits en)
include hbits hlen hpre

/-- Where a code begins the path and the bits held, what follows the code is what is held after taking its bits. -/
theorem streamBits_append_heldBits_eq : streamBits path ++ heldBits en = codeBits x ++ heldBits (en.consume bits) := by
  rw [← List.prefix_iff_eq_append.1 hpre, length_codeBits, hlen, ← length_streamBits,
    List.drop_length_add_append, drop_heldBits hbits]

include ht hx

/-- At the EOS code the reference semantics answers `EOS_DECODED`. -/
theorem InFlight.eq_eosDecoded (h : InFlight p t cap0 later r path out en) (heos : x.symbol = p.eosSym) :
    r = .failed .eosDecoded := by
  have hanswer := h.answer
  rw [streamBits_append_heldBits_eq hbits hlen hpre, List.append_assoc] at hanswer
  exact hanswer.eq_eosDecoded ht.table ht.prefixFree hx heos

include hcap

/-- At any other code the engine completes the symbol that the reference semantics does. -/
theorem InFlight.emit (h : InFlight p t cap0 later r path out en) (hne : x.symbol ≠ p.eosSym) :
    InFlight p t cap0 later r [] (out ++ [outputByte x.symbol]) ((en.consume bits).emit cap0 x.symbol) where
  active := h.active
  walk := (walk_nil t 0).2 ⟨rfl, ht.codes.only.rootInternal⟩
  output := (h.output.congr (en' := en.consume bits) rfl rfl rfl).emit hcap x.symbol
  symBits := by
    rw [Engine.emit_symBits, Engine.emit_validBits, BitVec.toNat_setWidth]
    exact Nat.mod_eq_of_lt (Nat.lt_of_lt_of_le (BitVec.isLt _) (by decide))
  answer := by
    have hanswer := h.answer
    rw [streamBits_append_heldBits_eq hbits hlen hpre, List.append_assoc] at hanswer
    exact hanswer.of_symbol ht.table ht.prefixFree hx hne

end

/-- Where INGEST finds an empty slot the reference semantics answers `EMPTY_SLOT`. -/
theorem InFlight.eq_emptySlot (h : InFlight p t cap0 later r path out en) (h8 : 8 ≤ en.validBits.toNat)
    (hcode : ∀ x ∈ p.table, ¬ codeBits x <+: streamBits (path ++ [ingestSlot en]))
    (hbegins : beginsCode p.table (streamBits (path ++ [ingestSlot en])) = false) : r = .failed .emptySlot := by
  have hanswer := h.answer
  rw [heldBits_eq_ingestSlot_append h8, ← List.append_assoc, ← streamBits_snoc, List.append_assoc] at hanswer
  have hnone : ∀ x ∈ p.table, ¬ codeBits x <+:
      streamBits (path ++ [ingestSlot en]) ++ (heldBits (en.consume 8#4) ++ later) := fun x hx hxr => by
    rcases List.prefix_or_prefix_of_prefix hxr (List.prefix_append _ _) with hxs | hsx
    · exact hcode x hx hxs
    · exact Bool.false_ne_true (hbegins.symm.trans (beginsCode_iff.2 ⟨x, hx, hsx⟩))
  rw [hanswer.eq_judgeRemainder hnone]
  refine judgeRemainder_of_left (d := path.length) ?_ (by simp) out
  rwa [List.take_left' (by simp)]

include ht

/-- Where FINISH stops, no code begins the remaining bits, and the reference semantics judges them as the Padding
Validator does. -/
theorem InFlight.eq_of_stopped (h : InFlight p t cap0 [] r path out en) (h7 : en.validBits.toNat ≤ 7)
    (hnone : ∀ x ∈ p.table, ¬ codeBits x <+: streamBits path ++ heldBits en) :
    r = if paddingValid en then .output out else .failed .invalidPadding := by
  have hanswer := h.answer
  rw [List.append_nil] at hanswer
  have hinside : beginsCode p.table ((streamBits path ++ heldBits en).take (8 * path.length)) = true := by
    rw [List.take_left' (length_streamBits path)]
    exact ht.beginsCode_path h.walk
  have hpadding : paddingBits (streamBits path ++ heldBits en) = paddingValid en := by
    rw [Bool.eq_iff_iff, paddingValid_iff, h.symBits, paddingBits, Bool.and_eq_true, decide_eq_true_eq,
      List.length_append, length_streamBits, length_heldBits, Nat.add_comm]
    refine and_congr_right fun hle => ?_
    have hpath : path = [] := List.length_eq_zero_iff.1 (by omega)
    rw [hpath]
    exact all_heldBits_iff
  rw [hanswer.eq_judgeRemainder hnone, judgeRemainder_of_inside hinside (by simp) (by simp; omega), hpadding]

/-- Where no bit is held, no code is complete. -/
theorem InFlight.no_code_of_nothing_held (h : InFlight p t cap0 later r path out en) (h0 : en.validBits.toNat = 0)
    {x : TableEntry} (hx : x ∈ p.table) : ¬ codeBits x <+: streamBits path ++ heldBits en := by
  rw [heldBits_eq_nil h0, List.append_nil]
  exact ht.not_code_prefix_path h.walk hx

/-- Where the header that FINISH looks up does not fit, no code begins the remaining bits (42_engine_finish.md R142). -/
theorem TreeOf.no_code_of_not_fitting {n : Nat} (hn : walk t path = some n) {v : Nat} {held : List Bool} {s : Byte}
    {l : Lookup} (hl : Tree.lookup t n s = .ok l) (hheld : held.length = v) (hs : held <+: byteBits s)
    (hfit : fittingHeader v l = none) {x : TableEntry} (hx : x ∈ p.table) :
    ¬ codeBits x <+: streamBits path ++ held := by
  intro hxr
  have hxs : codeBits x <+: streamBits (path ++ [s]) :=
    hxr.trans (streamBits_snoc path s ▸ (List.prefix_append_right_inj _).2 hs)
  cases ht.lookupSays hn hl with
  | empty hcode => exact hcode x hx hxs
  | internal c h _ _ hc => exact ht.not_code_prefix_path hc hx hxs
  | terminal c h y hk hy _ hlen hys =>
    have hxy : x = y := eq_of_codes_prefix ht.prefixFree hx hy hxs hys
    have hle : x.length.toNat ≤ 8 * path.length + v := by simpa [hheld] using hxr.length_le
    rw [fittingHeader, if_pos ⟨hk, by rw [hxy] at hle; omega⟩] at hfit
    cases hfit

include hcap

/-- INGEST's loop ends with the decode in flight and fewer than 8 bits held, or raises the fault that the reference
semantics answers. -/
theorem InFlight.ingestLoop {passes : Nat} (h : InFlight p t cap0 later r path out en)
    (hp : en.validBits.toNat ≤ 7 + passes) :
    (∃ path' out' en', ingestLoop t p.eosSym cap0 passes en = .ok en' ∧ en'.validBits.toNat ≤ 7 ∧
      InFlight p t cap0 later r path' out' en') ∨
    ∃ k, ingestLoop t p.eosSym cap0 passes en = .raise k ∧ r = .failed k.response := by
  induction passes generalizing path out en with
  | zero => exact .inl ⟨path, out, en, rfl, hp, h⟩
  | succ passes ih =>
    rw [ingestLoop_succ]
    by_cases h8 : 8 ≤ en.validBits.toNat
    case neg => exact .inl ⟨path, out, en, if_neg h8, by omega, h⟩
    rw [if_pos h8]
    obtain ⟨l, hl⟩ := ht.codes.exists_lookup h.walk (ingestSlot en)
    rw [hl]
    cases ht.lookupSays h.walk hl with
    | empty hcode hbegins => exact .inr ⟨.emptySlot, rfl, h.eq_emptySlot h8 hcode hbegins⟩
    | internal c hd hk hbits hc =>
      simp only [hk, hbits]
      refine ih (h.descend h8 hc) ?_
      have hleft : (en.consume 8#4).validBits.toNat = en.validBits.toNat - 8 := Engine.consume_validBits_toNat h8
      simp only [hleft]
      omega
    | terminal c hd x hk hx hsym hlen hxs =>
      obtain ⟨h1, hle⟩ := Tree.lookup_bits_range hl
      have hbits : hd.bits.toNat ≤ en.validBits.toNat := hle.trans h8
      have hpre : codeBits x <+: streamBits path ++ heldBits en := hxs.trans <| by
        rw [streamBits_snoc, List.prefix_append_right_inj, heldBits_eq_ingestSlot_append h8]
        exact List.prefix_append _ _
      simp only [hk, ← hsym]
      by_cases heos : x.symbol = p.eosSym
      · exact .inr ⟨.eosDecoded, if_pos heos, h.eq_eosDecoded ht hx hbits hlen hpre heos⟩
      · rw [if_neg heos]
        refine ih (h.emit ht hcap hx hbits hlen hpre heos) ?_
        rw [Engine.emit_validBits, Engine.consume_validBits_toNat hbits]
        omega

/-- FINISH's loop ends with the decode in flight and no code complete, or raises the fault that the reference semantics
answers. -/
theorem InFlight.finishLoop {passes : Nat} (h : InFlight p t cap0 [] r path out en) (h7 : en.validBits.toNat ≤ 7)
    (hp : en.validBits.toNat ≤ passes) :
    (∃ path' out' en', finishLoop t p.eosSym cap0 passes en = .ok en' ∧ en'.validBits.toNat ≤ 7 ∧
      InFlight p t cap0 [] r path' out' en' ∧
      ∀ x ∈ p.table, ¬ codeBits x <+: streamBits path' ++ heldBits en') ∨
    ∃ k, finishLoop t p.eosSym cap0 passes en = .raise k ∧ r = .failed k.response := by
  induction passes generalizing path out en with
  | zero => exact .inl ⟨path, out, en, rfl, h7, h, fun x hx => h.no_code_of_nothing_held ht (Nat.le_zero.1 hp) hx⟩
  | succ passes ih =>
    by_cases hv : 0 < en.validBits.toNat
    case neg =>
      exact .inl ⟨path, out, en, (finishLoop_succ ..).trans (if_neg hv), h7, h,
        fun x hx => h.no_code_of_nothing_held ht (Nat.eq_zero_of_not_pos hv) hx⟩
    obtain ⟨l, hl⟩ := ht.codes.exists_lookup h.walk (finishSlot en)
    have hheld := heldBits_prefix_finishSlot (en := en) (by omega)
    rw [finishLoop_of_lookup hv hl]
    cases hfit : fittingHeader en.validBits.toNat l with
    | none =>
      exact .inl ⟨path, out, en, rfl, h7, h,
        fun x hx => ht.no_code_of_not_fitting h.walk hl (length_heldBits en) hheld hfit hx⟩
    | some hd =>
      obtain ⟨⟨c, rfl⟩, hkind, hbits⟩ := fittingHeader_eq_some_iff.1 hfit
      cases ht.lookupSays h.walk hl with
      | internal _ _ hk => cases hkind.symm.trans hk
      | terminal _ _ x _ hx hsym hlen hxs =>
        have hpre : codeBits x <+: streamBits path ++ heldBits en :=
          List.prefix_of_prefix_length_le hxs
            (streamBits_snoc path _ ▸ (List.prefix_append_right_inj _).2 hheld) (by simp; omega)
        obtain ⟨h1, -⟩ := Tree.lookup_bits_range hl
        rw [Option.elim_some, ← hsym]
        by_cases heos : x.symbol = p.eosSym
        · exact .inr ⟨.eosDecoded, if_pos heos, h.eq_eosDecoded ht hx hbits hlen hpre heos⟩
        · have hleft : ((en.consume hd.bits).emit cap0 x.symbol).validBits.toNat =
              en.validBits.toNat - hd.bits.toNat := Engine.consume_validBits_toNat hbits
          rw [if_neg heos]
          exact ih (h.emit ht hcap hx hbits hlen hpre heos) (by omega) (by omega)

end

/-- A fault is what DECODE answers where it ends with one. -/
theorem decodeResult_raiseEngineFault (s : State) (e : Nat) (en : Engine) (k : EngineFault) :
    (s.raiseEngineFault e en k).decodeResult e = some (.failed k.response) := by
  cases k <;> rfl

/-- A completed decode answers what the engine's buffer holds. -/
theorem decodeResult_complete {s : State} {e cap0 : Nat} {en : Engine} {out : List Byte} (he : e < s.engines.length)
    (h : HoldsBytes cap0 out en) : ((s.setEngine e en.complete).respond .ok).decodeResult e = some (.output out) := by
  have hen : ((s.setEngine e en.complete).respond .ok).engines[e]? = some en.complete := by simp [he]
  have hbytes : en.complete.outBytes en.complete.outLen = out := (h.congr (en' := en.complete) rfl rfl rfl).outBytes_eq
  rw [State.decodeResult, lastResponse_respond, hostOutput_eq hen, if_pos (Engine.complete_status en), hbytes]
  rfl

section
variable {s : State} {e : Nat} {en : Engine} {r : DecodeResult} {path out : List Byte} (hb : s.treeState = .built)
  (ht : TreeOf s.params s.tree) (hcap : 1 ≤ s.cap0 e) (h7 : en.validBits.toNat ≤ 7)
include hb ht hcap h7

/-- FINISH answers what the reference semantics does. -/
theorem InFlight.execFinish (ha : addressed s e en) (h : InFlight s.params s.tree (s.cap0 e) [] r path out en) :
    ∃ t, execFinish s = .next t ∧ t.decodeResult e = some r := by
  have he : e < s.engines.length := (List.getElem?_eq_some_iff.1 ha.2).1
  rcases h.finishLoop ht hcap h7 (Nat.le_refl _) with ⟨path', out', en', hl, h7', h', hnone⟩ | ⟨k, hl, rfl⟩
  · refine ⟨_, execFinish_of_ok ha hb h.active hl, ?_⟩
    rw [h'.eq_of_stopped ht h7' hnone]
    split
    · exact decodeResult_complete he h'.output
    · exact decodeResult_raiseEngineFault s e en .invalidPadding
  · exact ⟨_, execFinish_of_raise ha hb h.active hl, decodeResult_raiseEngineFault s e en k⟩

/-- INGEST goes on with the decode in flight, or answers the fault that the reference semantics does. -/
theorem InFlight.execIngest {b : Byte} {later : List Bool} (ha : addressed s e en)
    (h : InFlight s.params s.tree (s.cap0 e) (byteBits b ++ later) r path out en) :
    (∃ path' out' en', execIngest b s = .next ((s.setEngine e en').respond .ok) ∧ en'.validBits.toNat ≤ 7 ∧
      InFlight s.params s.tree (s.cap0 e) later r path' out' en') ∨
    ∃ k, execIngest b s = .next (s.raiseEngineFault e en k) ∧ r = .failed k.response := by
  have hdepth : path.length ≤ 3 := ht.codes.depth_le (fun x hx => (ht.table.wLen x hx).2) h.walk
  rcases (h.shiftIn hdepth h7).ingestLoop (passes := 8) ht hcap
      (by rw [shiftIn_validBits_toNat b h7]; omega) with ⟨path', out', en', hl, h7', h'⟩ | ⟨k, hl, hr⟩
  · exact .inl ⟨path', out', en', execIngest_of_ok ha hb h.active hl, h7', h'⟩
  · exact .inr ⟨k, execIngest_of_raise ha hb h.active hl, hr⟩

end

/-- The INGESTs of a DECODE and its FINISH answer what the reference semantics does. -/
theorem InFlight.issueAll {s : State} {e : Nat} {en : Engine} {r : DecodeResult} {path out bytes : List Byte}
    (hb : s.treeState = .built) (ht : TreeOf s.params s.tree) (hcap : 1 ≤ s.cap0 e) (hen : s.engines[e]? = some en)
    (h7 : en.validBits.toNat ≤ 7) (h : InFlight s.params s.tree (s.cap0 e) (streamBits bytes) r path out en) :
    ∃ t, issueAll (.engine e) (bytes.map .ingest ++ [.finish]) s = .next t ∧ t.decodeResult e = some r := by
  induction bytes generalizing s en path out with
  | nil =>
    obtain ⟨t, hfinish, hr⟩ := InFlight.execFinish (s := s.present (.engine e) s.pending) hb ht hcap h7 ⟨rfl, hen⟩ h
    exact ⟨t, (issueAll_cons_of_next (i := .finish) hfinish).trans (ite_self _), hr⟩
  | cons b bytes ih =>
    have he : e < s.engines.length := (List.getElem?_eq_some_iff.1 hen).1
    rcases InFlight.execIngest (s := s.present (.engine e) s.pending) hb ht hcap h7 ⟨rfl, hen⟩ h with
      ⟨path', out', en', hingest, h7', h'⟩ | ⟨k, hingest, rfl⟩
    · obtain ⟨t, hrest, hr⟩ := ih (s := ((s.present (.engine e) s.pending).setEngine e en').respond .ok) hb ht hcap
        (by simp [he]) h7' h'
      exact ⟨t, (issueAll_cons_of_next (i := .ingest b) hingest).trans ((if_pos rfl).trans hrest), hr⟩
    · exact ⟨_, (issueAll_cons_of_next (i := .ingest b) hingest).trans
        (if_neg (lastResponse_raiseEngineFault_ne_ok _ e en k)), decodeResult_raiseEngineFault _ e en k⟩

/-- Settles O45: RESET starts a decode that the reference semantics answers on the whole stream, and the other commands
keep its answer. -/
theorem decodeMeetsReference : Obligations.DecodeMeetsReference := by
  unfold Obligations.DecodeMeetsReference
  intro s e bytes h hb he hc
  have ht := h.treeOf hb
  have hcap : 1 ≤ s.cap0 e := Nat.pos_of_ne_zero hc
  have ha : addressed (s.present (.engine e) s.pending) e s.engines[e] := ⟨rfl, List.getElem?_eq_getElem he⟩
  have hreset := issueAll_cons_of_next (i := .reset) (rest := bytes.map .ingest ++ [.finish])
    (execReset_of_built ha hb hc)
  have hflight := inFlight_restart ht.codes.only.rootInternal hcap (referenceAnswers_decode s.params bytes) s.engines[e]
  obtain ⟨t, hrest, hr⟩ := InFlight.issueAll
    (s := ((s.present (.engine e) s.pending).setEngine e (s.engines[e].restart (s.cap0 e))).respond .ok)
    hb ht hcap (by simp [he]) (by simp) hflight
  exact ⟨t, hreset.trans ((if_pos rfl).trans hrest), hr⟩

end Sys2Proof.Safety
end

section
/-! SUPPORT. The round trip and the rejection of the EOS code (43_decode_sequence.md R166, R168), as facts of the
reference semantics: what it answers on codes in order, on 1 bits that begin an all-1s EOS code, and on the bytes that an
encoding is cut into (30_encoding.md R81). -/

namespace Sys2Proof.Safety

open Sys2Proof.Machine

section
variable {p : Parameters} {out : List Byte} {r : DecodeResult}

/-- Codes of non-EOS entries in order give their symbols in order. -/
theorem ReferenceAnswers.of_symbols (hok : TableOk p) (hfree : prefixFree p.table) {xs : List TableEntry}
    (hxs : ∀ x ∈ xs, x ∈ p.table ∧ x.symbol ≠ p.eosSym) {bits : List Bool}
    (h : ReferenceAnswers p (xs.flatMap codeBits ++ bits) out r) :
    ReferenceAnswers p bits (out ++ xs.map fun x => outputByte x.symbol) r := by
  induction xs generalizing out with
  | nil => simpa using h
  | cons x xs ih =>
    obtain ⟨hx, hne⟩ := hxs x List.mem_cons_self
    rw [List.flatMap_cons, List.append_assoc] at h
    have hrest := ih (fun y hy => hxs y (List.mem_cons_of_mem x hy)) (h.of_symbol hok hfree hx hne)
    rwa [List.append_assoc, List.singleton_append] at hrest

/-- The bits of an all-1s code. -/
theorem codeBits_eq_replicate {x : TableEntry} (h : ∀ b ∈ codeBits x, b = true) :
    codeBits x = List.replicate x.length.toNat true :=
  List.eq_replicate_iff.2 ⟨length_codeBits x, h⟩

/-- Fewer 1 bits than an all-1s EOS code has complete no code, and are judged by their number. -/
theorem ReferenceAnswers.eq_of_ones (hfree : prefixFree p.table) {x : TableEntry} (hx : x ∈ p.table)
    (hones : ∀ b ∈ codeBits x, b = true) {k : Nat} (hk : k < x.length.toNat)
    (h : ReferenceAnswers p (List.replicate k true) out r) :
    r = if k ≤ 7 then .output out else .failed .invalidPadding := by
  have hpre : List.replicate k true <+: codeBits x := by
    rw [codeBits_eq_replicate hones, ← Nat.add_sub_cancel' (Nat.le_of_lt hk), List.replicate_add]
    exact List.prefix_append _ _
  have hnone : ∀ y ∈ p.table, ¬ codeBits y <+: List.replicate k true := fun y hy hyk => by
    have hle := hyk.length_le
    rw [eq_of_code_prefix hfree hy hx (hyk.trans hpre), length_codeBits, List.length_replicate] at hle
    omega
  have hbegins : beginsCode p.table ((List.replicate k true).take k) = true := by
    rw [List.take_of_length_le (by simp)]
    exact beginsCode_iff.2 ⟨x, hx, hpre⟩
  rw [h.eq_judgeRemainder hnone, judgeRemainder_of_inside hbegins (by simp) (by simp; omega)]
  simp [paddingBits]

end

/-- The number that a bit string is, most significant bit first, has those bits. -/
theorem natBits_foldl (bits : List Bool) : natBits (bits.foldl (fun n b => 2 * n + b.toNat) 0) bits.length = bits := by
  induction bits using List.reverseRecOn with
  | nil => rfl
  | append_singleton bits b ih =>
    rw [List.foldl_append, List.length_append, List.length_singleton, natBits_add]
    simp only [List.foldl_cons, List.foldl_nil]
    generalize bits.foldl (fun n b => 2 * n + b.toNat) 0 = m at ih ⊢
    have hhigh : (2 * m + b.toNat) / 2 ^ 1 = m := by
      have hb := b.toNat_lt
      omega
    have hlow : natBits (2 * m + b.toNat) 1 = [b] := by cases b <;> simp [natBits]
    rw [hhigh, hlow, ih]

/-- The bits of a byte made of bits are those. -/
theorem byteBits_byteOfBits {bits : List Bool} (h : 8 ≤ bits.length) : byteBits (byteOfBits bits) = bits.take 8 := by
  have hlen : (bits.take 8).length = 8 := by simpa using h
  have hbits := natBits_foldl (bits.take 8)
  rw [hlen] at hbits
  exact (byteBits_lowByte _).trans hbits

/-- The bytes that a bit string is cut into are its bits. -/
theorem streamBits_cutBytes {n : Nat} {bits : List Bool} (h : bits.length = 8 * n) :
    streamBits (cutBytes n bits) = bits := by
  induction n generalizing bits with
  | zero => exact (List.length_eq_zero_iff.1 h).symm
  | succ n ih =>
    have hrest : streamBits (cutBytes n (bits.drop 8)) = bits.drop 8 := ih (by rw [List.length_drop]; omega)
    have hfirst := byteBits_byteOfBits (bits := bits) (by omega)
    calc streamBits (cutBytes (n + 1) bits)
        = byteBits (byteOfBits bits) ++ streamBits (cutBytes n (bits.drop 8)) := rfl
      _ = bits := by rw [hfirst, hrest, List.take_append_drop]

/-- The stream of an encoding: the codes in order, then the padding (30_encoding.md R81). -/
theorem streamBits_encodeSymbols (xs : List TableEntry) : streamBits (encodeSymbols xs) =
    xs.flatMap codeBits ++ List.replicate (padCount (xs.flatMap codeBits).length) true := by
  refine streamBits_cutBytes ?_
  rw [List.length_append, List.length_replicate, padCount]
  omega

section
variable {s : State} {e : Nat} (h : Inv s) (hb : s.treeState = .built) (he : e < s.engines.length)
  (hc : s.cap0 e ≠ 0)
include h hb he hc

/-- DECODE answers what the reference semantics must answer on the stream. -/
theorem decodeLiteral_of_referenceAnswers {bytes : List Byte} {bits : List Bool} {r : DecodeResult}
    (hbits : streamBits bytes = bits) (hr : ∀ r', ReferenceAnswers s.params bits [] r' → r' = r) :
    ∃ t, decodeLiteral e bytes s = .next t ∧ t.decodeResult e = some r := by
  obtain ⟨t, ht, hanswer⟩ := decodeMeetsReference s e bytes h hb he hc
  exact ⟨t, ht, hanswer.trans (congrArg some (hr _ (hbits ▸ referenceAnswers_decode s.params bytes)))⟩

/-- Codes of non-EOS entries, then the EOS code, then anything: DECODE answers `EOS_DECODED`. -/
theorem decodeLiteral_of_eos {x : TableEntry} (hx : x ∈ s.params.table) (heos : x.symbol = s.params.eosSym)
    {xs : List TableEntry} (hxs : ∀ y ∈ xs, y ∈ s.params.table ∧ y.symbol ≠ s.params.eosSym) {bytes : List Byte}
    {rest : List Bool} (hbits : streamBits bytes = xs.flatMap codeBits ++ codeBits x ++ rest) :
    ∃ t, decodeLiteral e bytes s = .next t ∧ t.decodeResult e = some (.failed .eosDecoded) := by
  have ht := h.treeOf hb
  rw [List.append_assoc] at hbits
  exact decodeLiteral_of_referenceAnswers h hb he hc hbits fun r hr =>
    (hr.of_symbols ht.table ht.prefixFree hxs).eq_eosDecoded ht.table ht.prefixFree hx heos

end

/-- Settles O48: the codes give their symbols and the padding, of fewer bits than the EOS code, completes no code; the
EOS code ends the decode. -/
theorem roundTrip : Obligations.RoundTrip := by
  unfold Obligations.RoundTrip
  intro s e h hb he hc hones hlong
  have ht := h.treeOf hb
  refine ⟨fun xs hxs => ?symbols, fun x hx heos => ?eos⟩
  case symbols =>
    obtain ⟨x, hx, heos⟩ := ht.table.wEos
    have hlen : 8 ≤ x.length.toNat := hlong x hx heos
    have hpad : padCount (xs.flatMap codeBits).length ≤ 7 := Nat.le_of_lt_succ (Nat.mod_lt _ (by decide))
    refine decodeLiteral_of_referenceAnswers h hb he hc (streamBits_encodeSymbols xs) fun r hr => ?_
    have hanswer := (hr.of_symbols ht.table ht.prefixFree hxs).eq_of_ones ht.prefixFree hx (hones x hx heos)
      (Nat.lt_of_le_of_lt hpad hlen)
    rwa [if_pos hpad, List.nil_append] at hanswer
  case eos =>
    refine decodeLiteral_of_eos h hb he hc hx heos (xs := []) (by simp)
      (rest := List.replicate (padCount ([x].flatMap codeBits).length) true) ?_
    rw [streamBits_encodeSymbols, List.flatMap_singleton, List.flatMap_nil, List.nil_append]

/-- Settles O49: `FF FF` is sixteen 1 bits, which hold an all-1s EOS code or begin it. -/
theorem explicitEosRejected : Obligations.ExplicitEosRejected := by
  unfold Obligations.ExplicitEosRejected
  intro s e h hb he hc x hx heos
  refine ⟨fun xs bytes rest hxs hbits => decodeLiteral_of_eos h hb he hc hx heos hxs hbits, fun hones => ?_⟩
  have hcode := codeBits_eq_replicate (hones x hx heos)
  have hbits : streamBits [0xFF#8, 0xFF#8] = List.replicate 16 true := by decide
  by_cases hle : x.length.toNat ≤ 16
  · rw [if_pos hle]
    refine decodeLiteral_of_eos h hb he hc hx heos (xs := []) (by simp)
      (rest := List.replicate (16 - x.length.toNat) true) ?_
    rw [hbits, hcode, List.flatMap_nil, List.nil_append, ← List.replicate_add, Nat.add_sub_cancel' hle]
  · rw [if_neg hle]
    exact decodeLiteral_of_referenceAnswers h hb he hc hbits fun r hr =>
      hr.eq_of_ones (h.treeOf hb).prefixFree hx (hones x hx heos) (Nat.lt_of_not_le hle)

end Sys2Proof.Safety
end

section
/-! SUPPORT. What a command answers on an engine's port (60_exceptions.md R183, R186, R187): a relation on the parameters,
`tree_state`, TREE and that engine alone, which is all the command reads of the block (R193). -/

namespace Sys2Proof.Safety

open Sys2Proof.Machine

/-- An engine in this status accepts the command, which is not BUILD: its row of the table of R187. -/
def acceptedBy (ts : TreeState) (st : EngineStatus) : Instr → Prop
  | .build => False
  | .reset => ts = .built
  | .ingest _ => ts = .built ∧ st = .active
  | .finish => ts = .built ∧ st = .active

/-- A command but RESET is accepted in `ACTIVE` only. -/
theorem active_of_acceptedBy {ts : TreeState} {st : EngineStatus} {i : Instr} (h : acceptedBy ts st i) (hi : i ≠ .reset) :
    st = .active := by
  cases i with
  | build => exact absurd h id
  | reset => exact absurd rfl hi
  | ingest b => exact h.2
  | finish => exact h.2

/-- The accepted command runs to its end and leaves the engine `x`. -/
def Completes (p : Parameters) (tree : Tree) (e : Nat) (en : Engine) (x : Engine) : Instr → Prop
  | .build => False
  | .reset => p.cap0.getD e 0 ≠ 0 ∧ x = en.restart (p.cap0.getD e 0)
  | .ingest b => ingestLoop tree p.eosSym (p.cap0.getD e 0) 8 (en.shiftIn b) = .ok x
  | .finish => ∃ en', finishLoop tree p.eosSym (p.cap0.getD e 0) en.validBits.toNat en = .ok en' ∧
      paddingValid en' = true ∧ x = en'.complete

/-- The accepted command raises the fault. -/
def Raises (p : Parameters) (tree : Tree) (e : Nat) (en : Engine) (k : EngineFault) : Instr → Prop
  | .build => False
  | .reset => False
  | .ingest b => ingestLoop tree p.eosSym (p.cap0.getD e 0) 8 (en.shiftIn b) = .raise k
  | .finish => finishLoop tree p.eosSym (p.cap0.getD e 0) en.validBits.toNat en = .raise k ∨
      (k = .invalidPadding ∧ ∃ en', finishLoop tree p.eosSym (p.cap0.getD e 0) en.validBits.toNat en = .ok en' ∧
        paddingValid en' = false)

/-- What a command on the port of engine `e`, which is `en`, answers: the engine it sets, if any, and the response. -/
inductive EngineAnswers (p : Parameters) (ts : TreeState) (tree : Tree) (e : Nat) (en : Engine) :
    Instr → Option Engine → Response → Prop where
  | illegal : EngineAnswers p ts tree e en .build none .illegalCommand
  | refused {i : Instr} (hi : i ≠ .build) (hacc : ¬ acceptedBy ts en.status i) :
      EngineAnswers p ts tree e en i none .sequenceRefused
  | completed {i : Instr} {x : Engine} (hacc : acceptedBy ts en.status i) (hx : Completes p tree e en x i) :
      EngineAnswers p ts tree e en i (some x) .ok
  | raised {i : Instr} {k : EngineFault} (hacc : acceptedBy ts en.status i) (hk : Raises p tree e en k i) :
      EngineAnswers p ts tree e en i (some (Engine.unspecified (nextDraw en.freeKey) .faulted (some k))) k.response

/-- The block after such an answer: it is refused, or engine `e` is set. -/
def afterAnswer (s : State) (e : Nat) (r : Response) : Option Engine → State
  | none => s.refuse r
  | some x => (s.setEngine e x).respond r

section
variable {s t : State} {e : Nat} {en : Engine} {i : Instr} {o : Option Engine} {r : Response}

/-- Every next state on an engine's port is the block after one of the answers. -/
theorem exists_engineAnswers (hp : s.port = .engine e) (h : exec i s = .next t) :
    ∃ en o r, s.engines[e]? = some en ∧ EngineAnswers s.params s.treeState s.tree e en i o r ∧
      t = afterAnswer s e r o := by
  have hport : s.port ≠ .builder := by simp [hp]
  have heq {f : Nat} (hf : s.port = .engine f) : f = e := by cases hp.symm.trans hf; rfl
  cases i with
  | build =>
    rcases execBuild_next h with ⟨f, hf, hlt, rfl⟩ | ⟨hb, -⟩ | ⟨hb, -⟩
    · cases heq hf
      exact ⟨_, none, _, List.getElem?_eq_getElem hlt, .illegal, rfl⟩
    · exact absurd hb hport
    · exact absurd hb hport
  | reset =>
    rcases execReset_next h with ⟨hb, -⟩ | ⟨f, en, hf, hen, h⟩
    · exact absurd hb hport
    cases heq hf
    rcases h with ⟨hn, rfl⟩ | ⟨hb, hc, rfl⟩
    · exact ⟨en, none, _, hen, .refused (by simp) hn, rfl⟩
    · exact ⟨en, some _, _, hen, .completed hb ⟨hc, rfl⟩, rfl⟩
  | ingest b =>
    rcases execIngest_next h with ⟨hb, -⟩ | ⟨f, en, hf, hen, h⟩
    · exact absurd hb hport
    cases heq hf
    rcases h with ⟨hn, rfl⟩ | ⟨hb, hst, ⟨x, hl, rfl⟩ | ⟨k, hl, rfl⟩⟩
    · exact ⟨en, none, _, hen, .refused (by simp) hn, rfl⟩
    · exact ⟨en, some x, _, hen, .completed ⟨hb, hst⟩ hl, rfl⟩
    · exact ⟨en, some _, _, hen, .raised ⟨hb, hst⟩ hl, rfl⟩
  | finish =>
    rcases execFinish_next h with ⟨hb, -⟩ | ⟨f, en, hf, hen, h⟩
    · exact absurd hb hport
    cases heq hf
    rcases h with ⟨hn, rfl⟩ | ⟨hb, hst, ⟨x, hl, ⟨hpad, rfl⟩ | ⟨hpad, rfl⟩⟩ | ⟨k, hl, rfl⟩⟩
    · exact ⟨en, none, _, hen, .refused (by simp) hn, rfl⟩
    · exact ⟨en, some _, _, hen, .completed ⟨hb, hst⟩ ⟨x, hl, hpad, rfl⟩, rfl⟩
    · exact ⟨en, some _, _, hen, .raised ⟨hb, hst⟩ (.inr ⟨rfl, x, hl, hpad⟩), rfl⟩
    · exact ⟨en, some _, _, hen, .raised ⟨hb, hst⟩ (.inl hl), rfl⟩

/-- An engine command that its row of R187 does not accept is refused. -/
theorem exec_of_not_acceptedBy (ha : addressed s e en) (hi : i ≠ .build) (h : ¬ acceptedBy s.treeState en.status i) :
    exec i s = .next (s.refuse .sequenceRefused) := by
  cases i with
  | build => exact absurd rfl hi
  | reset => exact execReset_of_not_built ha h
  | ingest b => exact onEngine_of_not_accepted ha (by simpa [acceptsIngest, acceptedBy] using h)
  | finish => exact onEngine_of_not_accepted ha (by simpa [acceptsFinish, acceptedBy] using h)

/-- An accepted command that completes sets its engine and answers `OK`. -/
theorem exec_of_completes {x : Engine} (ha : addressed s e en) (hacc : acceptedBy s.treeState en.status i)
    (hx : Completes s.params s.tree e en x i) : exec i s = .next ((s.setEngine e x).respond .ok) := by
  cases i with
  | build => exact absurd hacc id
  | reset =>
    obtain ⟨hc, rfl⟩ := hx
    exact execReset_of_built ha hacc hc
  | ingest b => exact execIngest_of_ok ha hacc.1 hacc.2 hx
  | finish =>
    obtain ⟨en', hl, hpad, rfl⟩ := hx
    exact (execFinish_of_ok ha hacc.1 hacc.2 hl).trans (congrArg _ (if_pos hpad))

/-- An accepted command that raises a fault enters it (60_exceptions.md R183). -/
theorem exec_of_raises {k : EngineFault} (ha : addressed s e en) (hacc : acceptedBy s.treeState en.status i)
    (hk : Raises s.params s.tree e en k i) : exec i s = .next (s.raiseEngineFault e en k) := by
  cases i with
  | build => exact absurd hacc id
  | reset => exact absurd hk id
  | ingest b => exact execIngest_of_raise ha hacc.1 hacc.2 hk
  | finish =>
    rcases hk with hl | ⟨rfl, en', hl, hpad⟩
    · exact execFinish_of_raise ha hacc.1 hacc.2 hl
    · exact (execFinish_of_ok ha hacc.1 hacc.2 hl).trans (congrArg _ (if_neg (by simp [hpad])))

/-- The block gives each of the answers. -/
theorem EngineAnswers.exec_eq (h : EngineAnswers s.params s.treeState s.tree e en i o r) (ha : addressed s e en) :
    exec i s = .next (afterAnswer s e r o) := by
  cases h with
  | illegal => exact execBuild_of_engine ha
  | refused hi hacc => exact exec_of_not_acceptedBy ha hi hacc
  | completed hacc hx => exact exec_of_completes ha hacc hx
  | raised hacc hk => exact exec_of_raises ha hacc hk

@[simp] theorem afterAnswer_response : (afterAnswer s e r o).response = some (s.port, r) := by cases o <;> rfl

@[simp] theorem afterAnswer_params : (afterAnswer s e r o).params = s.params := by cases o <;> rfl

@[simp] theorem afterAnswer_treeState : (afterAnswer s e r o).treeState = s.treeState := by cases o <;> rfl

@[simp] theorem afterAnswer_tree : (afterAnswer s e r o).tree = s.tree := by cases o <;> rfl

/-- The engine of the port holds what the answer sets it to, or what it held. -/
theorem afterAnswer_engine (hen : s.engines[e]? = some en) :
    (afterAnswer s e r o).engines[e]? = some (o.getD en) := by
  cases o with
  | none => exact hen
  | some x => simp [afterAnswer, (List.getElem?_eq_some_iff.1 hen).1]

/-- No answer touches another engine. -/
theorem afterAnswer_other_engine {f : Nat} (hf : f ≠ e) : (afterAnswer s e r o).engines[f]? = s.engines[f]? := by
  cases o with
  | none => rfl
  | some x => simp [afterAnswer, List.getElem?_set_ne hf.symm]

end

section
variable {p : Parameters} {ts : TreeState} {tree : Tree} {e : Nat} {en x : Engine} {i : Instr} {o : Option Engine}
  {r : Response}

/-- No fault's code is another response (30_encoding.md R74). -/
theorem faultResponse_ne (k : EngineFault) :
    k.response ≠ .ok ∧ k.response ≠ .sequenceRefused ∧ k.response ≠ .illegalCommand := by
  cases k <;> decide

/-- No two faults share a code (60_exceptions.md R180). -/
theorem faultResponse_injective {k k' : EngineFault} (h : k.response = k'.response) : k = k' := by
  cases k <;> cases k' <;> simp [EngineFault.response] at h ⊢

/-- Only an answer that sets no engine is `SEQUENCE_REFUSED` or `ILLEGAL_COMMAND` (60_exceptions.md R186). -/
theorem EngineAnswers.eq_none (h : EngineAnswers p ts tree e en i o r)
    (hr : r = .sequenceRefused ∨ r = .illegalCommand) : o = none := by
  cases h with
  | illegal => rfl
  | refused hi hacc => rfl
  | completed hacc hx => simp at hr
  | @raised _ k hacc hk =>
    obtain ⟨-, hrefused, hillegal⟩ := faultResponse_ne k
    exact absurd hr (not_or.2 ⟨hrefused, hillegal⟩)

/-- A command that is accepted sets its engine. -/
theorem EngineAnswers.ne_none (h : EngineAnswers p ts tree e en i o r) (hacc : acceptedBy ts en.status i) : o ≠ none := by
  cases h with
  | illegal => exact absurd hacc id
  | refused hi hnot => exact absurd hacc hnot
  | completed _ _ => simp
  | raised _ _ => simp

/-- An answer with a fault's code leaves the engine `FAULTED` with that fault (60_exceptions.md R183). -/
theorem EngineAnswers.exists_faulted {k : EngineFault} (h : EngineAnswers p ts tree e en i o k.response) :
    ∃ x, o = some x ∧ x.status = .faulted ∧ x.fault = some k := by
  obtain ⟨hok, hrefused, hillegal⟩ := faultResponse_ne k
  generalize hr : k.response = r at h
  cases h with
  | illegal => exact absurd hr hillegal
  | refused hi hacc => exact absurd hr hrefused
  | completed hacc hx => exact absurd hr hok
  | raised hacc hk => exact ⟨_, rfl, rfl, congrArg some (faultResponse_injective hr).symm⟩

/-- On an engine that is not `ACTIVE` the answer depends on `status` and the draws of free values alone: the one command
that is accepted, RESET, overwrites the other registers. -/
theorem EngineAnswers.of_not_active {en' : Engine} (h : EngineAnswers p ts tree e en i o r) (hna : en.status ≠ .active)
    (hst : en'.status = en.status) (hkey : en'.freeKey = en.freeKey) : EngineAnswers p ts tree e en' i o r := by
  have hreset (hacc : acceptedBy ts en.status i) : i = .reset := by
    by_contra hi
    exact hna (active_of_acceptedBy hacc hi)
  cases h with
  | illegal => exact .illegal
  | refused hi hacc => exact .refused hi (hst ▸ hacc)
  | completed hacc hx =>
    cases hreset hacc
    obtain ⟨hc, rfl⟩ := hx
    refine .completed hacc ⟨hc, ?_⟩
    simp only [Engine.restart, hkey]
  | raised hacc hk =>
    cases hreset hacc
    exact absurd hk id

/-- The transitions of an engine by a command with its response (60_exceptions.md R188). -/
def ListedTransition (i : Instr) (r : Response) (en x : Engine) : Prop :=
  (i = .reset ∧ r = .ok ∧ x.status = .active) ∨
  ((∃ b, i = .ingest b) ∧ r = .ok ∧ en.status = .active ∧ x.status = .active) ∨
  ((∃ b, i = .ingest b) ∧ (r = .eosDecoded ∨ r = .emptySlot) ∧ en.status = .active ∧ x.status = .faulted) ∨
  (i = .finish ∧ r = .ok ∧ en.status = .active ∧ x.status = .done) ∨
  (i = .finish ∧ (r = .eosDecoded ∨ r = .invalidPadding) ∧ en.status = .active ∧ x.status = .faulted)

/-- A command that completes makes its transition: no pass of INGEST's loop changes `status`. -/
theorem Completes.listedTransition (hx : Completes p tree e en x i) (hacc : acceptedBy ts en.status i) :
    ListedTransition i .ok en x := by
  cases i with
  | build => exact absurd hacc id
  | reset =>
    obtain ⟨-, rfl⟩ := hx
    exact .inl ⟨rfl, rfl, rfl⟩
  | ingest b =>
    obtain ⟨-, hst, -⟩ := ingestLoop_keeps hx
    exact .inr (.inl ⟨⟨b, rfl⟩, rfl, hacc.2, hst.trans hacc.2⟩)
  | finish =>
    obtain ⟨en', -, -, rfl⟩ := hx
    exact .inr (.inr (.inr (.inl ⟨rfl, rfl, hacc.2, rfl⟩)))

/-- A command that raises a fault goes from `ACTIVE` to `FAULTED`, with a fault of its own loop or of the Padding
Validator. -/
theorem Raises.listedTransition {k : EngineFault} (hk : Raises p tree e en k i) (hacc : acceptedBy ts en.status i)
    (hx : x.status = .faulted) : ListedTransition i k.response en x := by
  cases i with
  | build => exact absurd hacc id
  | reset => exact absurd hk id
  | ingest b =>
    have hr : k.response = .eosDecoded ∨ k.response = .emptySlot := by
      rcases ingestLoop_raise hk with rfl | rfl
      · exact .inr rfl
      · exact .inl rfl
    exact .inr (.inr (.inl ⟨⟨b, rfl⟩, hr, hacc.2, hx⟩))
  | finish =>
    have hr : k.response = .eosDecoded ∨ k.response = .invalidPadding := by
      rcases hk with hl | ⟨rfl, -⟩
      · cases finishLoop_raise hl
        exact .inl rfl
      · exact .inr rfl
    exact .inr (.inr (.inr (.inr ⟨rfl, hr, hacc.2, hx⟩)))

/-- An answer that sets the engine makes one of the listed transitions. -/
theorem EngineAnswers.listedTransition (h : EngineAnswers p ts tree e en i (some x) r) : ListedTransition i r en x := by
  cases h with
  | completed hacc hx => exact hx.listedTransition hacc
  | raised hacc hk => exact hk.listedTransition hacc rfl

end

end Sys2Proof.Safety
end

section
/-! SUPPORT. Rules of the whole block about commands, refusals and faults (60_exceptions.md R183 to R193), on both kinds
of port. -/

namespace Sys2Proof.Safety

open Sys2Proof.Machine

section
variable {s t : State} {i : Instr} {e : Nat}

/-- On the Builder's port a command is refused, or it is BUILD in `UNBUILT`, which succeeds or fails. -/
theorem exec_next_of_builder (hp : s.port = .builder) (h : exec i s = .next t) :
    (∃ r, t = s.refuse r) ∨
    (i = .build ∧ s.treeState = .unbuilt ∧ ((∃ tree, t = s.finishBuild tree) ∨ t = s.raisePrefixCodeViolation)) := by
  have hother (hi : ¬ ownPort i s.port) : ∃ r, t = s.refuse r :=
    ⟨_, (State.rejectIllegal_next ((exec_of_not_ownPort hi).symm.trans h)).1⟩
  cases i with
  | build =>
    rcases execBuild_next h with ⟨_, -, -, ht⟩ | ⟨-, -, ht⟩ | ⟨-, hu, -, ⟨tree, -, ht⟩ | ⟨-, ht⟩⟩
    · exact .inl ⟨_, ht⟩
    · exact .inl ⟨_, ht⟩
    · exact .inr ⟨rfl, hu, .inl ⟨tree, ht⟩⟩
    · exact .inr ⟨rfl, hu, .inr ht⟩
  | reset => exact .inl (hother (not_not.2 hp))
  | ingest b => exact .inl (hother (not_not.2 hp))
  | finish => exact .inl (hother (not_not.2 hp))

/-- A command that answers `SEQUENCE_REFUSED` or `ILLEGAL_COMMAND` has been refused. -/
theorem eq_refuse_of_response {r : Response} (h : exec i s = .next t) (ht : t.response = some (s.port, r))
    (hr : r = .sequenceRefused ∨ r = .illegalCommand) : t = s.refuse r := by
  cases hp : s.port with
  | builder =>
    rcases exec_next_of_builder hp h with ⟨r', rfl⟩ | ⟨-, -, ⟨tree, rfl⟩ | rfl⟩
    · cases ht
      rfl
    · cases ht
      simp at hr
    · cases ht
      simp at hr
  | engine e =>
    obtain ⟨en, o, r', -, hans, rfl⟩ := exists_engineAnswers hp h
    obtain rfl : r' = r := by simpa using ht
    rw [hans.eq_none hr]
    rfl

/-- BUILD is refused where the tree is not `UNBUILT` (60_exceptions.md R187). -/
theorem execBuild_of_not_unbuilt (hp : s.port = .builder) (hu : s.treeState ≠ .unbuilt) :
    execBuild s = .next (s.refuse .sequenceRefused) := by
  simp [execBuild, State.onBuilder, hp, acceptsBuild, hu]

/-- BUILD is not refused where the tree is `UNBUILT` (R187). -/
theorem response_ne_of_unbuilt (hp : s.port = .builder) (hu : s.treeState = .unbuilt) (h : execBuild s = .next t) :
    t.response ≠ some (.builder, .sequenceRefused) := by
  rcases execBuild_next h with ⟨_, hp', -⟩ | ⟨-, hu', -⟩ | ⟨-, -, -, ⟨tree, -, rfl⟩ | ⟨-, rfl⟩⟩
  · cases hp.symm.trans hp'
  · exact absurd hu hu'
  · simp
  · simp

/-- An engine command that its row of R187 accepts is not refused. -/
theorem response_ne_of_acceptedBy {en : Engine} (ha : addressed s e en) (hacc : acceptedBy s.treeState en.status i)
    (h : exec i s = .next t) : t.response ≠ some (.engine e, .sequenceRefused) := by
  intro hr
  obtain ⟨en', o, r, hen, hans, rfl⟩ := exists_engineAnswers ha.1 h
  cases ha.2.symm.trans hen
  obtain rfl : r = .sequenceRefused := by simpa [ha.1] using hr
  exact hans.ne_none hacc (hans.eq_none (.inl rfl))

/-- A step that takes a word runs its command, or refuses the word as illegal. -/
theorem step_command_next {p : Port} {w : CmdWord} {rest : List HostEvent} (hq : s.pending = .command p w :: rest)
    (h : step s = .next t) :
    (∃ i, decode w = .ok i ∧ exec i (s.present p rest) = .next t) ∨
      t = (s.present p rest).refuse .illegalCommand := by
  cases hw : decode w with
  | ok i => exact .inl ⟨i, rfl, (step_of_command hq hw).symm.trans h⟩
  | error x =>
    simp only [step, hq, hw] at h
    exact .inr (State.rejectIllegal_next h).1

/-- On the port of an engine that is not there an illegal word has no meaning. -/
theorem rejectIllegal_of_absent (hp : s.port = .engine e) (he : s.engines.length ≤ e) :
    s.rejectIllegal = .refused (.noSuchEngine e) := by
  simp [State.rejectIllegal, hp, Nat.not_lt.2 he]

/-- On the port of an engine that is not there an engine command has no meaning. -/
theorem onEngine_of_absent (hp : s.port = .engine e) (he : s.engines.length ≤ e)
    (accepts : TreeState → EngineStatus → Bool) (run : Nat → Engine → Result) :
    s.onEngine accepts run = .refused (.noSuchEngine e) := by
  simp [State.onEngine, hp, List.getElem?_eq_none he]

/-- On the port of an engine that is not there no command has a meaning. -/
theorem exec_of_absent (hp : s.port = .engine e) (he : s.engines.length ≤ e) :
    exec i s = .refused (.noSuchEngine e) := by
  cases i with
  | build => exact (exec_of_not_ownPort (by simp [ownPort, hp])).trans (rejectIllegal_of_absent hp he)
  | reset => exact onEngine_of_absent hp he _ _
  | ingest b => exact onEngine_of_absent hp he _ _
  | finish => exact onEngine_of_absent hp he _ _

end

/-- Settles O9: neither a command nor an illegal word finds the engine of its port. -/
theorem absentEngineRefused : Obligations.AbsentEngineRefused := by
  unfold Obligations.AbsentEngineRefused
  intro s e w rest hq he
  cases hw : decode w with
  | ok i => exact (step_of_command hq hw).trans (exec_of_absent rfl he)
  | error x =>
    simp only [step, hq, hw]
    exact rejectIllegal_of_absent rfl he

/-- Settles O10: on an engine's port each command follows its row, and BUILD its own on the Builder's. -/
theorem acceptanceTable : Obligations.AcceptanceTable := by
  unfold Obligations.AcceptanceTable
  intro s
  refine ⟨fun hp => ⟨execBuild_of_not_unbuilt hp, fun hu t => response_ne_of_unbuilt hp hu⟩,
    fun e en ha => ⟨execReset_of_not_built ha, fun hb t => response_ne_of_acceptedBy ha hb, fun i hi => ?_⟩⟩
  rcases hi with rfl | ⟨b, rfl⟩
  · exact ⟨exec_of_not_acceptedBy (i := .finish) ha (by simp),
      fun hb hst t => response_ne_of_acceptedBy ha ⟨hb, hst⟩⟩
  · exact ⟨exec_of_not_acceptedBy (i := .ingest b) ha (by simp),
      fun hb hst t => response_ne_of_acceptedBy ha ⟨hb, hst⟩⟩

/-- Settles O11: a word is illegal, or its command answers one of the two responses, which only a refusal does. -/
theorem refusedCommandChangesNothing : Obligations.RefusedCommandChangesNothing := by
  unfold Obligations.RefusedCommandChangesNothing
  intro s t p w rest r hq ht hresp hr
  rcases step_command_next hq ht with ⟨i, -, hx⟩ | rfl
  · exact eq_refuse_of_response (s := s.present p rest) hx hresp hr
  · cases hresp
    rfl

/-- Settles O30: of the answers on an engine's port only fault entry gives a fault's code. -/
theorem faultEntry : Obligations.FaultEntry := by
  unfold Obligations.FaultEntry
  intro s t e i k ht hp hr
  obtain ⟨en, o, r, hen, hans, rfl⟩ := exists_engineAnswers hp ht
  obtain rfl : r = k.response := by simpa [hp] using hr
  obtain ⟨x, rfl, hst, hft⟩ := hans.exists_faulted
  exact ⟨x, hst, hft, setEngine_respond_eq_answered ⟨hp, hen⟩ x k.response⟩

/-- Settles O31: both engines give the same answer, which overwrites them alike or leaves them. -/
theorem unspecifiedRegistersUnread : Obligations.UnspecifiedRegistersUnread := by
  unfold Obligations.UnspecifiedRegistersUnread
  intro s t e en en' i ha hna hst hft hkey ht
  obtain ⟨en₁, o, r, hen, hans, rfl⟩ := exists_engineAnswers ha.1 ht
  cases ha.2.symm.trans hen
  have hrun : exec i (s.setEngine e en') = .next (afterAnswer (s.setEngine e en') e r o) :=
    EngineAnswers.exec_eq (s := s.setEngine e en') (hans.of_not_active hna hst hkey) (addressed_setEngine ha)
  cases o with
  | none => exact .inr ⟨rfl, hrun⟩
  | some x =>
    refine .inl (hrun.trans ?_)
    simp [afterAnswer, State.setEngine, State.respond]

/-- Settles O35: the second block gives the same answer, which touches engine `e` alone. -/
theorem engineReadsOnlyItself : Obligations.EngineReadsOnlyItself := by
  unfold Obligations.EngineReadsOnlyItself
  intro s₁ s₂ t₁ e i hp₁ hp₂ hparams hts htree heng ht
  obtain ⟨en, o, r, hen₁, hans, rfl⟩ := exists_engineAnswers hp₁ ht
  have hen₂ : s₂.engines[e]? = some en := heng.symm.trans hen₁
  rw [hparams, hts, htree] at hans
  refine ⟨_, hans.exec_eq ⟨hp₂, hen₂⟩, ?_, ?_, fun j hj => afterAnswer_other_engine hj⟩
  · rw [afterAnswer_response, afterAnswer_response, hp₁, hp₂]
  · rw [afterAnswer_engine hen₁, afterAnswer_engine hen₂]

/-- The block with the command's word on the port of engine `e`. -/
def onEnginePort (s : State) (e : Nat) : State := { s with port := .engine e }

/-- Answers of two engines commute, but for the last response and port. -/
theorem afterAnswer_comm (s : State) {e f : Nat} (hef : e ≠ f) (o₁ o₂ : Option Engine) (r₁ r₂ : Response) :
    ({ afterAnswer (onEnginePort (afterAnswer (onEnginePort s f) f r₂ o₂) e) e r₁ o₁ with
        response := none, port := .builder } : State) =
      { afterAnswer (onEnginePort (afterAnswer (onEnginePort s e) e r₁ o₁) f) f r₂ o₂ with
        response := none, port := .builder } := by
  cases o₁ with
  | none => cases o₂ <;> rfl
  | some x =>
    cases o₂ with
    | none => rfl
    | some y => simp [afterAnswer, onEnginePort, State.setEngine, State.respond, List.set_comm _ _ hef]

/-- An answer read from the block is given on the port of its engine after an answer of another. -/
theorem EngineAnswers.exec_after {s : State} {e f : Nat} (hef : e ≠ f) {en : Engine} {i : Instr} {o o' : Option Engine}
    {r r' : Response} (h : EngineAnswers s.params s.treeState s.tree e en i o r) (hen : s.engines[e]? = some en) :
    exec i (onEnginePort (afterAnswer (onEnginePort s f) f r' o') e) =
      .next (afterAnswer (onEnginePort (afterAnswer (onEnginePort s f) f r' o') e) e r o) := by
  refine EngineAnswers.exec_eq (en := en) ?_ ⟨rfl, (afterAnswer_other_engine hef).trans hen⟩
  simpa [onEnginePort] using h

/-- Settles O36: each answer is read from the block without the other, and the two engines are set in either order. -/
theorem interleavingCommutes : Obligations.InterleavingCommutes := by
  unfold Obligations.InterleavingCommutes
  intro s a ab e f i j hef ha hab
  obtain ⟨en, o₁, r₁, hen, hans₁, rfl⟩ := exists_engineAnswers (s := onEnginePort s e) rfl ha
  obtain ⟨fn, o₂, r₂, hfn, hans₂, rfl⟩ :=
    exists_engineAnswers (s := onEnginePort (afterAnswer (onEnginePort s e) e r₁ o₁) f) rfl hab
  have hfn' : s.engines[f]? = some fn := (afterAnswer_other_engine (s := onEnginePort s e) hef.symm).symm.trans hfn
  have hans₂' : EngineAnswers s.params s.treeState s.tree f fn j o₂ r₂ := by
    simpa [onEnginePort] using hans₂
  have hb := EngineAnswers.exec_eq (s := onEnginePort s f) hans₂' ⟨rfl, hfn'⟩
  refine ⟨_, _, hb, EngineAnswers.exec_after hef hans₁ hen, ?_, ?_, afterAnswer_comm s hef o₁ o₂ r₁ r₂⟩
  · rw [afterAnswer_response, afterAnswer_response]
    rfl
  · rw [afterAnswer_response, afterAnswer_response]
    rfl

/-- A command changes `tree_state` only where it is BUILD in `UNBUILT` on the Builder's port. -/
theorem treeState_of_exec {s t : State} {i : Instr} (h : exec i s = .next t) :
    t.treeState = s.treeState ∨ (s.port = .builder ∧ i = .build ∧ s.treeState = .unbuilt ∧
      ((t.response = some (s.port, .ok) ∧ t.treeState = .built) ∨
       (t.response = some (s.port, .prefixCodeViolation) ∧ t.treeState = .buildFailed))) := by
  cases hp : s.port with
  | builder =>
    rcases exec_next_of_builder hp h with ⟨r, rfl⟩ | ⟨hi, hu, ⟨tree, rfl⟩ | rfl⟩
    · exact .inl rfl
    · exact .inr ⟨rfl, hi, hu, .inl ⟨by simp [hp], rfl⟩⟩
    · exact .inr ⟨rfl, hi, hu, .inr ⟨by simp [hp], rfl⟩⟩
  | engine e =>
    obtain ⟨_, _, _, -, -, rfl⟩ := exists_engineAnswers hp h
    exact .inl afterAnswer_treeState

/-- A command leaves an engine unchanged, or it is on that engine's port and makes a listed transition. -/
theorem engine_of_exec {s t : State} {i : Instr} {e : Nat} {en en' : Engine} (h : exec i s = .next t)
    (hen : s.engines[e]? = some en) (hen' : t.engines[e]? = some en') :
    en' = en ∨ (s.port = .engine e ∧ ∃ r, t.response = some (s.port, r) ∧ ListedTransition i r en en') := by
  cases hp : s.port with
  | builder =>
    have hsame : t.engines = s.engines := by
      rcases exec_next_of_builder hp h with ⟨r, rfl⟩ | ⟨-, -, ⟨tree, rfl⟩ | rfl⟩
      · rfl
      · rfl
      · rfl
    rw [hsame, hen] at hen'
    exact .inl (Option.some.inj hen').symm
  | engine f =>
    obtain ⟨fn, o, r, hfn, hans, rfl⟩ := exists_engineAnswers hp h
    by_cases hef : e = f
    · subst hef
      cases hen.symm.trans hfn
      cases (afterAnswer_engine hen).symm.trans hen'
      cases o with
      | none => exact .inl rfl
      | some x => exact .inr ⟨rfl, r, by rw [afterAnswer_response, hp], hans.listedTransition⟩
    · rw [afterAnswer_other_engine hef, hen] at hen'
      exact .inl (Option.some.inj hen').symm

/-- Settles O33: a word runs its command or is refused, and a hardware reset draws every engine anew in `IDLE`. -/
theorem statusTransitions : Obligations.StatusTransitions := by
  unfold Obligations.StatusTransitions
  intro s t ht
  refine ⟨fun p w rest hq => ?word, fun q rest hq => ?reset⟩
  case word =>
    rcases step_command_next hq ht with ⟨i, hw, hx⟩ | rfl
    · refine ⟨fun e en en' hen hen' => ?_, ?_⟩
      · rcases engine_of_exec hx hen hen' with hsame | ⟨hp, r, hr, hlisted⟩
        · exact .inl hsame
        · exact .inr ⟨hp, i, r, hw, hr, hlisted⟩
      · rcases treeState_of_exec hx with hsame | ⟨hp, rfl, hu, hend⟩
        · exact .inl hsame
        · exact .inr ⟨hp, hw, hu, hend⟩
    · exact ⟨fun e en en' hen hen' => .inl (Option.some.inj (hen'.symm.trans hen)), .inl rfl⟩
  case reset =>
    simp only [step, hq] at ht
    cases ht
    refine ⟨rfl, fun en hen => ?_⟩
    obtain ⟨e, -, rfl⟩ := List.mem_map.1 hen
    rfl

end Sys2Proof.Safety
end

section
/-! SUPPORT. Hardware reset as an event (70_reset_and_hazards.md R210 to R212). -/

namespace Sys2Proof.Safety

open Sys2Proof.Machine

/-- A step with a hardware reset at the head of the queue resets the block. -/
theorem step_of_hardwareReset {s : State} {q : Option Parameters} {rest : List HostEvent}
    (hq : s.pending = .hardwareReset q :: rest) : step s = .next ((s.dropEvent rest).hardwareReset q) := by
  simp only [step, hq]

/-- Hardware reset leaves every engine `IDLE` with `fault` 0 (R210). -/
theorem idle_of_mem_hardwareReset {s : State} {q : Option Parameters} {en : Engine}
    (h : en ∈ (s.hardwareReset q).engines) : en.status = .idle ∧ en.fault = none := by
  rw [State.hardwareReset_engines] at h
  obtain ⟨e, -, rfl⟩ := List.mem_map.1 h
  exact ⟨rfl, rfl⟩

/-- Settles O7: the step is the hardware reset of the block without the event. -/
theorem hardwareResetEvent : Obligations.HardwareResetEvent := by
  unfold Obligations.HardwareResetEvent
  intro s q rest hq
  refine ⟨_, step_of_hardwareReset hq, rfl, (inv_hardwareReset _ q).engineCount,
    fun en => idle_of_mem_hardwareReset, ?_, ?_, rfl⟩
  · rintro rfl
    rfl
  · rintro r rfl
    rfl

end Sys2Proof.Safety
end

section
/-! SUPPORT. Why no agent hangs (70_reset_and_hazards.md R220): every lookup of a decode in flight in a built tree finds
the TREE element that it reads, so neither loop of an engine stops the model, and every accepted command ends in one of
its answers. -/

namespace Sys2Proof.Safety

open Sys2Proof.Machine

section
variable {entries : List TableEntry} {t : Tree} {path : List Byte} {en : Engine}

/-- From a node on a path of a tree that holds codes, INGEST's loop finds every TREE element that it reads. -/
theorem HoldsCodes.ingestLoop_ne_stop (h : HoldsCodes entries t) (hn : walk t path = some en.node) (eos : Symbol)
    (cap0 passes : Nat) (f : Fault) : ingestLoop t eos cap0 passes en ≠ .stop f := by
  induction passes generalizing path en with
  | zero => exact nofun
  | succ passes ih =>
    rw [ingestLoop_succ]
    obtain ⟨l, hl⟩ := h.exists_lookup hn (ingestSlot en)
    by_cases h8 : 8 ≤ en.validBits.toNat
    case neg => simp [h8]
    rw [if_pos h8, hl]
    cases l with
    | empty => exact nofun
    | node c hd =>
      obtain ⟨hchild, hheader⟩ := (Tree.lookup_node_iff _ _ _ _ _).1 hl
      cases hk : hd.kind with
      | terminal =>
        by_cases heos : hd.symbol = eos
        · simp [hk, heos]
        · simpa [hk, heos] using ih (path := []) ((walk_nil t 0).2 ⟨rfl, h.only.rootInternal⟩)
      | internal =>
        have hi : isInternal t c := (isInternal_iff_header t c).2 ⟨hd, hheader, hk⟩
        simpa [hk] using ih ((walk_snoc t path _ c).2 ⟨en.node, hn, hchild, hi⟩)

/-- From a node on a path of a tree that holds codes, FINISH's loop finds every TREE element that it reads. -/
theorem HoldsCodes.finishLoop_ne_stop (h : HoldsCodes entries t) (hn : walk t path = some en.node) (eos : Symbol)
    (cap0 passes : Nat) (f : Fault) : finishLoop t eos cap0 passes en ≠ .stop f := by
  induction passes generalizing path en with
  | zero => exact nofun
  | succ passes ih =>
    by_cases hv : 0 < en.validBits.toNat
    case neg => simp [finishLoop_succ, hv]
    obtain ⟨l, hl⟩ := h.exists_lookup hn (finishSlot en)
    rw [finishLoop_of_lookup hv hl]
    cases fittingHeader en.validBits.toNat l with
    | none => exact nofun
    | some hd =>
      by_cases heos : hd.symbol = eos
      · simp [heos]
      · simpa [heos] using ih (path := []) ((walk_nil t 0).2 ⟨rfl, h.only.rootInternal⟩)

end

/-- A decode in flight is at a node on a path of a tree that holds the table's codes. -/
theorem Inv.exists_walk_of_active {s : State} (h : Inv s) {e : Nat} {en : Engine} (hen : s.engines[e]? = some en)
    (hst : en.status = .active) : HoldsCodes s.params.table s.tree ∧ ∃ path, walk s.tree path = some en.node := by
  have hok := h.engineOk e en hen
  obtain ⟨hwf, htree⟩ := h.treeIsBuilt (hok.built_of_active hst)
  obtain ⟨d, -, hat, -⟩ := (hok.live hst).cursor
  exact ⟨holdsCodes_of_buildTree hwf htree, exists_walk_of_atDepth hat⟩

/-- In a legal configuration the engines that are there have a capacity to start from (41_engine_ingest.md R127). -/
theorem Inv.cap0_ne_zero {s : State} (h : Inv s) (hcap : s.params.capacitiesLegal = true) {e : Nat}
    (he : e < s.engines.length) : s.cap0 e ≠ 0 := by
  have he : e < s.params.cap0.length := he.trans_eq h.engineCount
  have hpos : ∀ c ∈ s.params.cap0, 1 ≤ c := by simpa [Parameters.capacitiesLegal] using hcap
  rw [State.cap0, List.getD_eq_getElem _ _ he]
  exact Nat.ne_of_gt (hpos _ (List.getElem_mem he))

/-- An accepted command completes or raises a fault: there is no third way for it to end. -/
theorem Inv.completes_or_raises {s : State} (h : Inv s) (hcap : s.params.capacitiesLegal = true) {e : Nat} {en : Engine}
    (hen : s.engines[e]? = some en) {i : Instr} (hacc : acceptedBy s.treeState en.status i) :
    (∃ x, Completes s.params s.tree e en x i) ∨ ∃ k, Raises s.params s.tree e en k i := by
  cases i with
  | build => exact absurd hacc id
  | reset => exact .inl ⟨_, h.cap0_ne_zero hcap (List.getElem?_eq_some_iff.1 hen).1, rfl⟩
  | ingest b =>
    obtain ⟨hold, path, hn⟩ := h.exists_walk_of_active hen hacc.2
    have hn : walk s.tree path = some (en.shiftIn b).node := hn
    cases hl : ingestLoop s.tree s.params.eosSym (s.cap0 e) 8 (en.shiftIn b) with
    | ok en' => exact .inl ⟨en', hl⟩
    | raise k => exact .inr ⟨k, hl⟩
    | stop f => exact absurd hl (hold.ingestLoop_ne_stop hn _ _ _ f)
  | finish =>
    obtain ⟨hold, path, hn⟩ := h.exists_walk_of_active hen hacc.2
    cases hl : finishLoop s.tree s.params.eosSym (s.cap0 e) en.validBits.toNat en with
    | ok en' =>
      cases hpad : paddingValid en' with
      | true => exact .inl ⟨_, en', hl, hpad, rfl⟩
      | false => exact .inr ⟨_, .inr ⟨rfl, en', hl, hpad⟩⟩
    | raise k => exact .inr ⟨k, .inl hl⟩
    | stop f => exact absurd hl (hold.finishLoop_ne_stop hn _ _ _ f)

/-- Every command on the port of an engine that is there has an answer. -/
theorem Inv.exists_engineAnswers {s : State} (h : Inv s) (hcap : s.params.capacitiesLegal = true) {e : Nat}
    {en : Engine} (hen : s.engines[e]? = some en) (i : Instr) :
    ∃ o r, EngineAnswers s.params s.treeState s.tree e en i o r := by
  by_cases hacc : acceptedBy s.treeState en.status i
  · rcases h.completes_or_raises hcap hen hacc with ⟨x, hx⟩ | ⟨k, hk⟩
    · exact ⟨some x, _, .completed hacc hx⟩
    · exact ⟨some _, _, .raised hacc hk⟩
  · by_cases hi : i = .build
    · subst hi
      exact ⟨none, _, .illegal⟩
    · exact ⟨none, _, .refused hi hacc⟩

/-- On the Builder's port BUILD is answered where the table is well-formed, accepted or not, and every other command is
illegal. -/
theorem exec_answered_of_builder {s : State} (hp : s.port = .builder) (hwf : s.params.tableWellFormed = true)
    (i : Instr) : ∃ t r, exec i s = .next t ∧ t.response = some (.builder, r) := by
  rw [← hp]
  have hillegal (hi : ¬ ownPort i s.port) : exec i s = .next (s.refuse .illegalCommand) :=
    (exec_of_not_ownPort hi).trans (rejectIllegal_of_portExists (hp ▸ trivial))
  cases i with
  | build =>
    by_cases hu : s.treeState = .unbuilt
    · rcases buildTree_spec hwf with ⟨tree, htree, -⟩ | ⟨hv, -⟩
      · exact ⟨_, _, execBuild_of_ok hp hu hwf htree, rfl⟩
      · exact ⟨_, _, execBuild_of_violation hp hu hwf hv, rfl⟩
    · exact ⟨_, _, execBuild_of_not_unbuilt hp hu, rfl⟩
  | reset => exact ⟨_, _, hillegal (not_not.2 hp), rfl⟩
  | ingest b => exact ⟨_, _, hillegal (not_not.2 hp), rfl⟩
  | finish => exact ⟨_, _, hillegal (not_not.2 hp), rfl⟩

/-- In a well-formed configuration every command on a port that exists is answered on that port. -/
theorem exec_answered {s : State} (h : Inv s) (hwf : s.params.wellFormed = true) {p : Port} (hport : s.port = p)
    (hp : portExists s p) (i : Instr) : ∃ t r, exec i s = .next t ∧ t.response = some (p, r) := by
  obtain ⟨⟨htable, hcap⟩, -⟩ : (s.params.tableWellFormed = true ∧ s.params.capacitiesLegal = true) ∧
      s.params.hasEngine = true := by simpa [Parameters.wellFormed] using hwf
  cases p with
  | builder => exact exec_answered_of_builder hport htable i
  | engine e =>
    have hen := List.getElem?_eq_getElem (show e < s.engines.length from hp)
    obtain ⟨o, r, hans⟩ := h.exists_engineAnswers hcap hen i
    exact ⟨_, r, hans.exec_eq ⟨hport, hen⟩, by rw [afterAnswer_response, hport]⟩

/-- Settles O39: a legal word's command is answered, and an illegal word is refused with a response. -/
theorem everyCommandIsAnswered : Obligations.EveryCommandIsAnswered := by
  unfold Obligations.EveryCommandIsAnswered
  intro s p w rest h hwf hq hp
  have hp : portExists (s.present p rest) p := by cases p <;> exact hp
  cases hw : decode w with
  | ok i =>
    obtain ⟨t, r, ht, hr⟩ := exec_answered (h.present p rest) hwf rfl hp i
    exact ⟨t, r, (step_of_command hq hw).trans ht, hr⟩
  | error x =>
    have hstep : step s = (s.present p rest).rejectIllegal := by simp only [step, hq, hw]
    exact ⟨_, _, hstep.trans (rejectIllegal_of_portExists hp), rfl⟩

end Sys2Proof.Safety
end
